-- ==== Sys2Proof/Word.lean ====
section
/-! DEFINITION. The word types of the core: Bits8, Bits16 and Bits32 of 00_scope.md R10. -/

namespace Sys2Proof

/-- Bits8: a stored byte, a count, a cursor, a speed or an angle (00_scope.md R10). -/
abbrev Byte := BitVec 8

/-- Bits16: a running CRC (00_scope.md R10; 41_crc16.md R140). -/
abbrev Half := BitVec 16

/-- Bits32: a command word, a result's data, the Control Values word (30_encoding.md R81, R88, R97). -/
abbrev Word := BitVec 32

end Sys2Proof
end

