-- ==== Sys2Proof/Syntax.lean ====
section
/-! DEFINITION. The commands of the core, one constructor per row of the opcode map (30_encoding.md R87),
and the ports they are issued on. -/

namespace Sys2Proof

/-- The two command ports, one per agent (30_encoding.md R80; 60_exceptions.md R250). -/
inductive Port where
  /-- cmd_F: the foreground agent. -/
  | F
  /-- cmd_I: the interrupt agent. -/
  | I
  deriving DecidableEq, Repr

/-- A command with its operands, raw bit fields of the word (30_encoding.md R86). -/
inductive Instr where
  /-- INIT (44_control.md R220). -/
  | init
  /-- STATUS (44_control.md R222). -/
  | status
  /-- LAST_REMOTE (44_control.md R224). -/
  | lastRemote
  /-- RXF_PUT b (40_fifo.md R113). -/
  | rxfPut (b : Byte)
  /-- RXF_GET (40_fifo.md R114). -/
  | rxfGet
  /-- RXF_READ_SIZE (40_fifo.md R115). -/
  | rxfReadSize
  /-- RXF_WRITE_SPACE (40_fifo.md R116). -/
  | rxfWriteSpace
  /-- TXF_PUT b (40_fifo.md R117). -/
  | txfPut (b : Byte)
  /-- TXF_GET (40_fifo.md R118). -/
  | txfGet
  /-- TXF_READ_SIZE (40_fifo.md R119). -/
  | txfReadSize
  /-- TXF_WRITE_SPACE (40_fifo.md R120). -/
  | txfWriteSpace
  /-- CRC_UPDATE c, b (41_crc16.md R144). -/
  | crcUpdate (c : Half) (b : Byte)
  /-- TRY_RECEIVE_FRAME (42_frame_link.md R160). -/
  | tryReceiveFrame
  /-- BUILD_AND_ENQUEUE_FRAME s, a (42_frame_link.md R170). -/
  | buildAndEnqueueFrame (speed angle : Byte)
  /-- RTS_EVAL (43_flow_control.md R190). -/
  | rtsEval
  /-- TX_IRQ_EVAL (43_flow_control.md R192). -/
  | txIrqEval
  /-- HW_RX_BYTE b (43_flow_control.md R195). -/
  | hwRxByte (b : Byte)
  /-- TX_DRAIN (43_flow_control.md R197). -/
  | txDrain
  deriving DecidableEq, Repr

end Sys2Proof
end

