-- ==== Sys2Proof/Decode.lean ====
section
/-! DEFINITION. The opcode map (30_encoding.md R87): the decoder of R91, the encoder of R82 to R86,
and the ports column. The core fetches nothing (20_memory.md R71): a command arrives as one 32-bit
word, so the decoder reads a word and not bytes (log 14). -/

namespace Sys2Proof

/-- Why a word is illegal (30_encoding.md R90). -/
inductive DecodeError where
  /-- The opcode is one of the 238 that R87 does not list. -/
  | unassignedOpcode (opcode : Byte)
  /-- The opcode is listed and a reserved bit of its format is set. -/
  | reservedBits (opcode : Byte)
  deriving DecidableEq, Repr

/-- The opcode field, bits [31:24] (30_encoding.md R81). -/
def fieldOpcode (w : Word) : Byte := w.extractLsb' 24 8

/-- The operand b of formats B and C, bits [7:0] (30_encoding.md R83, R85). -/
def fieldB (w : Word) : Byte := w.extractLsb' 0 8

/-- The operand c of format C, bits [23:8] (30_encoding.md R85). -/
def fieldC (w : Word) : Half := w.extractLsb' 8 16

/-- The operand s of format V, bits [15:8] (30_encoding.md R84). -/
def fieldS (w : Word) : Byte := w.extractLsb' 8 8

/-- The operand a of format V, bits [7:0] (30_encoding.md R84). -/
def fieldA (w : Word) : Byte := w.extractLsb' 0 8

/-- A row of the opcode map: a word w selects it when (w & mask) == pattern (30_encoding.md R87). -/
structure OpcodeRow where
  mnemonic : String
  pattern : Word
  mask : Word
  build : Word → Instr

/-- The opcode map of 30_encoding.md R87. -/
def opcodeMap : List OpcodeRow :=
  [ ⟨"INIT", 0x01000000#32, 0xFFFFFFFF#32, fun _ => .init⟩,
    ⟨"STATUS", 0x02000000#32, 0xFFFFFFFF#32, fun _ => .status⟩,
    ⟨"LAST_REMOTE", 0x03000000#32, 0xFFFFFFFF#32, fun _ => .lastRemote⟩,
    ⟨"RXF_PUT", 0x10000000#32, 0xFFFFFF00#32, fun w => .rxfPut (fieldB w)⟩,
    ⟨"RXF_GET", 0x11000000#32, 0xFFFFFFFF#32, fun _ => .rxfGet⟩,
    ⟨"RXF_READ_SIZE", 0x12000000#32, 0xFFFFFFFF#32, fun _ => .rxfReadSize⟩,
    ⟨"RXF_WRITE_SPACE", 0x13000000#32, 0xFFFFFFFF#32, fun _ => .rxfWriteSpace⟩,
    ⟨"TXF_PUT", 0x18000000#32, 0xFFFFFF00#32, fun w => .txfPut (fieldB w)⟩,
    ⟨"TXF_GET", 0x19000000#32, 0xFFFFFFFF#32, fun _ => .txfGet⟩,
    ⟨"TXF_READ_SIZE", 0x1A000000#32, 0xFFFFFFFF#32, fun _ => .txfReadSize⟩,
    ⟨"TXF_WRITE_SPACE", 0x1B000000#32, 0xFFFFFFFF#32, fun _ => .txfWriteSpace⟩,
    ⟨"CRC_UPDATE", 0x20000000#32, 0xFF000000#32, fun w => .crcUpdate (fieldC w) (fieldB w)⟩,
    ⟨"TRY_RECEIVE_FRAME", 0x30000000#32, 0xFFFFFFFF#32, fun _ => .tryReceiveFrame⟩,
    ⟨"BUILD_AND_ENQUEUE_FRAME", 0x31000000#32, 0xFFFF0000#32,
      fun w => .buildAndEnqueueFrame (fieldS w) (fieldA w)⟩,
    ⟨"RTS_EVAL", 0x40000000#32, 0xFFFFFFFF#32, fun _ => .rtsEval⟩,
    ⟨"TX_IRQ_EVAL", 0x41000000#32, 0xFFFFFFFF#32, fun _ => .txIrqEval⟩,
    ⟨"HW_RX_BYTE", 0x48000000#32, 0xFFFFFF00#32, fun w => .hwRxByte (fieldB w)⟩,
    ⟨"TX_DRAIN", 0x49000000#32, 0xFFFFFFFF#32, fun _ => .txDrain⟩ ]

/-- Does a word select a row (30_encoding.md R87)? -/
def OpcodeRow.selects (r : OpcodeRow) (w : Word) : Bool := w &&& r.mask == r.pattern

/-- The name under which a word that selects no row is rejected (30_encoding.md R90). -/
def rejection (w : Word) : DecodeError :=
  if opcodeMap.any (fun r => fieldOpcode r.pattern == fieldOpcode w)
  then .reservedBits (fieldOpcode w)
  else .unassignedOpcode (fieldOpcode w)

/-- The decoding procedure of 30_encoding.md R91, total on every word. -/
def decode (w : Word) : Except DecodeError Instr :=
  match opcodeMap.find? (fun r => r.selects w) with
  | some r => .ok (r.build w)
  | none => .error (rejection w)

/-- The opcode of a command, bits [31:24] of its word (30_encoding.md R87). -/
def opcodeOf : Instr → Byte
  | .init => 0x01#8
  | .status => 0x02#8
  | .lastRemote => 0x03#8
  | .rxfPut _ => 0x10#8
  | .rxfGet => 0x11#8
  | .rxfReadSize => 0x12#8
  | .rxfWriteSpace => 0x13#8
  | .txfPut _ => 0x18#8
  | .txfGet => 0x19#8
  | .txfReadSize => 0x1A#8
  | .txfWriteSpace => 0x1B#8
  | .crcUpdate _ _ => 0x20#8
  | .tryReceiveFrame => 0x30#8
  | .buildAndEnqueueFrame _ _ => 0x31#8
  | .rtsEval => 0x40#8
  | .txIrqEval => 0x41#8
  | .hwRxByte _ => 0x48#8
  | .txDrain => 0x49#8

/-- Payload of format N (30_encoding.md R82). -/
def payloadN : BitVec 24 := 0#24

/-- Payload of format B (30_encoding.md R83). -/
def payloadB (b : Byte) : BitVec 24 := 0#16 ++ b

/-- Payload of format V (30_encoding.md R84). -/
def payloadV (s a : Byte) : BitVec 24 := 0#8 ++ s ++ a

/-- Payload of format C (30_encoding.md R85). -/
def payloadC (c : Half) (b : Byte) : BitVec 24 := c ++ b

/-- The payload of a command, bits [23:0] of its word (30_encoding.md R81 to R87). -/
def payloadOf : Instr → BitVec 24
  | .init => payloadN
  | .status => payloadN
  | .lastRemote => payloadN
  | .rxfPut b => payloadB b
  | .rxfGet => payloadN
  | .rxfReadSize => payloadN
  | .rxfWriteSpace => payloadN
  | .txfPut b => payloadB b
  | .txfGet => payloadN
  | .txfReadSize => payloadN
  | .txfWriteSpace => payloadN
  | .crcUpdate c b => payloadC c b
  | .tryReceiveFrame => payloadN
  | .buildAndEnqueueFrame s a => payloadV s a
  | .rtsEval => payloadN
  | .txIrqEval => payloadN
  | .hwRxByte b => payloadB b
  | .txDrain => payloadN

/-- The word of a command: opcode, then payload (30_encoding.md R81). -/
def encode (i : Instr) : Word := opcodeOf i ++ payloadOf i

/-- The ports column of 30_encoding.md R87, which 60_exceptions.md R250 gives again by agent. -/
def portsOf : Instr → List Port
  | .init => [.F]
  | .status => [.F, .I]
  | .lastRemote => [.F]
  | .rxfPut _ => [.I]
  | .rxfGet => [.F]
  | .rxfReadSize => [.F, .I]
  | .rxfWriteSpace => [.F, .I]
  | .txfPut _ => [.F]
  | .txfGet => [.I]
  | .txfReadSize => [.F, .I]
  | .txfWriteSpace => [.F, .I]
  | .crcUpdate _ _ => [.F]
  | .tryReceiveFrame => [.F]
  | .buildAndEnqueueFrame _ _ => [.F]
  | .rtsEval => [.F, .I]
  | .txIrqEval => [.F, .I]
  | .hwRxByte _ => [.I]
  | .txDrain => [.I]

/-- May a command be issued on a port (60_exceptions.md R250)? -/
def allowedOn (i : Instr) (p : Port) : Bool := (portsOf i).contains p

/-- The host's reading of a row's word: `w` is the command word itself, bit 0 its least significant
bit; bits at and above `nbits` are 0. A value that does not fit the one 32-bit word of
30_encoding.md R81 decodes to nothing. -/
def decodeTableWord (nbits w : Nat) : Option Instr :=
  let v := w % 2 ^ nbits
  if v < 2 ^ 32 then (decode (BitVec.ofNat 32 v)).toOption else none

end Sys2Proof
end

