-- ==== Sys2Proof/Config.lean ====
section
/-! DEFINITION. The implementation parameters of 00_scope.md R7 and the model's one free value.
Which parameters are legal is said in WellFormed.lean (R9). -/

namespace Sys2Proof

/-- The two FIFO instances (10_state.md R32). -/
inductive FifoId where
  | rx
  | tx
  deriving DecidableEq, Repr

/-- The parameter ABS_ANGLE_MODE (00_scope.md R7; 42_frame_link.md R163). -/
inductive AbsAngleMode where
  | RAW
  | OFFSET90
  deriving DecidableEq, Repr

/-- The parameter CRC_STEP as plain data (41_crc16.md R141: any total function Bits16 × Bits8 → Bits16).
`msbFirst` is the shape of R142 and `reflected` the shape of R143, each with its polynomial.
`table` lists values of any other function; a pair it does not list maps to 0.
DESIGN CHOICE (log 4), safe: every total function is some `CrcStep`. -/
inductive CrcStep where
  | msbFirst (poly : Half)
  | reflected (poly : Half)
  | table (rows : List ((Half × Byte) × Half))
  deriving DecidableEq, Repr

/-- The parameters of 00_scope.md R7. They are fixed for the life of a model instance (10_state.md R31). -/
structure Config where
  /-- RX_CAP. -/
  rxCap : Nat
  /-- TX_CAP. -/
  txCap : Nat
  /-- CRC_STEP. -/
  crcStep : CrcStep
  /-- SILENCE_CEIL. -/
  silenceCeil : Nat
  /-- RTS_START. -/
  rtsStart : Nat
  /-- RTS_STOP. -/
  rtsStop : Nat
  /-- ABS_ANGLE_MODE. -/
  absAngleMode : AbsAngleMode
  /-- START_ERR_TOGGLE. -/
  startErrToggle : Bool
  deriving DecidableEq, Repr

/-- The default column of 00_scope.md R7, with the default CRC_STEP of 41_crc16.md R142. -/
def Config.default : Config where
  rxCap := 21
  txCap := 21
  crcStep := .msbFirst 0x1021#16
  silenceCeil := 10
  rtsStart := 10
  rtsStop := 6
  absAngleMode := .RAW
  startErrToggle := false

/-- The capacity CAP(F) of a FIFO (10_state.md R32). -/
def Config.cap (c : Config) : FifoId → Nat
  | .rx => c.rxCap
  | .tx => c.txCap

/-- What byte i of a FIFO's storage holds before anything is put there: any value
(93_implementation_defined.md U7; 10_state.md R34). A FREE VALUE (log 5): it has no body, so
nothing can be proved of it. -/
opaque Config.unwrittenByte : FifoId → Nat → Byte

end Sys2Proof
end

