-- ==== Sys2Proof/Machine/State.lean ====
section
/-! DEFINITION. The state of the core (10_state.md R31), its outputs and results (R44; 30_encoding.md R80, R88),
its inputs (R40), and the agents' and environment's data that one deterministic step reads (log 1, log 10). -/

namespace Sys2Proof.Machine

/-- A FIFO's storage as (index, byte) pairs (20_memory.md R60). An index that is not listed has never been
put to: it has no value of the model's own (log 5). -/
abbrev Memory := List Host.Cell

/-- The canonical form: indexes strictly rising. An unlisted index has no value, so no entry can equal what
an unlisted index reads as (log 5). -/
abbrev Memory.wf (m : Memory) : Prop := m.Pairwise (fun x y => x.1 < y.1)

/-- One FIFO (10_state.md R32). -/
structure Fifo where
  /-- The storage array F.buf. -/
  buf : Memory
  /-- The read cursor F.rd. -/
  rd : Byte
  /-- The write cursor F.wr. -/
  wr : Byte
  /-- The occupancy count F.count. -/
  count : Byte
  deriving DecidableEq, Repr

/-- The Link Mode (10_state.md R36). -/
inductive Mode where
  | LOCAL
  | REMOTE
  deriving DecidableEq, Repr

/-- A result's code (30_encoding.md R88). Code 3 is never produced. -/
inductive RspCode where
  | OK
  | NONE
  | ILLEGAL
  deriving DecidableEq, Repr

/-- A command's result (30_encoding.md R88). -/
structure Response where
  code : RspCode
  data : Word
  deriving DecidableEq, Repr

/-- What happens next outside the core, one item a step (log 1): an agent issues its next command
(20_memory.md R65), the environment changes an input (10_state.md R40; 92_eei_decisions.md D32), or
power is applied (70_reset_and_hazards.md R270, R271; log 12). -/
inductive Turn where
  | issue (p : Port)
  | setCtsIn (level : Bool)
  | setTxRegFullIn (level : Bool)
  | powerOn
  deriving DecidableEq, Repr

/-- The state. A one-bit element is a Bool: true is level 1. -/
structure State where
  /-- The parameters, fixed for the life of the instance (00_scope.md R7; 10_state.md R31). -/
  cfg : Config
  /-- The RX FIFO (10_state.md R32). -/
  rx : Fifo
  /-- The TX FIFO (10_state.md R32). -/
  tx : Fifo
  /-- mode (10_state.md R36). -/
  mode : Mode
  /-- silence_count (10_state.md R37). -/
  silenceCount : Byte
  /-- last_remote (10_state.md R38). -/
  lastRemote : Word
  /-- rts (10_state.md R39). -/
  rts : Bool
  /-- tx_irq_en (10_state.md R41). -/
  txIrqEn : Bool
  /-- crc_err_ind (10_state.md R42). -/
  crcErrInd : Bool
  /-- frame_err_ind (10_state.md R43). -/
  frameErrInd : Bool
  /-- The input cts_in as it now stands (10_state.md R40). -/
  ctsIn : Bool
  /-- The input tx_reg_full_in as it now stands (10_state.md R40). -/
  txRegFullIn : Bool
  /-- tx_wire, oldest byte first (10_state.md R44). -/
  txWire : List Byte
  /-- rsp_F (30_encoding.md R80, R88). -/
  rspF : Response
  /-- rsp_I (30_encoding.md R80, R88). -/
  rspI : Response
  /-- The stream of command results, oldest first (10_state.md R44). -/
  results : List (Port × Response)
  /-- The words F has still to issue on cmd_F (10_state.md R30; log 1). -/
  cmdF : List Word
  /-- The words I has still to issue on cmd_I (10_state.md R30; log 1). -/
  cmdI : List Word
  /-- The turns still to come (log 1). -/
  schedule : List Turn
  /-- The port whose command is being executed (log 10). -/
  port : Port
  deriving DecidableEq, Repr

/-- Why the machine stops. The core itself never does (60_exceptions.md R240, R242). -/
inductive Fault where
  /-- Raised by a read or write of a FIFO's storage at an index outside 0..CAP-1, which 20_memory.md R60 says
  does not exist. SAFE: the cursor is then outside its legal values (10_state.md R31), which no run reaches (log 6). -/
  | noSuchByte (F : FifoId) (index : Nat)
  deriving DecidableEq, Repr

/-- Why the model gives no meaning. -/
inductive Refusal where
  /-- Kept for an instruction without a meaning; no arm of `exec` uses it. SAFE. -/
  | notModelled (mnemonic : String)
  /-- Raised by `step` when the parameters break 00_scope.md R9, which says that a model refuses them. SAFE (log 7). -/
  | illegalConfiguration
  deriving DecidableEq, Repr

/-- A FIFO right after power-on: empty, cursors 0, storage unspecified (10_state.md R31; 70_reset_and_hazards.md R270). -/
def Fifo.reset : Fifo where
  buf := []
  rd := 0#8
  wr := 0#8
  count := 0#8

/-- The result a port reads until its first command (70_reset_and_hazards.md R270). -/
def Response.reset : Response where
  code := .OK
  data := 0#32

/-- The state right after power-on reset of an instance with parameters c (70_reset_and_hazards.md R270).
The inputs' levels, the queues, the schedule and the port are the model's choice (log 1, log 9, log 10). -/
def State.resetWith (c : Config) : State where
  cfg := c
  rx := Fifo.reset
  tx := Fifo.reset
  mode := .LOCAL
  silenceCount := 0#8
  lastRemote := 0#32
  rts := false
  txIrqEn := false
  crcErrInd := false
  frameErrInd := false
  ctsIn := false
  txRegFullIn := false
  txWire := []
  rspF := Response.reset
  rspI := Response.reset
  results := []
  cmdF := []
  cmdI := []
  schedule := []
  port := .F

/-- The state right after reset, with the default parameters of 00_scope.md R7 (log 3). -/
def State.reset : State := State.resetWith Config.default

end Sys2Proof.Machine
end

