-- ==== Sys2Proof/Machine/Ops.lean ====
section
/-! DEFINITION. The named operations the meanings share: storage access (20_memory.md R60, R61), the FIFO
primitives (40_fifo.md R110 to R112), the result of a command (30_encoding.md R88), the one exception
(60_exceptions.md R240) and the port check (R241). There is no return from the exception: R244 says that
none exists. -/

namespace Sys2Proof.Machine

/-! ### Storage -/

/-- The byte listed at an index, if one is. -/
def Memory.read? : Memory → Nat → Option Byte
  | [], _ => none
  | (a, v) :: m, i => if a = i then some v else Memory.read? m i

/-- Store a byte at an index and keep the canonical form. -/
def Memory.write : Memory → Nat → Byte → Memory
  | [], i, v => [(i, v)]
  | (a, x) :: m, i, v =>
    if i < a then (i, v) :: (a, x) :: m
    else if i = a then (i, v) :: m
    else (a, x) :: Memory.write m i v

/-- FIFO F of the core (10_state.md R32). -/
def State.fifo (s : State) : FifoId → Fifo
  | .rx => s.rx
  | .tx => s.tx

/-- CAP(F) (10_state.md R32). -/
def State.cap (s : State) (F : FifoId) : Nat := s.cfg.cap F

/-- Write FIFO F. -/
def State.setFifo (s : State) (F : FifoId) (f : Fifo) : State :=
  { s with
    rx := match F with
      | .rx => f
      | .tx => s.rx
    tx := match F with
      | .rx => s.tx
      | .tx => f }

/-- What byte i of F's storage holds: the byte last put there, or any value where nothing was (log 5). -/
def State.byteAt (s : State) (F : FifoId) (i : Nat) : Byte :=
  ((s.fifo F).buf.read? i).getD (Config.unwrittenByte F i)

/-- MemRead((F, i), 1) (00_scope.md R11). A byte outside 0..CAP-1 does not exist (20_memory.md R60). -/
def memRead (F : FifoId) (i : Nat) (s : State) : Except Fault Byte :=
  if i < s.cap F then .ok (s.byteAt F i) else .error (.noSuchByte F i)

/-- MemWrite((F, i), 1, v) (00_scope.md R11). A byte outside 0..CAP-1 does not exist (20_memory.md R60). -/
def memWrite (F : FifoId) (i : Nat) (v : Byte) (s : State) : Except Fault State :=
  if i < s.cap F then .ok (s.setFifo F { s.fifo F with buf := (s.fifo F).buf.write i v })
  else .error (.noSuchByte F i)

/-! ### FIFO primitives -/

/-- ReadSize(F) (40_fifo.md R111). -/
def readSize (F : FifoId) (s : State) : Nat := (s.fifo F).count.toNat

/-- WriteSpace(F) = CAP(F) - F.count on unbounded integers (40_fifo.md R111; 00_scope.md R11). -/
def writeSpace (F : FifoId) (s : State) : Int := (s.cap F : Int) - (readSize F s : Int)

/-- A cursor advanced by one: (cursor + 1) mod CAP (40_fifo.md R110, R112). -/
def advance (cap : Nat) (cursor : Byte) : Byte := BitVec.ofNat 8 ((cursor.toNat + 1) % cap)

/-- FifoPut(F, b) (40_fifo.md R110): the state after it, and whether it succeeded. -/
def fifoPut (F : FifoId) (b : Byte) (s : State) : Except Fault (State × Bool) :=
  if (s.fifo F).count.toNat = s.cap F then .ok (s, false)
  else
    match memWrite F (s.fifo F).wr.toNat b s with
    | .error e => .error e
    | .ok s1 =>
      .ok (s1.setFifo F { s1.fifo F with
        wr := advance (s1.cap F) (s1.fifo F).wr
        count := (s1.fifo F).count + 1#8 }, true)

/-- FifoGet(F) (40_fifo.md R112): the byte, whether it succeeded, and the state after it. -/
def fifoGet (F : FifoId) (s : State) : Except Fault (Byte × Bool × State) :=
  if (s.fifo F).count = 0#8 then .ok (0#8, false, s)
  else
    match memRead F (s.fifo F).rd.toNat s with
    | .error e => .error e
    | .ok v =>
      .ok (v, true, s.setFifo F { s.fifo F with
        rd := advance (s.cap F) (s.fifo F).rd
        count := (s.fifo F).count - 1#8 })

/-- Several FifoPut in a row, oldest byte first, their success not looked at (42_frame_link.md R170). -/
def fifoPutAll (F : FifoId) : List Byte → State → Except Fault State
  | [], s => .ok s
  | b :: bs, s =>
    match fifoPut F b s with
    | .error e => .error e
    | .ok (s1, _) => fifoPutAll F bs s1

/-- A FIFO emptied: cursors and count 0, storage as it was (44_control.md R220). -/
def Fifo.emptied (f : Fifo) : Fifo := { f with rd := 0#8, wr := 0#8, count := 0#8 }

/-! ### Results and the exception -/

/-- The last result of a port (30_encoding.md R80). -/
def State.rsp (s : State) : Port → Response
  | .F => s.rspF
  | .I => s.rspI

/-- respond(code, data) on the issuing port (30_encoding.md R88), recorded in the result stream (10_state.md R44). -/
def respond (code : RspCode) (data : Word) (s : State) : State :=
  { s with
    rspF := match s.port with
      | .F => ⟨code, data⟩
      | .I => s.rspF
    rspI := match s.port with
      | .F => s.rspI
      | .I => ⟨code, data⟩
    results := s.results ++ [(s.port, ⟨code, data⟩)] }

/-- respond(OK, d) or respond(NONE, 0), as a primitive succeeded or not (30_encoding.md R88). -/
def respondIf (ok : Bool) (d : Word) (s : State) : State :=
  if ok then respond .OK d s else respond .NONE 0#32 s

/-- raise IllegalCommand (60_exceptions.md R240): nothing changes but the result, which is (ILLEGAL, 0) on
the issuing port. The offending word is not kept. -/
def raiseIllegalCommand (s : State) : State := respond .ILLEGAL 0#32 s

/-- The port check of 60_exceptions.md R241, second in the order of R243: a command on a port its row does
not list raises IllegalCommand and has no effect. -/
def onAllowedPort (i : Instr) (s : State) (effect : Host.Outcome State Fault Refusal) :
    Host.Outcome State Fault Refusal :=
  if allowedOn i s.port then effect else .next (raiseIllegalCommand s)

/-- A primitive's outcome as a step's outcome. -/
def finish (r : Except Fault State) : Host.Outcome State Fault Refusal :=
  match r with
  | .ok s => .next s
  | .error e => .fault e

end Sys2Proof.Machine
end

