-- ==== Sys2Proof/Machine/Flags.lean ====
section
/-! DEFINITION. Every computation of a one-bit element and of the link state: RtsEval (43_flow_control.md R190),
TxIrqEval (R192), TxEmptyClear (R193), the two indicators (10_state.md R42, R43), and silence_count with mode
(42_frame_link.md R160, R161, R166). -/

namespace Sys2Proof.Machine

/-- rts after an evaluation at free space ws (43_flow_control.md R190). -/
def rtsNext (c : Config) (ws : Int) (rts : Bool) : Bool :=
  if (c.rtsStart : Int) ≤ ws then false
  else if ws ≤ (c.rtsStop : Int) then true
  else rts

/-- RtsEval() (43_flow_control.md R190). -/
def rtsEval (s : State) : State :=
  { s with rts := rtsNext s.cfg (writeSpace .rx s) s.rts }

/-- TxIrqEval() (43_flow_control.md R192). -/
def txIrqEval (s : State) : State :=
  { s with txIrqEn := decide (0 < s.tx.count.toNat) && !s.ctsIn }

/-- TxEmptyClear() (43_flow_control.md R193). -/
def txEmptyClear (s : State) : State :=
  { s with txIrqEn := if s.tx.count = 0#8 then false else s.txIrqEn }

/-- crc_err_ind <- not crc_err_ind (42_frame_link.md R160 step 4). -/
def toggleCrcErr (s : State) : State :=
  { s with crcErrInd := !s.crcErrInd }

/-- frame_err_ind <- not frame_err_ind, only when START_ERR_TOGGLE (42_frame_link.md R160 step 3; 10_state.md R43). -/
def toggleFrameErr (s : State) : State :=
  { s with frameErrInd := if s.cfg.startErrToggle then !s.frameErrInd else s.frameErrInd }

/-- silence_count after one more poll of silence: min(silence_count + 1, SILENCE_CEIL) (42_frame_link.md R160 step 1). -/
def silenceNext (c : Config) (n : Byte) : Byte :=
  BitVec.ofNat 8 (min (n.toNat + 1) c.silenceCeil)

/-- One poll of silence: the count, and LOCAL once it stands at the ceiling (42_frame_link.md R160 step 1, R161). -/
def pollOfSilence (s : State) : State :=
  { s with
    silenceCount := silenceNext s.cfg s.silenceCount
    mode := if (silenceNext s.cfg s.silenceCount).toNat = s.cfg.silenceCeil then .LOCAL else s.mode }

/-- A valid frame with Control Values cv arrived (42_frame_link.md R160). -/
def acceptFrame (cv : Word) (s : State) : State :=
  { s with silenceCount := 0#8, mode := .REMOTE, lastRemote := cv }

end Sys2Proof.Machine
end

