-- ==== Sys2Proof/Machine/Operands.lean ====
section
/-! DEFINITION. How values are read from and packed into bytes and words: s8 and bits8 (00_scope.md R10), the
fixed values of R8, the Control Values word (42_frame_link.md R163; 30_encoding.md R97), the status word (R96),
the two halves of a CRC (20_memory.md R62) and the output lines (30_encoding.md R80). A command's own operands
are raw fields and are assembled by the decoder (30_encoding.md R86). -/

namespace Sys2Proof.Machine

/-- The start marker (00_scope.md R8). -/
def startMarker : Byte := 0xAA#8

/-- The CRC seed (00_scope.md R8). -/
def crcSeed : Half := 0xFFFF#16

/-- The frame length in bytes (00_scope.md R8). -/
def frameLength : Nat := 5

/-- u8(v) (00_scope.md R10). -/
def u8 (v : Byte) : Nat := v.toNat

/-- s8(v) (00_scope.md R10). -/
def s8 (v : Byte) : Int := v.toInt

/-- bits8(n) (00_scope.md R10). -/
def bits8 (n : Int) : Byte := BitVec.ofInt 8 n

/-- zext_32 of a byte (30_encoding.md R89). -/
def word8 (v : Byte) : Word := v.setWidth 32

/-- zext_32 of a CRC (30_encoding.md R89). -/
def word16 (v : Half) : Word := v.setWidth 32

/-- zext_32 of a count or a free space (30_encoding.md R89). -/
def wordOfInt (n : Int) : Word := BitVec.ofInt 32 n

/-- crc[15:8] (20_memory.md R62). -/
def crcHi (c : Half) : Byte := c.extractLsb' 8 8

/-- crc[7:0] (20_memory.md R62). -/
def crcLo (c : Half) : Byte := c.extractLsb' 0 8

/-- The received CRC, zext_16(hi) << 8 | zext_16(lo) (20_memory.md R62). -/
def crcOfBytes (hi lo : Byte) : Half := (hi.setWidth 16 <<< 8) ||| lo.setWidth 16

/-- absSpeed (42_frame_link.md R163). -/
def absSpeed (b1 : Byte) : Byte := bits8 |s8 b1|

/-- absAngle under the parameter ABS_ANGLE_MODE (42_frame_link.md R163). -/
def absAngle (m : AbsAngleMode) (b2 : Byte) : Byte :=
  match m with
  | .RAW => bits8 |s8 b2|
  | .OFFSET90 => bits8 |s8 b2 - 90|

/-- ControlValues(b1, b2) (42_frame_link.md R163), packed as 30_encoding.md R97 says. -/
def controlValues (m : AbsAngleMode) (b1 b2 : Byte) : Word :=
  b1 ++ b2 ++ absSpeed b1 ++ absAngle m b2

/-- SpeedSetting, bits [31:24] of a Control Values word (30_encoding.md R97). -/
def speedSetting (w : Word) : Byte := w.extractLsb' 24 8

/-- AngleSetting, bits [23:16] of a Control Values word (30_encoding.md R97). -/
def angleSetting (w : Word) : Byte := w.extractLsb' 16 8

/-- One bit from a level. -/
def bit (level : Bool) : BitVec 1 := BitVec.ofBool level

/-- The encoding of mode (10_state.md R36). -/
def Mode.bit : Mode → BitVec 1
  | .LOCAL => 0#1
  | .REMOTE => 1#1

/-- The status word (30_encoding.md R96), high field first. -/
def statusWord (s : State) : Word :=
  s.tx.count ++ s.rx.count ++ s.silenceCount ++
    (0#2 ++ bit s.frameErrInd ++ bit s.crcErrInd ++ bit s.txIrqEn ++ bit s.ctsIn ++ bit s.rts ++ s.mode.bit)

/-- The encoding of rsp.code (30_encoding.md R88). -/
def RspCode.bits : RspCode → BitVec 2
  | .OK => 0#2
  | .NONE => 1#2
  | .ILLEGAL => 2#2

/-- The output signals of 30_encoding.md R80 other than the event stream tx_wire. -/
structure OutputLines where
  rtsOut : BitVec 1
  txIrqEnOut : BitVec 1
  crcErrIndOut : BitVec 1
  frameErrIndOut : BitVec 1
  rspFCode : BitVec 2
  rspFData : Word
  rspICode : BitVec 2
  rspIData : Word
  deriving DecidableEq, Repr

/-- What the output signals show in a state (30_encoding.md R80). -/
def outputLines (s : State) : OutputLines where
  rtsOut := bit s.rts
  txIrqEnOut := bit s.txIrqEn
  crcErrIndOut := bit s.crcErrInd
  frameErrIndOut := bit s.frameErrInd
  rspFCode := s.rspF.code.bits
  rspFData := s.rspF.data
  rspICode := s.rspI.code.bits
  rspIData := s.rspI.data

end Sys2Proof.Machine
end

