-- ==== Sys2Proof/Machine/Control.lean ====
section
/-! DEFINITION. The control commands (44_control.md) and power-on reset (70_reset_and_hazards.md R270). -/

namespace Sys2Proof.Machine

/-- What INIT writes (44_control.md R220): every element of 10_state.md R31 but the storage arrays. -/
def initialise (s : State) : State :=
  { s with
    rx := s.rx.emptied
    tx := s.tx.emptied
    mode := .LOCAL
    silenceCount := 0#8
    lastRemote := 0#32
    rts := false
    txIrqEn := false
    crcErrInd := false
    frameErrInd := false }

/-- INIT (44_control.md R220). -/
def execInit (s : State) : Host.Outcome State Fault Refusal :=
  onAllowedPort .init s (.next (respond .OK 0#32 (initialise s)))

/-- STATUS (44_control.md R222). -/
def execStatus (s : State) : Host.Outcome State Fault Refusal :=
  onAllowedPort .status s (.next (respond .OK (statusWord s) s))

/-- LAST_REMOTE (44_control.md R224). -/
def execLastRemote (s : State) : Host.Outcome State Fault Refusal :=
  onAllowedPort .lastRemote s (.next (respond .OK s.lastRemote s))

/-- Power-on reset (70_reset_and_hazards.md R270): the elements INIT gives, storage unspecified, tx_wire and the
result stream empty, both results (OK, 0). The inputs and the agents' data are not the core's and stay (log 12). -/
def powerOnReset (s : State) : State :=
  { initialise s with
    rx := Fifo.reset
    tx := Fifo.reset
    txWire := []
    rspF := Response.reset
    rspI := Response.reset
    results := [] }

end Sys2Proof.Machine
end

