-- ==== Sys2Proof/Machine/FifoCommands.lean ====
section
/-! DEFINITION. The eight FIFO commands (40_fifo.md R113 to R120). -/

namespace Sys2Proof.Machine

/-- Put a byte and answer OK or NONE (40_fifo.md R113, R117). -/
def putAndRespond (F : FifoId) (b : Byte) (s : State) : Except Fault State :=
  match fifoPut F b s with
  | .error e => .error e
  | .ok (s1, ok) => .ok (respondIf ok 0#32 s1)

/-- RXF_PUT b (40_fifo.md R113). It does not evaluate rts. -/
def execRxfPut (b : Byte) (s : State) : Host.Outcome State Fault Refusal :=
  onAllowedPort (.rxfPut b) s (finish (putAndRespond .rx b s))

/-- RXF_GET (40_fifo.md R114). -/
def execRxfGet (s : State) : Host.Outcome State Fault Refusal :=
  onAllowedPort .rxfGet s
    (match fifoGet .rx s with
    | .error e => .fault e
    | .ok (v, ok, s1) => .next (respondIf ok (word8 v) s1))

/-- RXF_READ_SIZE (40_fifo.md R115). -/
def execRxfReadSize (s : State) : Host.Outcome State Fault Refusal :=
  onAllowedPort .rxfReadSize s (.next (respond .OK (wordOfInt (readSize .rx s)) s))

/-- RXF_WRITE_SPACE (40_fifo.md R116). -/
def execRxfWriteSpace (s : State) : Host.Outcome State Fault Refusal :=
  onAllowedPort .rxfWriteSpace s (.next (respond .OK (wordOfInt (writeSpace .rx s)) s))

/-- TXF_PUT b (40_fifo.md R117). It does not evaluate tx_irq_en. -/
def execTxfPut (b : Byte) (s : State) : Host.Outcome State Fault Refusal :=
  onAllowedPort (.txfPut b) s (finish (putAndRespond .tx b s))

/-- TXF_GET (40_fifo.md R118): TxEmptyClear on both paths, and the byte does not enter tx_wire. -/
def execTxfGet (s : State) : Host.Outcome State Fault Refusal :=
  onAllowedPort .txfGet s
    (match fifoGet .tx s with
    | .error e => .fault e
    | .ok (v, ok, s1) => .next (respondIf ok (word8 v) (txEmptyClear s1)))

/-- TXF_READ_SIZE (40_fifo.md R119). -/
def execTxfReadSize (s : State) : Host.Outcome State Fault Refusal :=
  onAllowedPort .txfReadSize s (.next (respond .OK (wordOfInt (readSize .tx s)) s))

/-- TXF_WRITE_SPACE (40_fifo.md R120). -/
def execTxfWriteSpace (s : State) : Host.Outcome State Fault Refusal :=
  onAllowedPort .txfWriteSpace s (.next (respond .OK (wordOfInt (writeSpace .tx s)) s))

end Sys2Proof.Machine
end

