-- ==== Sys2Proof/Machine/FlowControl.lean ====
section
/-! DEFINITION. The flow controller's commands and the driver interface (43_flow_control.md). -/

namespace Sys2Proof.Machine

/-- RTS_EVAL (43_flow_control.md R190). -/
def execRtsEval (s : State) : Host.Outcome State Fault Refusal :=
  onAllowedPort .rtsEval s (.next (respond .OK 0#32 (rtsEval s)))

/-- TX_IRQ_EVAL (43_flow_control.md R192). -/
def execTxIrqEval (s : State) : Host.Outcome State Fault Refusal :=
  onAllowedPort .txIrqEval s (.next (respond .OK 0#32 (txIrqEval s)))

/-- HW_RX_BYTE b (43_flow_control.md R195): RtsEval whether or not the byte was stored. -/
def execHwRxByte (b : Byte) (s : State) : Host.Outcome State Fault Refusal :=
  onAllowedPort (.hwRxByte b) s
    (match fifoPut .rx b s with
    | .error e => .fault e
    | .ok (s1, ok) => .next (respondIf ok 0#32 (rtsEval s1)))

/-- The transmit gate: the three conditions of 43_flow_control.md R197. -/
def drainGate (s : State) : Bool :=
  !s.ctsIn && decide (0 < s.tx.count.toNat) && !s.txRegFullIn

/-- Hand a byte to the UART transmit register (43_flow_control.md R197; 10_state.md R44). -/
def sendOnWire (v : Byte) (s : State) : State :=
  { s with txWire := s.txWire ++ [v] }

/-- TX_DRAIN (43_flow_control.md R197): TxEmptyClear on both paths, and tx_irq_en is no condition. -/
def execTxDrain (s : State) : Host.Outcome State Fault Refusal :=
  onAllowedPort .txDrain s
    (if drainGate s then
      match fifoGet .tx s with
      | .error e => .fault e
      | .ok (v, _, s1) => .next (respond .OK (word8 v) (txEmptyClear (sendOnWire v s1)))
    else
      .next (respond .NONE 0#32 (txEmptyClear s)))

end Sys2Proof.Machine
end

