-- ==== Sys2Proof/Machine/Crc.lean ====
section
/-! DEFINITION. The CRC-16 engine (41_crc16.md) and CRC_UPDATE. -/

namespace Sys2Proof.Machine

/-- One of the eight rounds of the MSB-first step (41_crc16.md R142). -/
def crcRoundMsb (poly : Half) (crc : Half) : Half :=
  if crc.getLsbD 15 then (crc <<< 1) ^^^ poly else crc <<< 1

/-- One of the eight rounds of the reflected step (41_crc16.md R143). -/
def crcRoundLsb (poly : Half) (crc : Half) : Half :=
  if crc.getLsbD 0 then (crc >>> 1) ^^^ poly else crc >>> 1

/-- A round applied n times. -/
def rounds (f : Half → Half) : Nat → Half → Half
  | 0, crc => crc
  | n + 1, crc => rounds f n (f crc)

/-- The MSB-first step with a polynomial (41_crc16.md R142). -/
def crcStepMsb (poly : Half) (crc : Half) (b : Byte) : Half :=
  rounds (crcRoundMsb poly) 8 (crc ^^^ (b.setWidth 16 <<< 8))

/-- The reflected step with a reflected polynomial (41_crc16.md R143). -/
def crcStepLsb (poly : Half) (crc : Half) (b : Byte) : Half :=
  rounds (crcRoundLsb poly) 8 (crc ^^^ b.setWidth 16)

/-- CRC_STEP(crc, b) for the parameter's value (41_crc16.md R140, R141; log 4). -/
def crcStep (c : CrcStep) (crc : Half) (b : Byte) : Half :=
  match c with
  | .msbFirst poly => crcStepMsb poly crc b
  | .reflected poly => crcStepLsb poly crc b
  | .table rows => (rows.lookup (crc, b)).getD 0#16

/-- FrameCRC(b0, b1, b2): seed, then start, speed, angle, with no final step (41_crc16.md R145, R146). -/
def frameCrc (c : CrcStep) (b0 b1 b2 : Byte) : Half :=
  crcStep c (crcStep c (crcStep c crcSeed b0) b1) b2

/-- CRC_UPDATE c, b (41_crc16.md R144). -/
def execCrcUpdate (c : Half) (b : Byte) (s : State) : Host.Outcome State Fault Refusal :=
  onAllowedPort (.crcUpdate c b) s
    (.next (respond .OK (word16 (crcStep s.cfg.crcStep c b)) s))

end Sys2Proof.Machine
end

