-- ==== Sys2Proof/Machine/FrameLink.lean ====
section
/-! DEFINITION. The frame codec and the link state machine (42_frame_link.md). -/

namespace Sys2Proof.Machine

/-- A 5-byte window taken from the RX FIFO, in frame order (42_frame_link.md R160 step 2). -/
structure Window where
  start : Byte
  speed : Byte
  angle : Byte
  hi : Byte
  lo : Byte
  deriving DecidableEq, Repr

/-- Step 2 of a poll: five FifoGet, whatever the bytes are (42_frame_link.md R160, R162). -/
def takeWindow (s : State) : Except Fault (Window × State) := do
  let (b0, _, s) ← fifoGet .rx s
  let (b1, _, s) ← fifoGet .rx s
  let (b2, _, s) ← fifoGet .rx s
  let (b3, _, s) ← fifoGet .rx s
  let (b4, _, s) ← fifoGet .rx s
  .ok (⟨b0, b1, b2, b3, b4⟩, s)

/-- The checksum test of a window (30_encoding.md R94; 42_frame_link.md R160 step 4). -/
def checksumOk (c : CrcStep) (w : Window) : Bool :=
  frameCrc c w.start w.speed w.angle == crcOfBytes w.hi w.lo

/-- Steps 3 and 4 of a poll and the valid frame (42_frame_link.md R160): start marker first, then checksum. -/
def judgeWindow (w : Window) (s : State) : State :=
  if w.start ≠ startMarker then
    respond .NONE 0#32 (rtsEval (toggleFrameErr s))
  else if checksumOk s.cfg.crcStep w then
    respond .OK (controlValues s.cfg.absAngleMode w.speed w.angle)
      (rtsEval (acceptFrame (controlValues s.cfg.absAngleMode w.speed w.angle) s))
  else
    respond .NONE 0#32 (rtsEval (toggleCrcErr s))

/-- TRY_RECEIVE_FRAME (42_frame_link.md R160). -/
def execTryReceiveFrame (s : State) : Host.Outcome State Fault Refusal :=
  onAllowedPort .tryReceiveFrame s
    (if readSize .rx s < frameLength then
      .next (respond .NONE 0#32 (rtsEval (pollOfSilence s)))
    else
      match takeWindow s with
      | .error e => .fault e
      | .ok (w, s1) => .next (judgeWindow w s1))

/-- The five bytes of a frame, in frame order (30_encoding.md R93). -/
def frameBytes (c : CrcStep) (speed angle : Byte) : List Byte :=
  let crc := frameCrc c startMarker speed angle
  [startMarker, speed, angle, crcHi crc, crcLo crc]

/-- BUILD_AND_ENQUEUE_FRAME s, a (42_frame_link.md R170): TxIrqEval on both paths. -/
def execBuildAndEnqueueFrame (speed angle : Byte) (s : State) : Host.Outcome State Fault Refusal :=
  onAllowedPort (.buildAndEnqueueFrame speed angle) s
    (if writeSpace .tx s < (frameLength : Int) then
      .next (respond .NONE 0#32 (txIrqEval s))
    else
      match fifoPutAll .tx (frameBytes s.cfg.crcStep speed angle) s with
      | .error e => .fault e
      | .ok s1 => .next (respond .OK 0#32 (txIrqEval s1)))

end Sys2Proof.Machine
end

