-- ==== Sys2Proof/Machine/Dispatch.lean ====
section
/-! DEFINITION. One arm per command of the opcode map (30_encoding.md R87). -/

namespace Sys2Proof.Machine

def exec (i : Instr) (s : State) : Host.Outcome State Fault Refusal :=
  match i with
  | .init => Sys2Proof.Machine.execInit s
  | .status => Sys2Proof.Machine.execStatus s
  | .lastRemote => Sys2Proof.Machine.execLastRemote s
  | .rxfPut b => Sys2Proof.Machine.execRxfPut b s
  | .rxfGet => Sys2Proof.Machine.execRxfGet s
  | .rxfReadSize => Sys2Proof.Machine.execRxfReadSize s
  | .rxfWriteSpace => Sys2Proof.Machine.execRxfWriteSpace s
  | .txfPut b => Sys2Proof.Machine.execTxfPut b s
  | .txfGet => Sys2Proof.Machine.execTxfGet s
  | .txfReadSize => Sys2Proof.Machine.execTxfReadSize s
  | .txfWriteSpace => Sys2Proof.Machine.execTxfWriteSpace s
  | .crcUpdate c b => Sys2Proof.Machine.execCrcUpdate c b s
  | .tryReceiveFrame => Sys2Proof.Machine.execTryReceiveFrame s
  | .buildAndEnqueueFrame sp an => Sys2Proof.Machine.execBuildAndEnqueueFrame sp an s
  | .rtsEval => Sys2Proof.Machine.execRtsEval s
  | .txIrqEval => Sys2Proof.Machine.execTxIrqEval s
  | .hwRxByte b => Sys2Proof.Machine.execHwRxByte b s
  | .txDrain => Sys2Proof.Machine.execTxDrain s

end Sys2Proof.Machine
end

