-- ==== Sys2Proof/Machine/Ports.lean ====
section
/-! DEFINITION. How a command comes to run: the two command ports and the turns of the outside world
(30_encoding.md R80; 20_memory.md R64, R65; 10_state.md R40; log 1, log 2). -/

namespace Sys2Proof.Machine

/-- The words an agent has still to issue on its port (log 1). -/
def State.pending (s : State) : Port → List Word
  | .F => s.cmdF
  | .I => s.cmdI

/-- Write an agent's words. -/
def State.setPending (s : State) (p : Port) (ws : List Word) : State :=
  { s with
    cmdF := match p with
      | .F => ws
      | .I => s.cmdF
    cmdI := match p with
      | .F => s.cmdI
      | .I => ws }

/-- One command word on the issuing port: decode first (60_exceptions.md R243), an illegal word raises
IllegalCommand (30_encoding.md R90; 60_exceptions.md R240). -/
def runWord (w : Word) (s : State) : Host.Outcome State Fault Refusal :=
  match decode w with
  | .ok i => exec i s
  | .error _ => .next (raiseIllegalCommand s)

/-- An agent's turn: it issues the next word of its sequence (20_memory.md R65). An agent with nothing to
issue does nothing (log 2). -/
def issueNext (p : Port) (s : State) : Host.Outcome State Fault Refusal :=
  match s.pending p with
  | [] => .next s
  | w :: ws => runWord w { s.setPending p ws with port := p }

/-- One turn of the outside world. -/
def takeTurn (t : Turn) (s : State) : Host.Outcome State Fault Refusal :=
  match t with
  | .issue p => issueNext p s
  | .setCtsIn level => .next { s with ctsIn := level }
  | .setTxRegFullIn level => .next { s with txRegFullIn := level }
  | .powerOn => .next (powerOnReset s)

/-- One step: the first turn of the schedule is taken. With no turn left nothing happens (log 2). -/
def advanceSchedule (s : State) : Host.Outcome State Fault Refusal :=
  match s.schedule with
  | [] => .next s
  | t :: ts => takeTurn t { s with schedule := ts }

/-- The port on which a bare word is placed: F where the word's row allows F or the word is illegal, else I (log 15). -/
def portForWord (w : Word) : Port :=
  match decode w with
  | .ok i => if allowedOn i .F then .F else .I
  | .error _ => .F

/-- Put a word in front of a port's sequence and that port's turn in front of the schedule (log 15). -/
def placeCommand (p : Port) (w : Word) (s : State) : State :=
  { s.setPending p (w :: s.pending p) with schedule := .issue p :: s.schedule }

end Sys2Proof.Machine
end

