-- ==== Sys2Proof/WellFormed.lean ====
section
/-! DEFINITION. What the spec calls well formed: a configuration (00_scope.md R7, R9) and a command issued
on a port of its role (20_memory.md R66). A command by itself has no further check: every operand is a
raw field of exactly its width, and every value of it is legal (30_encoding.md R86, R95). -/

namespace Sys2Proof

/-- The constraints of 00_scope.md R9 with the upper bounds of R7's legal values.
A configuration that breaks one is not a configuration of this core. -/
abbrev Config.WellFormed (c : Config) : Prop :=
  c.rtsStop < c.rtsStart ∧ c.rtsStart ≤ c.rxCap ∧
  5 ≤ c.rxCap ∧ c.rxCap ≤ 255 ∧
  5 ≤ c.txCap ∧ c.txCap ≤ 255 ∧
  1 ≤ c.silenceCeil ∧ c.silenceCeil ≤ 255

/-- A command issued on a port (30_encoding.md R80). -/
structure Issue where
  port : Port
  instr : Instr
  deriving DecidableEq, Repr

/-- The role separation of 20_memory.md R66: the command's row lists the port. -/
abbrev Issue.WellFormed (c : Issue) : Prop := allowedOn c.instr c.port = true

/-- A well-formed program of this core: every command is issued on a port of its role (20_memory.md R66). -/
abbrev programWellFormed (p : List Issue) : Prop := ∀ c ∈ p, c.WellFormed

end Sys2Proof
end

