-- ==== Sys2Proof/Machine/Step.lean ====
section
/-! DEFINITION. The step (20_memory.md R64: one command per step). -/

namespace Sys2Proof.Machine

/-- One step. A configuration that breaks 00_scope.md R9 is refused, as that rule says (log 7). -/
def step (s : State) : Host.Outcome State Fault Refusal :=
  if s.cfg.WellFormed then advanceSchedule s else .refused .illegalConfiguration

/-- The state s with the command word w as the very next command (log 15). -/
def State.withFetchWord (s : State) (nbits w : Nat) : State :=
  let word : Word := BitVec.ofNat 32 (w % 2 ^ nbits)
  placeCommand (portForWord word) word s

end Sys2Proof.Machine
end

