-- ==== Sys2Proof/Machine/Assembly.lean ====
section
/-! DEFINITION. The assembly syntax of 30_encoding.md R92: one command per line, an optional port prefix, and
a comment after a semicolon. What R92 leaves open of the text (the sign of a decimal, blanks, the case of
hexadecimal digits, the order of the checks) is log 16. A line is a list of characters. -/

namespace Sys2Proof.Machine

/-- Why a line is no command of R92. -/
inductive AsmError where
  | unknownMnemonic
  | wrongOperandCount
  | malformedOperand
  /-- A decimal outside the operand's range (R92). -/
  | operandOutOfRange
  deriving DecidableEq, Repr

/-- An operand as written (30_encoding.md R92). -/
inductive AsmOperand where
  /-- A signed decimal. -/
  | dec (n : Int)
  /-- A hexadecimal byte 0xHH. -/
  | hexByte (v : Byte)
  /-- A hexadecimal half-word 0xHHHH. -/
  | hexHalf (v : Half)
  deriving DecidableEq, Repr

/-- A line: the agent its prefix names, if it has one, and the command. -/
structure AsmLine where
  port : Option Port
  instr : Instr
  deriving DecidableEq, Repr

/-- The digits of R92's hexadecimal operands, each at its value; the first ten are the decimal ones. -/
def digitRow : List Char := "0123456789ABCDEF".toList

/-- The value of a digit, either case (log 16). A character that is no digit has 16, more than any digit. -/
def digitValue (c : Char) : Nat := digitRow.idxOf c.toUpper

/-- The number that digits of a base write, most significant first; none if one is no digit of that base. -/
def numberOf (base : Nat) (cs : List Char) : Option Nat :=
  if cs.all (digitValue · < base) then some (cs.foldl (fun n c => n * base + digitValue c) 0) else none

/-- Digits as an operand, or no operand at all. -/
def operandOf (base : Nat) (cs : List Char) (mk : Nat → AsmOperand) : Except AsmError AsmOperand :=
  ((numberOf base cs).map mk).elim (.error .malformedOperand) .ok

/-- A decimal's digits, at least one (30_encoding.md R92). -/
def decimalOf (cs : List Char) (mk : Nat → AsmOperand) : Except AsmError AsmOperand :=
  if cs.isEmpty then .error .malformedOperand else operandOf 10 cs mk

/-- An operand's text: 0xHH, 0xHHHH, or a signed decimal (30_encoding.md R92). DESIGN CHOICE (log 16): R92 says only
"signed decimal", and the model takes an optional minus sign and then digits, so that a leading plus sign, as in +5, is
malformed, and leading zeros and -0 are accepted. -/
def parseOperand (cs : List Char) : Except AsmError AsmOperand :=
  match cs with
  | ['0', 'x', h, l] => operandOf 16 [h, l] fun n => .hexByte (BitVec.ofNat 8 n)
  | ['0', 'x', h, g, f, l] => operandOf 16 [h, g, f, l] fun n => .hexHalf (BitVec.ofNat 16 n)
  | '-' :: ds => decimalOf ds fun n => .dec (-(n : Int))
  | ds => decimalOf ds fun n => .dec (n : Int)

/-- A byte operand. A decimal is in -128..127; the operand b also takes 128..255 (30_encoding.md R92). -/
def byteOperand (isB : Bool) (o : AsmOperand) : Except AsmError Byte :=
  match o with
  | .hexByte v => .ok v
  | .hexHalf _ => .error .malformedOperand
  | .dec n =>
    if -128 ≤ n ∧ n ≤ (if isB then 255 else 127) then .ok (bits8 n) else .error .operandOutOfRange

/-- The operand c, a hexadecimal half-word (30_encoding.md R92). -/
def halfOperand (o : AsmOperand) : Except AsmError Half :=
  match o with
  | .hexHalf v => .ok v
  | _ => .error .malformedOperand

/-- The mnemonic of a command (30_encoding.md R87). -/
def mnemonicOf : Instr → String
  | .init => "INIT"
  | .status => "STATUS"
  | .lastRemote => "LAST_REMOTE"
  | .rxfPut _ => "RXF_PUT"
  | .rxfGet => "RXF_GET"
  | .rxfReadSize => "RXF_READ_SIZE"
  | .rxfWriteSpace => "RXF_WRITE_SPACE"
  | .txfPut _ => "TXF_PUT"
  | .txfGet => "TXF_GET"
  | .txfReadSize => "TXF_READ_SIZE"
  | .txfWriteSpace => "TXF_WRITE_SPACE"
  | .crcUpdate _ _ => "CRC_UPDATE"
  | .tryReceiveFrame => "TRY_RECEIVE_FRAME"
  | .buildAndEnqueueFrame _ _ => "BUILD_AND_ENQUEUE_FRAME"
  | .rtsEval => "RTS_EVAL"
  | .txIrqEval => "TX_IRQ_EVAL"
  | .hwRxByte _ => "HW_RX_BYTE"
  | .txDrain => "TX_DRAIN"

/-- The operands of a command, in the order of R92, in hexadecimal. -/
def operandsOf : Instr → List AsmOperand
  | .rxfPut b => [.hexByte b]
  | .txfPut b => [.hexByte b]
  | .hwRxByte b => [.hexByte b]
  | .crcUpdate c b => [.hexHalf c, .hexByte b]
  | .buildAndEnqueueFrame s a => [.hexByte s, .hexByte a]
  | .init | .status | .lastRemote | .rxfGet | .rxfReadSize | .rxfWriteSpace | .txfGet | .txfReadSize
  | .txfWriteSpace | .tryReceiveFrame | .rtsEval | .txIrqEval | .txDrain => []

/-- One command of each row, operands zero: where a mnemonic leads. -/
def instrTemplates : List Instr :=
  [ .init, .status, .lastRemote, .rxfPut 0, .rxfGet, .rxfReadSize, .rxfWriteSpace, .txfPut 0, .txfGet,
    .txfReadSize, .txfWriteSpace, .crcUpdate 0 0, .tryReceiveFrame, .buildAndEnqueueFrame 0 0, .rtsEval,
    .txIrqEval, .hwRxByte 0, .txDrain ]

/-- Format B: one operand b. -/
def assembleB (build : Byte → Instr) (ops : List AsmOperand) : Except AsmError Instr :=
  match ops with
  | [o] => (byteOperand true o).map build
  | _ => .error .wrongOperandCount

/-- A row's template with the operands written (30_encoding.md R92). -/
def withOperands (i : Instr) (ops : List AsmOperand) : Except AsmError Instr :=
  match i with
  | .rxfPut _ => assembleB .rxfPut ops
  | .txfPut _ => assembleB .txfPut ops
  | .hwRxByte _ => assembleB .hwRxByte ops
  | .crcUpdate _ _ =>
    match ops with
    | [c, b] =>
      match halfOperand c, byteOperand true b with
      | .ok c, .ok b => .ok (.crcUpdate c b)
      | .error e, _ => .error e
      | _, .error e => .error e
    | _ => .error .wrongOperandCount
  | .buildAndEnqueueFrame _ _ =>
    match ops with
    | [s, a] =>
      match byteOperand false s, byteOperand false a with
      | .ok s, .ok a => .ok (.buildAndEnqueueFrame s a)
      | .error e, _ => .error e
      | _, .error e => .error e
    | _ => .error .wrongOperandCount
  | .init | .status | .lastRemote | .rxfGet | .rxfReadSize | .rxfWriteSpace | .txfGet | .txfReadSize
  | .txfWriteSpace | .tryReceiveFrame | .rtsEval | .txIrqEval | .txDrain =>
    match ops with
    | [] => .ok i
    | _ => .error .wrongOperandCount

/-- A mnemonic with its operands (30_encoding.md R92). -/
def assemble (mnemonic : List Char) (ops : List AsmOperand) : Except AsmError Instr :=
  match instrTemplates.find? (fun i => (mnemonicOf i).toList == mnemonic) with
  | some i => withOperands i ops
  | none => .error .unknownMnemonic

/-- A blank: a space or a tab (log 16). -/
def isBlank (c : Char) : Bool := c == ' ' || c == '\t'

/-- Text without the blanks at both ends. -/
def trim (cs : List Char) : List Char := ((cs.dropWhile isBlank).reverse.dropWhile isBlank).reverse

/-- Text cut at every comma (log 16). -/
def splitCommas : List Char → List (List Char)
  | [] => [[]]
  | c :: cs =>
    match splitCommas cs with
    | [] => [[c]]
    | t :: ts => if c = ',' then [] :: t :: ts else (c :: t) :: ts

/-- The operands' texts, read in order. -/
def parseOperands : List (List Char) → Except AsmError (List AsmOperand)
  | [] => .ok []
  | t :: ts =>
    match parseOperand (trim t), parseOperands ts with
    | .ok o, .ok os => .ok (o :: os)
    | .error e, _ => .error e
    | _, .error e => .error e

/-- A mnemonic and its operands as text: the name ends at the first blank (log 16). -/
def assembleBody (cs : List Char) : Except AsmError Instr :=
  let name := cs.takeWhile (fun c => !isBlank c)
  let rest := trim (cs.drop name.length)
  match (if rest = [] then .ok [] else parseOperands (splitCommas rest)) with
  | .ok ops => assemble name ops
  | .error e => .error e

/-- One line of R92: nothing for a line of blanks and comment only (log 16). -/
def assembleLine (line : List Char) : Except AsmError (Option AsmLine) :=
  match trim (line.takeWhile (fun c => c != ';')) with
  | [] => .ok none
  | 'F' :: ':' :: cs => (assembleBody (trim cs)).map fun i => some ⟨some .F, i⟩
  | 'I' :: ':' :: cs => (assembleBody (trim cs)).map fun i => some ⟨some .I, i⟩
  | cs => (assembleBody cs).map fun i => some ⟨none, i⟩

end Sys2Proof.Machine
end

