-- ==== Sys2Proof/Safety.lean ====
section
/-! DEFINITION. The terms claims use: the bytes a FIFO stores (10_state.md R33), the elements of R31 as one value,
the invariant of the machine, states that no command can tell apart (R35), and a command repeated. -/

namespace Sys2Proof.Machine

/-- The bytes F stores, oldest first: F.buf[(F.rd + k) mod CAP] for k < F.count (10_state.md R33). -/
def State.contents (s : State) (F : FifoId) : List Byte :=
  (List.range (readSize F s)).map fun k => s.byteAt F (((s.fifo F).rd.toNat + k) % s.cap F)

/-- The elements of 10_state.md R31. -/
structure Elements where
  rx : Fifo
  tx : Fifo
  mode : Mode
  silenceCount : Byte
  lastRemote : Word
  rts : Bool
  txIrqEn : Bool
  crcErrInd : Bool
  frameErrInd : Bool
  deriving DecidableEq, Repr

/-- The elements of 10_state.md R31 in a state. -/
def State.elements (s : State) : Elements where
  rx := s.rx
  tx := s.tx
  mode := s.mode
  silenceCount := s.silenceCount
  lastRemote := s.lastRemote
  rts := s.rts
  txIrqEn := s.txIrqEn
  crcErrInd := s.crcErrInd
  frameErrInd := s.frameErrInd

/-- The last result of a port in a result stream; (OK, 0) before the port's first command
(70_reset_and_hazards.md R270). -/
def lastResultOn (p : Port) (l : List (Port × Response)) : Response :=
  l.foldl (fun r x => if x.1 = p then x.2 else r) Response.reset

/-- A FIFO is as 10_state.md R31 and R33 say: count and cursors in range, the write cursor where the read cursor
and the count put it, the storage canonical and inside its CAP bytes, and every stored byte one that was put (R34). -/
structure State.FifoOk (s : State) (F : FifoId) : Prop where
  count_le : readSize F s ≤ s.cap F
  rd_lt : (s.fifo F).rd.toNat < s.cap F
  wr_eq : (s.fifo F).wr.toNat = ((s.fifo F).rd.toNat + readSize F s) % s.cap F
  storage_wf : (s.fifo F).buf.wf
  storage_lt : ∀ c ∈ (s.fifo F).buf, c.1 < s.cap F
  stored_put : ∀ k < readSize F s, ∃ v, (s.fifo F).buf.read? (((s.fifo F).rd.toNat + k) % s.cap F) = some v

/-- The invariant: the parameters are legal (00_scope.md R9), both FIFOs are as R33 says, silence_count is at most
its ceiling and below it in REMOTE (42_frame_link.md R167), tx_irq_en = 1 only with bytes queued
(43_flow_control.md R194), frame_err_ind stays 0 where START_ERR_TOGGLE = false (10_state.md R43), and each port
shows the last result of its stream (30_encoding.md R88). -/
structure State.Inv (s : State) : Prop where
  legal : s.cfg.WellFormed
  fifo_ok : ∀ F, s.FifoOk F
  silence_le : s.silenceCount.toNat ≤ s.cfg.silenceCeil
  remote_below : s.mode = .REMOTE → s.silenceCount.toNat < s.cfg.silenceCeil
  irq_queued : s.txIrqEn = true → 0 < readSize .tx s
  frame_ind_zero : s.cfg.startErrToggle = false → s.frameErrInd = false
  results_agree : ∀ p, s.rsp p = lastResultOn p s.results

/-- Two states that differ only in their FIFOs' cursors and storage, with the same bytes stored (10_state.md R35). -/
def State.SameToCommands (s t : State) : Prop :=
  { s with rx := t.rx, tx := t.tx } = t ∧ ∀ F, s.contents F = t.contents F

/-- The command that led from s to t answered (c, d) on its port, and left the other port's result alone
(30_encoding.md R88). -/
def State.Answers (s t : State) (c : RspCode) (d : Word) : Prop :=
  t.rsp s.port = ⟨c, d⟩ ∧ (∀ q, q ≠ s.port → t.rsp q = s.rsp q) ∧
    t.results = s.results ++ [(s.port, ⟨c, d⟩)]

/-- Nothing but results differs between s and t: the frame of a command without another effect. -/
def State.OnlyResult (s t : State) : Prop :=
  t = { s with rspF := t.rspF, rspI := t.rspI, results := t.results }

/-- The bytes of a FIFO's storage are the same in s and t, read one by one. -/
def State.SameBytes (s t : State) : Prop := ∀ F a, t.byteAt F a = s.byteAt F a

/-- A command executed n times in a row on the port the state holds. -/
def execTimes (i : Instr) : Nat → State → Host.Outcome State Fault Refusal
  | 0, s => .next s
  | n + 1, s =>
    match exec i s with
    | .next s1 => execTimes i n s1
    | .fault e => .fault e
    | .refused r => .refused r

/-- Bytes handed to HW_RX_BYTE one after the other (43_flow_control.md R195). -/
def receiveAll : List Byte → State → Host.Outcome State Fault Refusal
  | [], s => .next s
  | b :: bs, s =>
    match exec (.hwRxByte b) s with
    | .next s1 => receiveAll bs s1
    | .fault e => .fault e
    | .refused r => .refused r

/-- The values of rts after each of a row of evaluations at the given free spaces (43_flow_control.md R191). -/
def rtsTrace (c : Config) (rts : Bool) : List Int → List Bool
  | [] => []
  | ws :: l => rtsNext c ws rts :: rtsTrace c (rtsNext c ws rts) l

/-- How often a row of levels changes, from a level before it. -/
def changes (before : Bool) : List Bool → Nat
  | [] => 0
  | x :: l => (if x = before then 0 else 1) + changes x l

end Sys2Proof.Machine
end

