-- ==== Sys2Proof/Certificates/Slice0/Obligations.lean ====
section
/-! DEFINITION. The statements about the core, from the spec's rules. OBLIGATIONS.json says of each which rule it
states or which sections it is derived from. -/

open Sys2Proof Sys2Proof.Machine

/-! ### Encoding -/

/-- Decoding the word of a command gives the command back, with every operand (30_encoding.md R81 to R91). -/
def Obligations.DecodeOfEncode : Prop :=
  ∀ i : Instr, decode (encode i) = .ok i

/-- A word that decodes is the word of the command it decodes to: each legal word has one meaning (R81 to R91). -/
def Obligations.EncodeOfDecode : Prop :=
  ∀ (w : Word) (i : Instr), decode w = .ok i → encode i = w

/-- The opcode map of R87 row by row: a word that selects a row decodes to its command, with the operands of R82
to R85, and a word that selects none decodes to nothing. -/
def Obligations.OpcodeMapRows : Prop :=
  (∀ w : Word,
    (w = 0x01000000#32 → decode w = .ok .init) ∧
    (w = 0x02000000#32 → decode w = .ok .status) ∧
    (w = 0x03000000#32 → decode w = .ok .lastRemote) ∧
    (w &&& 0xFFFFFF00#32 = 0x10000000#32 → decode w = .ok (.rxfPut (w.extractLsb' 0 8))) ∧
    (w = 0x11000000#32 → decode w = .ok .rxfGet) ∧
    (w = 0x12000000#32 → decode w = .ok .rxfReadSize) ∧
    (w = 0x13000000#32 → decode w = .ok .rxfWriteSpace) ∧
    (w &&& 0xFFFFFF00#32 = 0x18000000#32 → decode w = .ok (.txfPut (w.extractLsb' 0 8))) ∧
    (w = 0x19000000#32 → decode w = .ok .txfGet) ∧
    (w = 0x1A000000#32 → decode w = .ok .txfReadSize) ∧
    (w = 0x1B000000#32 → decode w = .ok .txfWriteSpace) ∧
    (w &&& 0xFF000000#32 = 0x20000000#32 →
      decode w = .ok (.crcUpdate (w.extractLsb' 8 16) (w.extractLsb' 0 8))) ∧
    (w = 0x30000000#32 → decode w = .ok .tryReceiveFrame) ∧
    (w &&& 0xFFFF0000#32 = 0x31000000#32 →
      decode w = .ok (.buildAndEnqueueFrame (w.extractLsb' 8 8) (w.extractLsb' 0 8))) ∧
    (w = 0x40000000#32 → decode w = .ok .rtsEval) ∧
    (w = 0x41000000#32 → decode w = .ok .txIrqEval) ∧
    (w &&& 0xFFFFFF00#32 = 0x48000000#32 → decode w = .ok (.hwRxByte (w.extractLsb' 0 8))) ∧
    (w = 0x49000000#32 → decode w = .ok .txDrain)) ∧
  (∀ w : Word,
    (∀ op ∈ [0x01#8, 0x02#8, 0x03#8, 0x11#8, 0x12#8, 0x13#8, 0x19#8, 0x1A#8, 0x1B#8, 0x30#8, 0x40#8, 0x41#8, 0x49#8],
      ¬ (w.extractLsb' 24 8 = op ∧ w.extractLsb' 0 24 = 0#24)) →
    (∀ op ∈ [0x10#8, 0x18#8, 0x48#8], ¬ (w.extractLsb' 24 8 = op ∧ w.extractLsb' 8 16 = 0#16)) →
    ¬ (w.extractLsb' 24 8 = 0x31#8 ∧ w.extractLsb' 16 8 = 0#8) →
    w.extractLsb' 24 8 ≠ 0x20#8 →
    ∃ e, decode w = .error e)

/-- Words written out from the encodings, one of each format and family, and three illegal ones (R82 to R90). -/
def Obligations.WrittenOutWordsDecode : Prop :=
  decode 0x02000000#32 = .ok .status ∧
  decode 0x100000AA#32 = .ok (.rxfPut 0xAA#8) ∧
  decode 0x19000000#32 = .ok .txfGet ∧
  decode 0x20F55005#32 = .ok (.crcUpdate 0xF550#16 0x05#8) ∧
  decode 0x3100EC2D#32 = .ok (.buildAndEnqueueFrame 0xEC#8 0x2D#8) ∧
  decode 0x48000002#32 = .ok (.hwRxByte 0x02#8) ∧
  decode 0x00000000#32 = .error (.unassignedOpcode 0x00#8) ∧
  decode 0x01000001#32 = .error (.reservedBits 0x01#8) ∧
  decode 0x3101055A#32 = .error (.reservedBits 0x31#8)

/-- Assembling a command's mnemonic with its operands in hexadecimal gives the command (R92). -/
def Obligations.AssembleOfOperands : Prop :=
  ∀ i : Instr, assemble (mnemonicOf i).toList (operandsOf i) = .ok i

/-- A decimal operand: -128..127 stands for bits8(n) whose s8 is n, 128..255 is taken for b only, and a decimal
outside -128..255 is an assembly error (R92). -/
def Obligations.DecimalOperandRange : Prop :=
  ∀ n : Int,
    (-128 ≤ n ∧ n ≤ 127 → ∀ isB, ∃ v, byteOperand isB (.dec n) = .ok v ∧ v.toInt = n) ∧
    (128 ≤ n ∧ n ≤ 255 → (∃ v, byteOperand true (.dec n) = .ok v ∧ (v.toNat : Int) = n) ∧
      byteOperand false (.dec n) = .error .operandOutOfRange) ∧
    (n < -128 ∨ 255 < n → ∀ isB, byteOperand isB (.dec n) = .error .operandOutOfRange)

/-! ### Steps, ports and the exception -/

/-- When a port's turn comes and its next word decodes to a command, the step is that command executed on that
port, its word and the turn consumed (20_memory.md R64, R65; log 1). -/
def Obligations.StepRunsDecodedCommand : Prop :=
  ∀ (s : State) (p : Port) (w : Word) (ws : List Word) (ts : List Turn) (i : Instr),
    s.cfg.WellFormed → s.schedule = .issue p :: ts → s.pending p = w :: ws → decode w = .ok i →
    step s = exec i { s.setPending p ws with schedule := ts, port := p }

/-- The other turns of the model (log 1, log 2, log 12): an input changes, power is applied, an agent has nothing
to issue, no turn is left. -/
def Obligations.OtherTurns : Prop :=
  ∀ (s : State) (ts : List Turn), s.cfg.WellFormed →
    (∀ v, s.schedule = .setCtsIn v :: ts → step s = .next { s with ctsIn := v, schedule := ts }) ∧
    (∀ v, s.schedule = .setTxRegFullIn v :: ts → step s = .next { s with txRegFullIn := v, schedule := ts }) ∧
    (s.schedule = .powerOn :: ts → step s = .next (powerOnReset { s with schedule := ts })) ∧
    (∀ p, s.schedule = .issue p :: ts → s.pending p = [] → step s = .next { s with schedule := ts }) ∧
    (s.schedule = [] → step s = .next s)

/-- A step is refused exactly when the parameters break R9 or an upper bound of R7's legal values (00_scope.md section 4).
That the refusal comes at every step and covers the upper bounds is the model's reading (log 7, DEDUCED). -/
def Obligations.IllegalConfigurationRefused : Prop :=
  ∀ s : State, step s = .refused .illegalConfiguration ↔
    ¬ (s.cfg.rtsStop < s.cfg.rtsStart ∧ s.cfg.rtsStart ≤ s.cfg.rxCap ∧
       5 ≤ s.cfg.rxCap ∧ s.cfg.rxCap ≤ 255 ∧ 5 ≤ s.cfg.txCap ∧ s.cfg.txCap ≤ 255 ∧
       1 ≤ s.cfg.silenceCeil ∧ s.cfg.silenceCeil ≤ 255)

/-- IllegalCommand (R240): a word that selects no row of R87 changes no element and no tx_wire, answers (ILLEGAL, 0)
on the issuing port, is not kept, and leaves the rest of both agents' commands to execute. -/
def Obligations.IllegalWordRaisesIllegalCommand : Prop :=
  ∀ (s : State) (p : Port) (w : Word) (ws : List Word) (ts : List Turn),
    s.cfg.WellFormed → s.schedule = .issue p :: ts → s.pending p = w :: ws →
    (∀ r ∈ [(0x01000000#32, 0xFFFFFFFF#32), (0x02000000#32, 0xFFFFFFFF#32), (0x03000000#32, 0xFFFFFFFF#32),
            (0x10000000#32, 0xFFFFFF00#32), (0x11000000#32, 0xFFFFFFFF#32), (0x12000000#32, 0xFFFFFFFF#32),
            (0x13000000#32, 0xFFFFFFFF#32), (0x18000000#32, 0xFFFFFF00#32), (0x19000000#32, 0xFFFFFFFF#32),
            (0x1A000000#32, 0xFFFFFFFF#32), (0x1B000000#32, 0xFFFFFFFF#32), (0x20000000#32, 0xFF000000#32),
            (0x30000000#32, 0xFFFFFFFF#32), (0x31000000#32, 0xFFFF0000#32), (0x40000000#32, 0xFFFFFFFF#32),
            (0x41000000#32, 0xFFFFFFFF#32), (0x48000000#32, 0xFFFFFF00#32), (0x49000000#32, 0xFFFFFFFF#32)],
      w &&& r.2 ≠ r.1) →
    ∃ t, step s = .next t ∧ t.elements = s.elements ∧ t.txWire = s.txWire ∧
      t.rsp p = ⟨.ILLEGAL, 0#32⟩ ∧ (∀ q, q ≠ p → t.rsp q = s.rsp q) ∧
      t = { s with cmdF := t.cmdF, cmdI := t.cmdI, schedule := ts, port := p,
                   rspF := t.rspF, rspI := t.rspI, results := t.results } ∧
      t.pending p = ws ∧ (∀ q, q ≠ p → t.pending q = s.pending q)

/-- A command on a port its row does not allow raises IllegalCommand and has no effect (R241). -/
def Obligations.WrongPortRaisesIllegalCommand : Prop :=
  ∀ (i : Instr) (s : State),
    ((s.port = .F ∧ ((∃ b, i = .rxfPut b) ∨ i = .txfGet ∨ (∃ b, i = .hwRxByte b) ∨ i = .txDrain)) ∨
     (s.port = .I ∧ (i = .init ∨ i = .lastRemote ∨ i = .rxfGet ∨ (∃ b, i = .txfPut b) ∨
        (∃ c b, i = .crcUpdate c b) ∨ i = .tryReceiveFrame ∨ (∃ x y, i = .buildAndEnqueueFrame x y)))) →
    ∃ t, exec i s = .next t ∧ s.OnlyResult t ∧ s.Answers t .ILLEGAL 0#32

/-- A command answers ILLEGAL only where its role is broken (R88, R250). -/
def Obligations.AllowedCommandNeverIllegal : Prop :=
  ∀ (i : Instr) (s t : State), exec i s = .next t →
    ((t.rsp s.port).code = .ILLEGAL ↔ allowedOn i s.port = false)

/-- Every executed command answers on its own port, adds exactly one result to the stream, and leaves the other
port's result, the parameters, the inputs and both agents' sequences alone (R88, 10_state.md R44). -/
def Obligations.EveryCommandAnswersOnce : Prop :=
  ∀ (i : Instr) (s t : State), exec i s = .next t →
    (∃ r, t.rsp s.port = r ∧ t.results = s.results ++ [(s.port, r)]) ∧
    (∀ q, q ≠ s.port → t.rsp q = s.rsp q) ∧
    t.cfg = s.cfg ∧ t.ctsIn = s.ctsIn ∧ t.txRegFullIn = s.txRegFullIn ∧ t.cmdF = s.cmdF ∧ t.cmdI = s.cmdI ∧
    t.schedule = s.schedule ∧ t.port = s.port

/-! ### Reset and control -/

/-- Power-on reset (70_reset_and_hazards.md section 1), for every instance and from every state. R270 leaves the storage
contents unspecified: the clauses rx.buf = [] and tx.buf = [] say that every byte is then unwritten, a free value, which is
the model's choice (logs 5 and 12, DESIGN CHOICE). -/
def Obligations.PowerOnResetValues : Prop :=
  ∀ (c : Config) (s t : State), t = State.resetWith c ∨ t = powerOnReset s →
    t.rx.count = 0#8 ∧ t.rx.rd = 0#8 ∧ t.rx.wr = 0#8 ∧ t.rx.buf = [] ∧
    t.tx.count = 0#8 ∧ t.tx.rd = 0#8 ∧ t.tx.wr = 0#8 ∧ t.tx.buf = [] ∧
    t.mode = .LOCAL ∧ t.silenceCount = 0#8 ∧ t.lastRemote = 0#32 ∧ t.rts = false ∧ t.txIrqEn = false ∧
    t.crcErrInd = false ∧ t.frameErrInd = false ∧ t.txWire = [] ∧
    t.rsp .F = ⟨.OK, 0#32⟩ ∧ t.rsp .I = ⟨.OK, 0#32⟩

/-- INIT (R220): every element but the storage at its reset value, tx_wire and port I's result as they were, OK;
STATUS would then read 0 or 4, and an evaluation of rts (with RTS_START at most RX_CAP) or of tx_irq_en leaves it 0;
on port I, and with a payload bit set, IllegalCommand. -/
def Obligations.InitCommand : Prop :=
  (∀ s : State, s.port = .F → ∃ t, exec .init s = .next t ∧
    t = { s with rx := t.rx, tx := t.tx, mode := .LOCAL, silenceCount := 0#8, lastRemote := 0#32, rts := false,
                 txIrqEn := false, crcErrInd := false, frameErrInd := false, rspF := ⟨.OK, 0#32⟩,
                 results := s.results ++ [(.F, ⟨.OK, 0#32⟩)] } ∧
    t.rx = { s.rx with rd := 0#8, wr := 0#8, count := 0#8 } ∧
    t.tx = { s.tx with rd := 0#8, wr := 0#8, count := 0#8 } ∧
    s.SameBytes t ∧ t.contents .rx = [] ∧ t.contents .tx = [] ∧
    statusWord t = (if s.ctsIn then 0x00000004#32 else 0x00000000#32) ∧
    (s.cfg.rtsStart ≤ s.cfg.rxCap → ∀ r, rtsNext t.cfg (writeSpace .rx t) r = false) ∧
    (txIrqEval t).txIrqEn = false) ∧
  (∀ s : State, s.port = .I → ∃ t, exec .init s = .next t ∧ s.OnlyResult t ∧ s.Answers t .ILLEGAL 0#32) ∧
  (∀ w : Word, w.extractLsb' 24 8 = 0x01#8 → w.extractLsb' 0 24 ≠ 0#24 → ∃ e, decode w = .error e)

/-- STATUS (R96, R222): answers the status word on either port, and changes nothing else. -/
def Obligations.StatusCommand : Prop :=
  ∀ s : State, ∃ (t : State) (w : Word), exec .status s = .next t ∧ s.OnlyResult t ∧ s.Answers t .OK w ∧
    w.getLsbD 0 = decide (s.mode = .REMOTE) ∧ w.getLsbD 1 = s.rts ∧ w.getLsbD 2 = s.ctsIn ∧
    w.getLsbD 3 = s.txIrqEn ∧ w.getLsbD 4 = s.crcErrInd ∧ w.getLsbD 5 = s.frameErrInd ∧
    w.extractLsb' 6 2 = 0#2 ∧ w.extractLsb' 8 8 = s.silenceCount ∧ w.extractLsb' 16 8 = s.rx.count ∧
    w.extractLsb' 24 8 = s.tx.count

/-- LAST_REMOTE (R224): answers last_remote on port F, and changes nothing else. -/
def Obligations.LastRemoteCommand : Prop :=
  ∀ s : State, s.port = .F → ∃ t, exec .lastRemote s = .next t ∧ s.OnlyResult t ∧ s.Answers t .OK s.lastRemote

/-! ### FIFOs -/

/-- FifoPut (R110): a full FIFO rejects the byte with no change; otherwise the byte is stored at the write cursor,
the cursor advances modulo CAP, the count grows by one, and nothing else changes. -/
def Obligations.FifoPutRule : Prop :=
  ∀ (F : FifoId) (b : Byte) (s : State),
    (readSize F s = s.cap F → fifoPut F b s = .ok (s, false)) ∧
    (readSize F s < s.cap F → (s.fifo F).wr.toNat < s.cap F → s.cap F ≤ 255 →
      ∃ t, fifoPut F b s = .ok (t, true) ∧
        t.byteAt F (s.fifo F).wr.toNat = b ∧
        (∀ G a, (G, a) ≠ (F, (s.fifo F).wr.toNat) → t.byteAt G a = s.byteAt G a) ∧
        (t.fifo F).wr.toNat = ((s.fifo F).wr.toNat + 1) % s.cap F ∧
        readSize F t = readSize F s + 1 ∧ (t.fifo F).rd = (s.fifo F).rd ∧
        (∀ G, G ≠ F → t.fifo G = s.fifo G) ∧ t = { s with rx := t.rx, tx := t.tx })

/-- FifoGet (R112): an empty FIFO fails with byte 0 and no change; otherwise the byte at the read cursor is
returned, the cursor advances modulo CAP, the count shrinks by one, and nothing else changes. On an empty FIFO the
commands that get from it answer NONE. -/
def Obligations.FifoGetRule : Prop :=
  (∀ (F : FifoId) (s : State),
    (readSize F s = 0 → fifoGet F s = .ok (0#8, false, s)) ∧
    (0 < readSize F s → (s.fifo F).rd.toNat < s.cap F → s.cap F ≤ 255 →
      ∃ t, fifoGet F s = .ok (s.byteAt F (s.fifo F).rd.toNat, true, t) ∧
        (t.fifo F).rd.toNat = ((s.fifo F).rd.toNat + 1) % s.cap F ∧
        readSize F t = readSize F s - 1 ∧ (t.fifo F).wr = (s.fifo F).wr ∧ s.SameBytes t ∧
        (∀ G, G ≠ F → t.fifo G = s.fifo G) ∧ t = { s with rx := t.rx, tx := t.tx })) ∧
  (∀ s : State, s.port = .F → readSize .rx s = 0 → ∃ t, exec .rxfGet s = .next t ∧ s.Answers t .NONE 0#32) ∧
  (∀ (s : State) (i : Instr), s.port = .I → readSize .tx s = 0 → i = .txfGet ∨ i = .txDrain →
    ∃ t, exec i s = .next t ∧ s.Answers t .NONE 0#32)

/-- The FIFO laws of R121: the two sizes add up to CAP, a put never succeeds on a full FIFO, a get never on an
empty one. -/
def Obligations.FifoLaws : Prop :=
  ∀ (F : FifoId) (s : State),
    (readSize F s : Int) + writeSpace F s = (s.cap F : Int) ∧
    (∀ b t, fifoPut F b s = .ok (t, true) → readSize F s ≠ s.cap F) ∧
    (∀ v t, fifoGet F s = .ok (v, true, t) → readSize F s ≠ 0)

/-- All CAP bytes are usable (R122): bytes that fit are all stored, in order, and the next put is rejected when they
fill the FIFO. -/
def Obligations.AllBytesUsable : Prop :=
  ∀ (F : FifoId) (bs : List Byte) (s : State), s.FifoOk F → s.cap F ≤ 255 →
    readSize F s + bs.length ≤ s.cap F →
    ∃ t, fifoPutAll F bs s = .ok t ∧ t.FifoOk F ∧ t.contents F = s.contents F ++ bs ∧
      (readSize F s + bs.length = s.cap F → ∀ b, fifoPut F b t = .ok (t, false))

/-- RXF_PUT (R113): on port I, a byte is appended to RX and OK answered, or NONE answered with no change when RX is
full; rts is not evaluated. -/
def Obligations.RxfPutCommand : Prop :=
  ∀ (b : Byte) (s : State), s.port = .I → s.FifoOk .rx → s.cap .rx ≤ 255 →
    ∃ t, exec (.rxfPut b) s = .next t ∧
      (readSize .rx s = s.cap .rx → s.OnlyResult t ∧ s.Answers t .NONE 0#32) ∧
      (readSize .rx s < s.cap .rx →
        t = { s with rx := t.rx, rspF := t.rspF, rspI := t.rspI, results := t.results } ∧
        s.Answers t .OK 0#32 ∧ t.contents .rx = s.contents .rx ++ [b] ∧
        t.byteAt .rx s.rx.wr.toNat = b ∧
        ∀ G a, (G, a) ≠ (.rx, s.rx.wr.toNat) → t.byteAt G a = s.byteAt G a)

/-- TXF_PUT (R117): on port F, a byte is appended to TX and OK answered, or NONE answered with no change when TX is
full; tx_irq_en is not evaluated. -/
def Obligations.TxfPutCommand : Prop :=
  ∀ (b : Byte) (s : State), s.port = .F → s.FifoOk .tx → s.cap .tx ≤ 255 →
    ∃ t, exec (.txfPut b) s = .next t ∧
      (readSize .tx s = s.cap .tx → s.OnlyResult t ∧ s.Answers t .NONE 0#32) ∧
      (readSize .tx s < s.cap .tx →
        t = { s with tx := t.tx, rspF := t.rspF, rspI := t.rspI, results := t.results } ∧
        s.Answers t .OK 0#32 ∧ t.contents .tx = s.contents .tx ++ [b] ∧
        t.byteAt .tx s.tx.wr.toNat = b ∧
        ∀ G a, (G, a) ≠ (.tx, s.tx.wr.toNat) → t.byteAt G a = s.byteAt G a)

/-- RXF_GET (R114): on port F, the oldest byte of RX is removed and answered, or NONE answered with no change when
RX is empty. -/
def Obligations.RxfGetCommand : Prop :=
  ∀ s : State, s.port = .F → s.FifoOk .rx → s.cap .rx ≤ 255 →
    ∃ t, exec .rxfGet s = .next t ∧
      (s.contents .rx = [] → s.OnlyResult t ∧ s.Answers t .NONE 0#32) ∧
      (∀ v rest, s.contents .rx = v :: rest →
        t = { s with rx := { s.rx with rd := t.rx.rd, count := t.rx.count },
                     rspF := t.rspF, rspI := t.rspI, results := t.results } ∧
        s.Answers t .OK (v.setWidth 32) ∧ t.contents .rx = rest ∧ s.SameBytes t)

/-- TXF_GET (R118): on port I, the oldest byte of TX is removed and answered, or NONE answered when TX is empty;
tx_irq_en is cleared when TX is then empty, and tx_wire does not grow. -/
def Obligations.TxfGetCommand : Prop :=
  ∀ s : State, s.port = .I → s.FifoOk .tx → s.cap .tx ≤ 255 →
    ∃ t, exec .txfGet s = .next t ∧
      (s.contents .tx = [] →
        t = { s with txIrqEn := false, rspF := t.rspF, rspI := t.rspI, results := t.results } ∧
        s.Answers t .NONE 0#32) ∧
      (∀ v rest, s.contents .tx = v :: rest →
        t = { s with tx := { s.tx with rd := t.tx.rd, count := t.tx.count },
                     txIrqEn := if rest = [] then false else s.txIrqEn,
                     rspF := t.rspF, rspI := t.rspI, results := t.results } ∧
        s.Answers t .OK (v.setWidth 32) ∧ t.contents .tx = rest ∧ s.SameBytes t)

/-- RXF_READ_SIZE, TXF_READ_SIZE, RXF_WRITE_SPACE and TXF_WRITE_SPACE (R115, R116, R119, R120): on either port, the
occupancy or the free space is answered and nothing else changes. -/
def Obligations.FifoQueries : Prop :=
  ∀ s : State, (∀ F, readSize F s ≤ s.cap F ∧ s.cap F ≤ 255) →
    (∃ (t : State) (w : Word), exec .rxfReadSize s = .next t ∧ s.OnlyResult t ∧ s.Answers t .OK w ∧
      w.toNat = s.rx.count.toNat) ∧
    (∃ (t : State) (w : Word), exec .txfReadSize s = .next t ∧ s.OnlyResult t ∧ s.Answers t .OK w ∧
      w.toNat = s.tx.count.toNat) ∧
    (∃ (t : State) (w : Word), exec .rxfWriteSpace s = .next t ∧ s.OnlyResult t ∧ s.Answers t .OK w ∧
      w.toNat + s.rx.count.toNat = s.cfg.rxCap) ∧
    (∃ (t : State) (w : Word), exec .txfWriteSpace s = .next t ∧ s.OnlyResult t ∧ s.Answers t .OK w ∧
      w.toNat + s.tx.count.toNat = s.cfg.txCap)

/-- The byte a get or a drain answers was put there: a byte never written is never observed (10_state.md R34). -/
def Obligations.OnlyPutBytesObserved : Prop :=
  ∀ (s t : State), s.Inv →
    (exec .rxfGet s = .next t → (t.rsp s.port).code = .OK →
      ∃ v, s.rx.buf.read? s.rx.rd.toNat = some v ∧ (t.rsp s.port).data = v.setWidth 32) ∧
    (exec .txfGet s = .next t ∨ exec .txDrain s = .next t → (t.rsp s.port).code = .OK →
      ∃ v, s.tx.buf.read? s.tx.rd.toNat = some v ∧ (t.rsp s.port).data = v.setWidth 32)

/-! ### CRC -/

/-- CRC_UPDATE (R144): on port F, CRC_STEP of its operands is answered and nothing else changes; on port I,
IllegalCommand; every word with opcode 0x20 is legal; and the corner cases of the default step. -/
def Obligations.CrcUpdateCommand : Prop :=
  (∀ (c : Half) (b : Byte) (s : State), s.port = .F →
    ∃ t, exec (.crcUpdate c b) s = .next t ∧ s.OnlyResult t ∧
      s.Answers t .OK ((crcStep s.cfg.crcStep c b).setWidth 32)) ∧
  (∀ (c : Half) (b : Byte) (s : State), s.port = .I →
    ∃ t, exec (.crcUpdate c b) s = .next t ∧ s.OnlyResult t ∧ s.Answers t .ILLEGAL 0#32) ∧
  (∀ w : Word, w.extractLsb' 24 8 = 0x20#8 →
    decode w = .ok (.crcUpdate (w.extractLsb' 8 16) (w.extractLsb' 0 8))) ∧
  crcStep Config.default.crcStep 0x0000#16 0x00#8 = 0x0000#16 ∧
  crcStep Config.default.crcStep 0xFFFF#16 0xFF#8 = 0xFF00#16 ∧
  crcStep Config.default.crcStep 0xFFFF#16 0xAA#8 = 0xF550#16

/-- FrameCRC (R145): from seed 0xFFFF over start, speed and angle in that order, with no final step; bytes 3 and 4
of the frame are its high and low byte. -/
def Obligations.FrameCrcRule : Prop :=
  ∀ (c : CrcStep) (b0 b1 b2 s a : Byte),
    frameCrc c b0 b1 b2 = crcStep c (crcStep c (crcStep c 0xFFFF#16 b0) b1) b2 ∧
    frameBytes c s a = [0xAA#8, s, a, (frameCrc c 0xAA#8 s a).extractLsb' 8 8, (frameCrc c 0xAA#8 s a).extractLsb' 0 8]

/-- Both shapes of step are linear in the register and the byte together, whatever the polynomial (R142, R143). -/
def Obligations.PolynomialStepsLinear : Prop :=
  ∀ (poly c d : Half) (a b : Byte),
    crcStep (.msbFirst poly) (c ^^^ d) (a ^^^ b) =
      crcStep (.msbFirst poly) c a ^^^ crcStep (.msbFirst poly) d b ∧
    crcStep (.reflected poly) (c ^^^ d) (a ^^^ b) =
      crcStep (.reflected poly) c a ^^^ crcStep (.reflected poly) d b

/-- With the default step and with the reflected step of polynomial 0xA001, FrameCRC(0xAA, ·, ·) is one-to-one, and
every single-bit change of speed or angle changes it (R147). -/
def Obligations.FrameCrcOneToOne : Prop :=
  ∀ c, c = CrcStep.msbFirst 0x1021#16 ∨ c = CrcStep.reflected 0xA001#16 →
    (∀ s a s' a', frameCrc c 0xAA#8 s a = frameCrc c 0xAA#8 s' a' → s = s' ∧ a = a') ∧
    (∀ s a, ∀ k < 8, frameCrc c 0xAA#8 (s ^^^ (1#8 <<< k)) a ≠ frameCrc c 0xAA#8 s a ∧
      frameCrc c 0xAA#8 s (a ^^^ (1#8 <<< k)) ≠ frameCrc c 0xAA#8 s a)

/-- The parameter CRC_STEP ranges over every total function Bits16 × Bits8 → Bits16 (R141; log 4). -/
def Obligations.EveryFunctionIsACrcStep : Prop :=
  ∀ f : Half → Byte → Half, ∃ c : CrcStep, ∀ crc b, crcStep c crc b = f crc b

/-! ### Frames and the link -/

/-- ControlValues (R163): the two settings raw, and the absolute values as unsigned bytes under each mode. -/
def Obligations.ControlValuesRule : Prop :=
  ∀ b1 b2 : Byte,
    (∀ m, (controlValues m b1 b2).extractLsb' 24 8 = b1 ∧ (controlValues m b1 b2).extractLsb' 16 8 = b2 ∧
      (((controlValues m b1 b2).extractLsb' 8 8).toNat : Int) = |b1.toInt| ∧
      ((controlValues m b1 b2).extractLsb' 8 8).toNat ≤ 128) ∧
    (((controlValues .RAW b1 b2).extractLsb' 0 8).toNat : Int) = |b2.toInt| ∧
    ((controlValues .RAW b1 b2).extractLsb' 0 8).toNat ≤ 128 ∧
    (((controlValues .OFFSET90 b1 b2).extractLsb' 0 8).toNat : Int) = |b2.toInt - 90| ∧
    ((controlValues .OFFSET90 b1 b2).extractLsb' 0 8).toNat ≤ 218

/-- A short poll (R161): the count saturates at the ceiling and mode becomes LOCAL there, the bytes present stay,
and nothing else changes except rts and the result NONE. -/
def Obligations.ShortPoll : Prop :=
  ∀ s : State, s.port = .F → readSize .rx s < 5 → s.cfg.silenceCeil ≤ 255 →
    ∃ t, exec .tryReceiveFrame s = .next t ∧ s.Answers t .NONE 0#32 ∧
      t = { s with silenceCount := t.silenceCount, mode := t.mode, rts := t.rts,
                   rspF := t.rspF, rspI := t.rspI, results := t.results } ∧
      t.silenceCount.toNat = min (s.silenceCount.toNat + 1) s.cfg.silenceCeil ∧
      t.mode = (if min (s.silenceCount.toNat + 1) s.cfg.silenceCeil = s.cfg.silenceCeil then .LOCAL else s.mode) ∧
      t.rts = rtsNext s.cfg (writeSpace .rx s) s.rts ∧
      t.contents .rx = s.contents .rx ∧
      (s.silenceCount.toNat = s.cfg.silenceCeil → t.silenceCount = s.silenceCount ∧ t.mode = .LOCAL)

/-- A poll that finds a window (R160 steps 2 to 4, R162, R164, R165): the five oldest bytes go, whatever they are;
then a wrong start marker, a wrong checksum or a valid frame, each with exactly its own effect. -/
def Obligations.WindowPoll : Prop :=
  ∀ (s : State) (b0 b1 b2 b3 b4 : Byte) (rest : List Byte),
    s.port = .F → s.FifoOk .rx → s.cap .rx ≤ 255 → s.contents .rx = b0 :: b1 :: b2 :: b3 :: b4 :: rest →
    ∃ t, exec .tryReceiveFrame s = .next t ∧ t.contents .rx = rest ∧ s.SameBytes t ∧
      t.rts = rtsNext s.cfg ((s.cap .rx : Int) - (rest.length : Int)) s.rts ∧
      (b0 ≠ 0xAA#8 →
        s.Answers t .NONE 0#32 ∧
        t = { s with rx := { s.rx with rd := t.rx.rd, count := t.rx.count }, rts := t.rts,
                     frameErrInd := if s.cfg.startErrToggle then !s.frameErrInd else s.frameErrInd,
                     rspF := t.rspF, rspI := t.rspI, results := t.results }) ∧
      (b0 = 0xAA#8 → frameCrc s.cfg.crcStep b0 b1 b2 ≠ (b3.setWidth 16 <<< 8) ||| b4.setWidth 16 →
        s.Answers t .NONE 0#32 ∧
        t = { s with rx := { s.rx with rd := t.rx.rd, count := t.rx.count }, rts := t.rts,
                     crcErrInd := !s.crcErrInd,
                     rspF := t.rspF, rspI := t.rspI, results := t.results }) ∧
      (b0 = 0xAA#8 → frameCrc s.cfg.crcStep b0 b1 b2 = (b3.setWidth 16 <<< 8) ||| b4.setWidth 16 →
        s.Answers t .OK (controlValues s.cfg.absAngleMode b1 b2) ∧
        t = { s with rx := { s.rx with rd := t.rx.rd, count := t.rx.count }, rts := t.rts,
                     silenceCount := 0#8, mode := .REMOTE,
                     lastRemote := controlValues s.cfg.absAngleMode b1 b2,
                     rspF := t.rspF, rspI := t.rspI, results := t.results })

/-- The link state machine as R166's table: one row per event of a poll, INIT and power-on reset, and no other
command writes mode or silence_count. -/
def Obligations.LinkStateTable : Prop :=
  (∀ s t : State, s.port = .F → s.FifoOk .rx → s.cfg.WellFormed → exec .tryReceiveFrame s = .next t →
    (readSize .rx s < 5 → min (s.silenceCount.toNat + 1) s.cfg.silenceCeil < s.cfg.silenceCeil →
      t.silenceCount.toNat = s.silenceCount.toNat + 1 ∧ t.mode = s.mode) ∧
    (readSize .rx s < 5 → min (s.silenceCount.toNat + 1) s.cfg.silenceCeil = s.cfg.silenceCeil →
      t.silenceCount.toNat = s.cfg.silenceCeil ∧ t.mode = .LOCAL) ∧
    (∀ b0 b1 b2 b3 b4 rest, s.contents .rx = b0 :: b1 :: b2 :: b3 :: b4 :: rest →
      (b0 ≠ 0xAA#8 → t.silenceCount = s.silenceCount ∧ t.mode = s.mode) ∧
      (b0 = 0xAA#8 → frameCrc s.cfg.crcStep b0 b1 b2 ≠ b3 ++ b4 →
        t.silenceCount = s.silenceCount ∧ t.mode = s.mode) ∧
      (b0 = 0xAA#8 → frameCrc s.cfg.crcStep b0 b1 b2 = b3 ++ b4 →
        t.silenceCount = 0#8 ∧ t.mode = .REMOTE))) ∧
  (∀ s t : State, s.port = .F → exec .init s = .next t → t.silenceCount = 0#8 ∧ t.mode = .LOCAL) ∧
  (∀ s : State, (powerOnReset s).silenceCount = 0#8 ∧ (powerOnReset s).mode = .LOCAL) ∧
  (∀ (i : Instr) (s t : State), i ≠ .tryReceiveFrame → i ≠ .init → exec i s = .next t →
    t.silenceCount = s.silenceCount ∧ t.mode = s.mode)

/-- From REMOTE with count k, short polls in a row demote the link after exactly CEIL - k of them, and further ones
keep it LOCAL with the count at its ceiling (R167). -/
def Obligations.SilenceDemotesOnTime : Prop :=
  ∀ (s : State) (n : Nat), s.Inv → s.port = .F → s.mode = .REMOTE → readSize .rx s < 5 →
    ∃ t, execTimes .tryReceiveFrame n s = .next t ∧
      t.silenceCount.toNat = min (s.silenceCount.toNat + n) s.cfg.silenceCeil ∧
      (t.mode = .LOCAL ↔ s.cfg.silenceCeil - s.silenceCount.toNat ≤ n) ∧
      t.contents .rx = s.contents .rx ∧ t.lastRemote = s.lastRemote

/-- BUILD_AND_ENQUEUE_FRAME (R170): with less than 5 bytes free nothing is queued and NONE answered; otherwise the
five bytes of the frame are appended in order and OK answered; TxIrqEval on both paths; no byte of storage changes
but the five at the write cursor. -/
def Obligations.BuildFrameCommand : Prop :=
  ∀ (sp an : Byte) (s : State), s.port = .F → s.FifoOk .tx → s.cap .tx ≤ 255 →
    ∃ t, exec (.buildAndEnqueueFrame sp an) s = .next t ∧
      t = { s with tx := t.tx, txIrqEn := t.txIrqEn, rspF := t.rspF, rspI := t.rspI, results := t.results } ∧
      t.txIrqEn = (decide (0 < t.tx.count.toNat) && !s.ctsIn) ∧
      (writeSpace .tx s < 5 → t.tx = s.tx ∧ s.Answers t .NONE 0#32) ∧
      (5 ≤ writeSpace .tx s →
        s.Answers t .OK 0#32 ∧
        t.contents .tx = s.contents .tx ++ [0xAA#8, sp, an,
          (frameCrc s.cfg.crcStep 0xAA#8 sp an).extractLsb' 8 8,
          (frameCrc s.cfg.crcStep 0xAA#8 sp an).extractLsb' 0 8] ∧
        ∀ G a, (∀ k < 5, (G, a) ≠ (.tx, (s.tx.wr.toNat + k) % s.cap .tx)) → t.byteAt G a = s.byteAt G a)

/-- The round trip of R172, for every CRC_STEP: the five bytes a send appends to TX, fed unchanged and in order into
an empty RX, make the next poll answer (OK, ControlValues(s, a)). -/
def Obligations.RoundTrip : Prop :=
  ∀ (sp an : Byte) (s : State), s.Inv → s.port = .F → 5 ≤ writeSpace .tx s →
    ∃ t frame, exec (.buildAndEnqueueFrame sp an) s = .next t ∧ frame.length = 5 ∧
      t.contents .tx = s.contents .tx ++ frame ∧
      ∀ u : State, u.Inv → u.port = .I → u.cfg = s.cfg → u.contents .rx = [] →
        ∃ v x, receiveAll frame u = .next v ∧ exec .tryReceiveFrame { v with port := .F } = .next x ∧
          x.rsp .F = ⟨.OK, controlValues s.cfg.absAngleMode sp an⟩ ∧
          speedSetting (x.rsp .F).data = sp ∧ angleSetting (x.rsp .F).data = an ∧
          x.lastRemote = (x.rsp .F).data ∧ x.mode = .REMOTE ∧ x.contents .rx = []

/-- For every CRC_STEP, a frame whose bytes 0 to 2 arrive unchanged and whose byte 3 or 4 differs is rejected: NONE,
crc_err_ind inverted, and no Control Values, count or mode changed (R148). -/
def Obligations.CorruptChecksumRejected : Prop :=
  ∀ (s : State) (sp an hi lo : Byte) (rest : List Byte), s.port = .F → s.FifoOk .rx → s.cap .rx ≤ 255 →
    s.contents .rx = 0xAA#8 :: sp :: an :: hi :: lo :: rest →
    (hi, lo) ≠ ((frameCrc s.cfg.crcStep 0xAA#8 sp an).extractLsb' 8 8,
                (frameCrc s.cfg.crcStep 0xAA#8 sp an).extractLsb' 0 8) →
    ∃ t, exec .tryReceiveFrame s = .next t ∧ s.Answers t .NONE 0#32 ∧ t.crcErrInd = !s.crcErrInd ∧
      t.lastRemote = s.lastRemote ∧ t.silenceCount = s.silenceCount ∧ t.mode = s.mode

/-- last_remote changes only by INIT, or by a poll that answers OK with the new value (10_state.md R38). -/
def Obligations.LastRemoteOnlyByValidFrame : Prop :=
  ∀ (i : Instr) (s t : State), exec i s = .next t → t.lastRemote ≠ s.lastRemote →
    (i = .init ∧ t.lastRemote = 0#32) ∨
    (i = .tryReceiveFrame ∧ t.rsp .F = ⟨.OK, t.lastRemote⟩)

/-- A poll removes exactly 0 or exactly 5 bytes of RX, and a send adds exactly 0 or exactly 5 to TX, at the ends
FIFO order says (20_memory.md R68). -/
def Obligations.ZeroOrFiveBytes : Prop :=
  ∀ s t : State, s.Inv →
    (exec .tryReceiveFrame s = .next t →
      ∃ taken, s.contents .rx = taken ++ t.contents .rx ∧ (taken.length = 0 ∨ taken.length = 5)) ∧
    (∀ sp an, exec (.buildAndEnqueueFrame sp an) s = .next t →
      ∃ added, t.contents .tx = s.contents .tx ++ added ∧ (added.length = 0 ∨ added.length = 5))

/-! ### Flow control and the driver -/

/-- RTS_EVAL (R190): on either port, rts is 0 at a free space of RTS_START or more, 1 at RTS_STOP or less, unchanged
between, and nothing else changes. -/
def Obligations.RtsEvalCommand : Prop :=
  ∀ s : State, s.cfg.rtsStop < s.cfg.rtsStart →
    ∃ t, exec .rtsEval s = .next t ∧ s.Answers t .OK 0#32 ∧
      t = { s with rts := t.rts, rspF := t.rspF, rspI := t.rspI, results := t.results } ∧
      ((s.cfg.rtsStart : Int) ≤ writeSpace .rx s → t.rts = false) ∧
      (writeSpace .rx s ≤ (s.cfg.rtsStop : Int) → t.rts = true) ∧
      ((s.cfg.rtsStop : Int) < writeSpace .rx s → writeSpace .rx s < (s.cfg.rtsStart : Int) → t.rts = s.rts)

/-- The three hysteresis laws of R191, and the toggling when the thresholds differ by one. -/
def Obligations.HysteresisLaws : Prop :=
  ∀ c : Config, c.rtsStop < c.rtsStart →
    (∀ ws, rtsNext c ws true = false → (c.rtsStart : Int) ≤ ws) ∧
    (∀ ws, rtsNext c ws false = true → ws ≤ (c.rtsStop : Int)) ∧
    (c.rtsStop + 2 ≤ c.rtsStart → ∀ (l : List Int) (r : Bool),
      (∀ ws ∈ l, ws = (c.rtsStop : Int) ∨ ws = (c.rtsStop : Int) + 1) → changes r (rtsTrace c r l) ≤ 1) ∧
    (c.rtsStart = c.rtsStop + 1 →
      changes false (rtsTrace c false [(c.rtsStop : Int), (c.rtsStop : Int) + 1]) = 2)

/-- TX_IRQ_EVAL (R192): on either port, tx_irq_en becomes 1 exactly when TX holds a byte and cts_in is 0, and nothing
else changes. -/
def Obligations.TxIrqEvalCommand : Prop :=
  ∀ s : State, ∃ t, exec .txIrqEval s = .next t ∧ s.Answers t .OK 0#32 ∧
    t = { s with txIrqEn := t.txIrqEn, rspF := t.rspF, rspI := t.rspI, results := t.results } ∧
    (t.txIrqEn = true ↔ 0 < s.tx.count.toNat ∧ s.ctsIn = false)

/-- HW_RX_BYTE (R195): on port I, the byte is appended to RX and OK answered, or lost with NONE when RX is full; rts
is evaluated in both cases. -/
def Obligations.HwRxByteCommand : Prop :=
  ∀ (b : Byte) (s : State), s.port = .I → s.FifoOk .rx → s.cap .rx ≤ 255 →
    ∃ t, exec (.hwRxByte b) s = .next t ∧ t.rts = rtsNext s.cfg (writeSpace .rx t) s.rts ∧
      (readSize .rx s = s.cap .rx →
        s.Answers t .NONE 0#32 ∧
        t = { s with rts := t.rts, rspF := t.rspF, rspI := t.rspI, results := t.results }) ∧
      (readSize .rx s < s.cap .rx →
        s.Answers t .OK 0#32 ∧
        t = { s with rx := t.rx, rts := t.rts, rspF := t.rspF, rspI := t.rspI, results := t.results } ∧
        t.contents .rx = s.contents .rx ++ [b] ∧
        t.byteAt .rx s.rx.wr.toNat = b ∧
        ∀ G a, (G, a) ≠ (.rx, s.rx.wr.toNat) → t.byteAt G a = s.byteAt G a)

/-- The overrun margin (R196): the push that brings the free space down to RTS_STOP raises rts, and from there
RTS_STOP more bytes are all stored. -/
def Obligations.OverrunMargin : Prop :=
  (∀ (b : Byte) (s t : State), s.Inv → s.port = .I → exec (.hwRxByte b) s = .next t →
    writeSpace .rx t ≤ (s.cfg.rtsStop : Int) → t.rts = true) ∧
  (∀ (bs : List Byte) (s : State), s.Inv → s.port = .I → writeSpace .rx s = (s.cfg.rtsStop : Int) →
    bs.length ≤ s.cfg.rtsStop →
    ∃ t, receiveAll bs s = .next t ∧ t.contents .rx = s.contents .rx ++ bs)

/-- TX_DRAIN (R197): on port I, with cts_in = 0, tx_reg_full_in = 0 and a byte queued, the oldest byte goes to
tx_wire and is answered; otherwise NONE and no byte moves; tx_irq_en is cleared when TX is then empty and is never a
condition. -/
def Obligations.TxDrainCommand : Prop :=
  ∀ s : State, s.port = .I → s.FifoOk .tx → s.cap .tx ≤ 255 →
    ∃ t, exec .txDrain s = .next t ∧ s.SameBytes t ∧
      (s.ctsIn = true ∨ s.txRegFullIn = true ∨ s.contents .tx = [] →
        s.Answers t .NONE 0#32 ∧
        t = { s with txIrqEn := if s.contents .tx = [] then false else s.txIrqEn,
                     rspF := t.rspF, rspI := t.rspI, results := t.results }) ∧
      (∀ v rest, s.ctsIn = false → s.txRegFullIn = false → s.contents .tx = v :: rest →
        s.Answers t .OK (v.setWidth 32) ∧ t.contents .tx = rest ∧
        t = { s with tx := { s.tx with rd := t.tx.rd, count := t.tx.count },
                     txIrqEn := if rest = [] then false else s.txIrqEn, txWire := s.txWire ++ [v],
                     rspF := t.rspF, rspI := t.rspI, results := t.results })

/-- The transmit gate (R198): tx_wire grows only in a TX_DRAIN on port I with cts_in = 0 and tx_reg_full_in = 0, by
the oldest byte of TX. -/
def Obligations.TransmitGate : Prop :=
  ∀ (i : Instr) (s t : State), s.Inv → exec i s = .next t → t.txWire ≠ s.txWire →
    i = .txDrain ∧ s.port = .I ∧ s.ctsIn = false ∧ s.txRegFullIn = false ∧
    ∃ v, s.contents .tx = v :: t.contents .tx ∧ t.txWire = s.txWire ++ [v]

/-- crc_err_ind and frame_err_ind never affect rts, tx_irq_en or TX_DRAIN (R199): whatever levels they are given,
every command leaves the same rts, tx_irq_en, FIFOs and tx_wire, and TX_DRAIN answers the same. -/
def Obligations.IndicatorsNeverSteer : Prop :=
  ∀ (i : Instr) (s t : State) (x y : Bool), exec i s = .next t →
    ∃ t', exec i { s with crcErrInd := x, frameErrInd := y } = .next t' ∧
      t'.rts = t.rts ∧ t'.txIrqEn = t.txIrqEn ∧ t'.rx = t.rx ∧ t'.tx = t.tx ∧ t'.txWire = t.txWire ∧
      (i = .txDrain → t'.rsp s.port = t.rsp s.port)

/-! ### The whole machine -/

/-- The invariant holds right after reset, for every legal configuration, the default one among them. -/
def Obligations.ResetMeetsInvariant : Prop :=
  (∀ c : Config, c.WellFormed → (State.resetWith c).Inv) ∧ State.reset.Inv

/-- Every step keeps the invariant: R33, R34, R167 laws 1 and 2, R194, R43. -/
def Obligations.StepKeepsInvariant : Prop :=
  ∀ s t : State, s.Inv → step s = .next t → t.Inv

/-- From a state that meets the invariant the machine never stops: no fault, no refusal (60_exceptions.md R242, R256). -/
def Obligations.MachineNeverStops : Prop :=
  ∀ s : State, s.Inv → ∃ t, step s = .next t

/-- No step changes the parameters (10_state.md R31). -/
def Obligations.ParametersNeverChange : Prop :=
  ∀ s t : State, step s = .next t → t.cfg = s.cfg

/-- Cursors are hidden (10_state.md R35): of two states that differ only in their cursors and storage and store the
same bytes, every step makes two such states again, with the same answers. -/
def Obligations.CursorsAreHidden : Prop :=
  ∀ s t s' : State, s.Inv → t.Inv → s.SameToCommands t → step s = .next s' →
    ∃ t', step t = .next t' ∧ s'.SameToCommands t'

/-- Which commands write which element (the table of R46): an element changes only under a command whose row has a
w there. -/
def Obligations.AccessSummary : Prop :=
  ∀ (i : Instr) (s t : State), exec i s = .next t →
    (t.rx ≠ s.rx → i = .init ∨ (∃ b, i = .rxfPut b) ∨ i = .rxfGet ∨ i = .tryReceiveFrame ∨ ∃ b, i = .hwRxByte b) ∧
    (t.tx ≠ s.tx → i = .init ∨ (∃ b, i = .txfPut b) ∨ i = .txfGet ∨ (∃ x y, i = .buildAndEnqueueFrame x y) ∨
      i = .txDrain) ∧
    (t.mode ≠ s.mode → i = .init ∨ i = .tryReceiveFrame) ∧
    (t.silenceCount ≠ s.silenceCount → i = .init ∨ i = .tryReceiveFrame) ∧
    (t.lastRemote ≠ s.lastRemote → i = .init ∨ i = .tryReceiveFrame) ∧
    (t.rts ≠ s.rts → i = .init ∨ i = .tryReceiveFrame ∨ i = .rtsEval ∨ ∃ b, i = .hwRxByte b) ∧
    (t.txIrqEn ≠ s.txIrqEn → i = .init ∨ i = .txfGet ∨ (∃ x y, i = .buildAndEnqueueFrame x y) ∨ i = .txIrqEval ∨
      i = .txDrain) ∧
    (t.crcErrInd ≠ s.crcErrInd → i = .init ∨ i = .tryReceiveFrame) ∧
    (t.frameErrInd ≠ s.frameErrInd → i = .init ∨ i = .tryReceiveFrame) ∧
    (t.txWire ≠ s.txWire → i = .txDrain)

/-- No byte of storage changes but at the write cursor of the FIFO a put, a received byte or a send writes to
(20_memory.md R60; 40_fifo.md R110). -/
def Obligations.StorageWrites : Prop :=
  ∀ (i : Instr) (s t : State), s.cfg.WellFormed → exec i s = .next t →
    ∀ F a, t.byteAt F a ≠ s.byteAt F a →
      (F = .rx ∧ ((∃ b, i = .rxfPut b) ∨ ∃ b, i = .hwRxByte b) ∧ a = s.rx.wr.toNat) ∨
      (F = .tx ∧ (∃ b, i = .txfPut b) ∧ a = s.tx.wr.toNat) ∨
      (F = .tx ∧ (∃ x y, i = .buildAndEnqueueFrame x y) ∧ ∃ k < 5, a = (s.tx.wr.toNat + k) % s.cfg.txCap)

/-- Role separation (20_memory.md R66): apart from INIT, a command on port F only takes bytes from the front of RX
and only adds bytes at the back of TX, and a command on port I the other way round. -/
def Obligations.RoleSeparation : Prop :=
  ∀ (i : Instr) (s t : State), s.Inv → i ≠ .init → exec i s = .next t →
    (s.port = .F → (∃ l, s.contents .rx = l ++ t.contents .rx) ∧ ∃ l, t.contents .tx = s.contents .tx ++ l) ∧
    (s.port = .I → (∃ l, t.contents .rx = s.contents .rx ++ l) ∧ ∃ l, s.contents .tx = l ++ t.contents .tx)

/-- Queries and evaluations (20_memory.md R73): a query writes no element and, repeated, answers the same; an
evaluation repeated changes no element further. -/
def Obligations.QueriesAndIdempotentWrites : Prop :=
  (∀ (i : Instr) (s t u : State), (i = .rxfReadSize ∨ i = .rxfWriteSpace ∨ i = .txfReadSize ∨ i = .txfWriteSpace ∨
      i = .status ∨ i = .lastRemote ∨ ∃ c b, i = .crcUpdate c b) →
    exec i s = .next t → exec i t = .next u →
    t.elements = s.elements ∧ u.rsp s.port = t.rsp s.port) ∧
  (∀ (i : Instr) (s t u : State), (i = .rtsEval ∨ i = .txIrqEval) →
    exec i s = .next t → exec i t = .next u → u.elements = t.elements)
end

