-- ==== Sys2Proof/Laws/Memory.lean ====
section
/-! SUPPORT. The laws of storage: a read after a write, the canonical form kept, equal reads mean equal data. -/

namespace Sys2Proof.Machine

@[simp] theorem Memory.read?_nil (i : Nat) : Memory.read? [] i = none := rfl

theorem Memory.read?_cons (a : Nat) (v : Byte) (m : Memory) (i : Nat) :
    Memory.read? ((a, v) :: m) i = if a = i then some v else Memory.read? m i := rfl

@[simp] theorem Memory.read?_write_same (m : Memory) (i : Nat) (v : Byte) : (m.write i v).read? i = some v := by
  induction m with
  | nil => simp [Memory.write, Memory.read?]
  | cons c m ih =>
    obtain ⟨a, x⟩ := c
    simp only [Memory.write]
    split
    · simp [Memory.read?]
    · split
      · simp [Memory.read?]
      · rw [Memory.read?_cons, if_neg (by omega), ih]

theorem Memory.read?_write_other (m : Memory) (i j : Nat) (v : Byte) (h : j ≠ i) :
    (m.write i v).read? j = m.read? j := by
  induction m with
  | nil => simp [Memory.write, Memory.read?, Ne.symm h]
  | cons c m ih =>
    obtain ⟨a, x⟩ := c
    simp only [Memory.write]
    split
    · rw [Memory.read?_cons, if_neg (Ne.symm h)]
    · split
      · subst_vars
        rw [Memory.read?_cons, if_neg (Ne.symm h), Memory.read?_cons, if_neg (Ne.symm h)]
      · simp only [Memory.read?_cons, ih]

theorem Memory.mem_write (m : Memory) (i : Nat) (v : Byte) (c : Host.Cell) (h : c ∈ m.write i v) :
    c = (i, v) ∨ c ∈ m := by
  induction m with
  | nil => simpa [Memory.write] using h
  | cons d m ih =>
    obtain ⟨a, x⟩ := d
    simp only [Memory.write] at h
    split at h
    · simpa using h
    · split at h
      · rcases List.mem_cons.1 h with rfl | h
        · exact .inl rfl
        · exact .inr (List.mem_cons_of_mem _ h)
      · rcases List.mem_cons.1 h with rfl | h
        · exact .inr List.mem_cons_self
        · exact (ih h).imp id (List.mem_cons_of_mem _)

theorem Memory.wf_nil : Memory.wf [] := List.Pairwise.nil

/-- Every write keeps the canonical form. -/
theorem Memory.wf_write (m : Memory) (i : Nat) (v : Byte) (h : m.wf) : (m.write i v).wf := by
  induction m with
  | nil => simp [Memory.write, Memory.wf]
  | cons d m ih =>
    obtain ⟨a, x⟩ := d
    obtain ⟨ha, hm⟩ := List.pairwise_cons.1 h
    simp only [Memory.write]
    split
    · rename_i hlt
      refine List.pairwise_cons.2 ⟨fun c hc => ?_, h⟩
      rcases List.mem_cons.1 hc with rfl | hc
      · exact hlt
      · exact lt_trans hlt (ha c hc)
    · split
      · rename_i he
        exact List.pairwise_cons.2 ⟨fun c hc => he ▸ ha c hc, hm⟩
      · refine List.pairwise_cons.2 ⟨fun c hc => ?_, ih hm⟩
        rcases Memory.mem_write m i v c hc with rfl | hc
        · simp only; omega
        · exact ha c hc

theorem Memory.read?_eq_none_of_lt (m : Memory) (i : Nat) (h : ∀ c ∈ m, i < c.1) : m.read? i = none := by
  induction m with
  | nil => rfl
  | cons d m ih =>
    obtain ⟨a, x⟩ := d
    have := h (a, x) List.mem_cons_self
    rw [Memory.read?_cons, if_neg (by simp only at this; omega)]
    exact ih fun c hc => h c (List.mem_cons_of_mem _ hc)

/-- Memories in canonical form that read alike are the same data. -/
theorem Memory.ext_of_wf (m n : Memory) (hm : m.wf) (hn : n.wf) (h : ∀ i, m.read? i = n.read? i) : m = n := by
  induction m generalizing n with
  | nil =>
    cases n with
    | nil => rfl
    | cons d n => obtain ⟨b, w⟩ := d; have := h b; simp [Memory.read?_cons] at this
  | cons c m ih =>
    obtain ⟨a, v⟩ := c
    obtain ⟨ha, hm⟩ := List.pairwise_cons.1 hm
    cases n with
    | nil => have := h a; simp [Memory.read?_cons] at this
    | cons d n =>
      obtain ⟨b, w⟩ := d
      obtain ⟨hb, hn'⟩ := List.pairwise_cons.1 hn
      have hab : a = b := by
        rcases lt_trichotomy a b with hlt | he | hlt
        · have := h a
          rw [Memory.read?_cons, if_pos rfl, Memory.read?_eq_none_of_lt] at this
          · cases this
          · intro c hc
            rcases List.mem_cons.1 hc with rfl | hc
            · exact hlt
            · exact lt_trans hlt (hb c hc)
        · exact he
        · have := h b
          rw [Memory.read?_cons (i := b) (a := b), if_pos rfl, Memory.read?_eq_none_of_lt] at this
          · cases this
          · intro c hc
            rcases List.mem_cons.1 hc with rfl | hc
            · exact hlt
            · exact lt_trans hlt (ha c hc)
      subst hab
      have hvw : v = w := by simpa [Memory.read?_cons] using h a
      subst hvw
      congr 1
      refine ih n hm hn' fun i => ?_
      have := h i
      simp only [Memory.read?_cons] at this
      by_cases hi : a = i
      · subst hi
        rw [Memory.read?_eq_none_of_lt m a fun c hc => ha c hc, Memory.read?_eq_none_of_lt n a fun c hc => hb c hc]
      · simpa [hi] using this

end Sys2Proof.Machine
end

