-- ==== Sys2Proof/Laws/State.lean ====
section
/-! SUPPORT. One lemma per field per named update, so that no later proof unfolds a record update; then the same
for the accessors. -/

namespace Sys2Proof.Machine

/-! ### setFifo -/

@[simp] theorem setFifo_cfg (s : State) (F : FifoId) (f : Fifo) : (s.setFifo F f).cfg = s.cfg := rfl
@[simp] theorem setFifo_mode (s : State) (F : FifoId) (f : Fifo) : (s.setFifo F f).mode = s.mode := rfl
@[simp] theorem setFifo_silenceCount (s : State) (F : FifoId) (f : Fifo) : (s.setFifo F f).silenceCount = s.silenceCount := rfl
@[simp] theorem setFifo_lastRemote (s : State) (F : FifoId) (f : Fifo) : (s.setFifo F f).lastRemote = s.lastRemote := rfl
@[simp] theorem setFifo_rts (s : State) (F : FifoId) (f : Fifo) : (s.setFifo F f).rts = s.rts := rfl
@[simp] theorem setFifo_txIrqEn (s : State) (F : FifoId) (f : Fifo) : (s.setFifo F f).txIrqEn = s.txIrqEn := rfl
@[simp] theorem setFifo_crcErrInd (s : State) (F : FifoId) (f : Fifo) : (s.setFifo F f).crcErrInd = s.crcErrInd := rfl
@[simp] theorem setFifo_frameErrInd (s : State) (F : FifoId) (f : Fifo) : (s.setFifo F f).frameErrInd = s.frameErrInd := rfl
@[simp] theorem setFifo_ctsIn (s : State) (F : FifoId) (f : Fifo) : (s.setFifo F f).ctsIn = s.ctsIn := rfl
@[simp] theorem setFifo_txRegFullIn (s : State) (F : FifoId) (f : Fifo) : (s.setFifo F f).txRegFullIn = s.txRegFullIn := rfl
@[simp] theorem setFifo_txWire (s : State) (F : FifoId) (f : Fifo) : (s.setFifo F f).txWire = s.txWire := rfl
@[simp] theorem setFifo_rspF (s : State) (F : FifoId) (f : Fifo) : (s.setFifo F f).rspF = s.rspF := rfl
@[simp] theorem setFifo_rspI (s : State) (F : FifoId) (f : Fifo) : (s.setFifo F f).rspI = s.rspI := rfl
@[simp] theorem setFifo_results (s : State) (F : FifoId) (f : Fifo) : (s.setFifo F f).results = s.results := rfl
@[simp] theorem setFifo_cmdF (s : State) (F : FifoId) (f : Fifo) : (s.setFifo F f).cmdF = s.cmdF := rfl
@[simp] theorem setFifo_cmdI (s : State) (F : FifoId) (f : Fifo) : (s.setFifo F f).cmdI = s.cmdI := rfl
@[simp] theorem setFifo_schedule (s : State) (F : FifoId) (f : Fifo) : (s.setFifo F f).schedule = s.schedule := rfl
@[simp] theorem setFifo_port (s : State) (F : FifoId) (f : Fifo) : (s.setFifo F f).port = s.port := rfl
@[simp] theorem setFifo_cap (s : State) (F : FifoId) (f : Fifo) (F' : FifoId) : (s.setFifo F f).cap F' = s.cap F' := by simp [State.cap]

/-! ### respond -/

@[simp] theorem respond_cfg (s : State) (c : RspCode) (d : Word) : (respond c d s).cfg = s.cfg := rfl
@[simp] theorem respond_rx (s : State) (c : RspCode) (d : Word) : (respond c d s).rx = s.rx := rfl
@[simp] theorem respond_tx (s : State) (c : RspCode) (d : Word) : (respond c d s).tx = s.tx := rfl
@[simp] theorem respond_mode (s : State) (c : RspCode) (d : Word) : (respond c d s).mode = s.mode := rfl
@[simp] theorem respond_silenceCount (s : State) (c : RspCode) (d : Word) : (respond c d s).silenceCount = s.silenceCount := rfl
@[simp] theorem respond_lastRemote (s : State) (c : RspCode) (d : Word) : (respond c d s).lastRemote = s.lastRemote := rfl
@[simp] theorem respond_rts (s : State) (c : RspCode) (d : Word) : (respond c d s).rts = s.rts := rfl
@[simp] theorem respond_txIrqEn (s : State) (c : RspCode) (d : Word) : (respond c d s).txIrqEn = s.txIrqEn := rfl
@[simp] theorem respond_crcErrInd (s : State) (c : RspCode) (d : Word) : (respond c d s).crcErrInd = s.crcErrInd := rfl
@[simp] theorem respond_frameErrInd (s : State) (c : RspCode) (d : Word) : (respond c d s).frameErrInd = s.frameErrInd := rfl
@[simp] theorem respond_ctsIn (s : State) (c : RspCode) (d : Word) : (respond c d s).ctsIn = s.ctsIn := rfl
@[simp] theorem respond_txRegFullIn (s : State) (c : RspCode) (d : Word) : (respond c d s).txRegFullIn = s.txRegFullIn := rfl
@[simp] theorem respond_txWire (s : State) (c : RspCode) (d : Word) : (respond c d s).txWire = s.txWire := rfl
@[simp] theorem respond_results (s : State) (c : RspCode) (d : Word) : (respond c d s).results = s.results ++ [(s.port, ⟨c, d⟩)] := rfl
@[simp] theorem respond_cmdF (s : State) (c : RspCode) (d : Word) : (respond c d s).cmdF = s.cmdF := rfl
@[simp] theorem respond_cmdI (s : State) (c : RspCode) (d : Word) : (respond c d s).cmdI = s.cmdI := rfl
@[simp] theorem respond_schedule (s : State) (c : RspCode) (d : Word) : (respond c d s).schedule = s.schedule := rfl
@[simp] theorem respond_port (s : State) (c : RspCode) (d : Word) : (respond c d s).port = s.port := rfl
@[simp] theorem respond_fifo (s : State) (c : RspCode) (d : Word) (F : FifoId) : (respond c d s).fifo F = s.fifo F := by cases F <;> rfl
@[simp] theorem respond_byteAt (s : State) (c : RspCode) (d : Word) (F : FifoId) (i : Nat) : (respond c d s).byteAt F i = s.byteAt F i := by simp [State.byteAt]
@[simp] theorem respond_readSize (s : State) (c : RspCode) (d : Word) (F : FifoId) : readSize F (respond c d s) = readSize F s := by simp [readSize]
@[simp] theorem respond_cap (s : State) (c : RspCode) (d : Word) (F' : FifoId) : (respond c d s).cap F' = s.cap F' := by simp [State.cap]
@[simp] theorem respond_writeSpace (s : State) (c : RspCode) (d : Word) (F : FifoId) : writeSpace F (respond c d s) = writeSpace F s := by simp [writeSpace]
@[simp] theorem respond_contents (s : State) (c : RspCode) (d : Word) (F : FifoId) : (respond c d s).contents F = s.contents F := by simp [State.contents]

/-! ### respondIf -/

@[simp] theorem respondIf_cfg (s : State) (ok : Bool) (d : Word) : (respondIf ok d s).cfg = s.cfg := by cases ok <;> rfl
@[simp] theorem respondIf_rx (s : State) (ok : Bool) (d : Word) : (respondIf ok d s).rx = s.rx := by cases ok <;> rfl
@[simp] theorem respondIf_tx (s : State) (ok : Bool) (d : Word) : (respondIf ok d s).tx = s.tx := by cases ok <;> rfl
@[simp] theorem respondIf_mode (s : State) (ok : Bool) (d : Word) : (respondIf ok d s).mode = s.mode := by cases ok <;> rfl
@[simp] theorem respondIf_silenceCount (s : State) (ok : Bool) (d : Word) : (respondIf ok d s).silenceCount = s.silenceCount := by cases ok <;> rfl
@[simp] theorem respondIf_lastRemote (s : State) (ok : Bool) (d : Word) : (respondIf ok d s).lastRemote = s.lastRemote := by cases ok <;> rfl
@[simp] theorem respondIf_rts (s : State) (ok : Bool) (d : Word) : (respondIf ok d s).rts = s.rts := by cases ok <;> rfl
@[simp] theorem respondIf_txIrqEn (s : State) (ok : Bool) (d : Word) : (respondIf ok d s).txIrqEn = s.txIrqEn := by cases ok <;> rfl
@[simp] theorem respondIf_crcErrInd (s : State) (ok : Bool) (d : Word) : (respondIf ok d s).crcErrInd = s.crcErrInd := by cases ok <;> rfl
@[simp] theorem respondIf_frameErrInd (s : State) (ok : Bool) (d : Word) : (respondIf ok d s).frameErrInd = s.frameErrInd := by cases ok <;> rfl
@[simp] theorem respondIf_ctsIn (s : State) (ok : Bool) (d : Word) : (respondIf ok d s).ctsIn = s.ctsIn := by cases ok <;> rfl
@[simp] theorem respondIf_txRegFullIn (s : State) (ok : Bool) (d : Word) : (respondIf ok d s).txRegFullIn = s.txRegFullIn := by cases ok <;> rfl
@[simp] theorem respondIf_txWire (s : State) (ok : Bool) (d : Word) : (respondIf ok d s).txWire = s.txWire := by cases ok <;> rfl
@[simp] theorem respondIf_cmdF (s : State) (ok : Bool) (d : Word) : (respondIf ok d s).cmdF = s.cmdF := by cases ok <;> rfl
@[simp] theorem respondIf_cmdI (s : State) (ok : Bool) (d : Word) : (respondIf ok d s).cmdI = s.cmdI := by cases ok <;> rfl
@[simp] theorem respondIf_schedule (s : State) (ok : Bool) (d : Word) : (respondIf ok d s).schedule = s.schedule := by cases ok <;> rfl
@[simp] theorem respondIf_port (s : State) (ok : Bool) (d : Word) : (respondIf ok d s).port = s.port := by cases ok <;> rfl
@[simp] theorem respondIf_fifo (s : State) (ok : Bool) (d : Word) (F : FifoId) : (respondIf ok d s).fifo F = s.fifo F := by cases F <;> cases ok <;> rfl
@[simp] theorem respondIf_byteAt (s : State) (ok : Bool) (d : Word) (F : FifoId) (i : Nat) : (respondIf ok d s).byteAt F i = s.byteAt F i := by simp [State.byteAt]
@[simp] theorem respondIf_readSize (s : State) (ok : Bool) (d : Word) (F : FifoId) : readSize F (respondIf ok d s) = readSize F s := by simp [readSize]
@[simp] theorem respondIf_cap (s : State) (ok : Bool) (d : Word) (F' : FifoId) : (respondIf ok d s).cap F' = s.cap F' := by simp [State.cap]
@[simp] theorem respondIf_writeSpace (s : State) (ok : Bool) (d : Word) (F : FifoId) : writeSpace F (respondIf ok d s) = writeSpace F s := by simp [writeSpace]
@[simp] theorem respondIf_contents (s : State) (ok : Bool) (d : Word) (F : FifoId) : (respondIf ok d s).contents F = s.contents F := by simp [State.contents]

/-! ### raiseIllegalCommand -/

@[simp] theorem raiseIllegalCommand_cfg (s : State) : (raiseIllegalCommand s).cfg = s.cfg := rfl
@[simp] theorem raiseIllegalCommand_rx (s : State) : (raiseIllegalCommand s).rx = s.rx := rfl
@[simp] theorem raiseIllegalCommand_tx (s : State) : (raiseIllegalCommand s).tx = s.tx := rfl
@[simp] theorem raiseIllegalCommand_mode (s : State) : (raiseIllegalCommand s).mode = s.mode := rfl
@[simp] theorem raiseIllegalCommand_silenceCount (s : State) : (raiseIllegalCommand s).silenceCount = s.silenceCount := rfl
@[simp] theorem raiseIllegalCommand_lastRemote (s : State) : (raiseIllegalCommand s).lastRemote = s.lastRemote := rfl
@[simp] theorem raiseIllegalCommand_rts (s : State) : (raiseIllegalCommand s).rts = s.rts := rfl
@[simp] theorem raiseIllegalCommand_txIrqEn (s : State) : (raiseIllegalCommand s).txIrqEn = s.txIrqEn := rfl
@[simp] theorem raiseIllegalCommand_crcErrInd (s : State) : (raiseIllegalCommand s).crcErrInd = s.crcErrInd := rfl
@[simp] theorem raiseIllegalCommand_frameErrInd (s : State) : (raiseIllegalCommand s).frameErrInd = s.frameErrInd := rfl
@[simp] theorem raiseIllegalCommand_ctsIn (s : State) : (raiseIllegalCommand s).ctsIn = s.ctsIn := rfl
@[simp] theorem raiseIllegalCommand_txRegFullIn (s : State) : (raiseIllegalCommand s).txRegFullIn = s.txRegFullIn := rfl
@[simp] theorem raiseIllegalCommand_txWire (s : State) : (raiseIllegalCommand s).txWire = s.txWire := rfl
@[simp] theorem raiseIllegalCommand_cmdF (s : State) : (raiseIllegalCommand s).cmdF = s.cmdF := rfl
@[simp] theorem raiseIllegalCommand_cmdI (s : State) : (raiseIllegalCommand s).cmdI = s.cmdI := rfl
@[simp] theorem raiseIllegalCommand_schedule (s : State) : (raiseIllegalCommand s).schedule = s.schedule := rfl
@[simp] theorem raiseIllegalCommand_port (s : State) : (raiseIllegalCommand s).port = s.port := rfl
@[simp] theorem raiseIllegalCommand_fifo (s : State) (F : FifoId) : (raiseIllegalCommand s).fifo F = s.fifo F := by cases F <;> rfl
@[simp] theorem raiseIllegalCommand_byteAt (s : State) (F : FifoId) (i : Nat) : (raiseIllegalCommand s).byteAt F i = s.byteAt F i := by simp [State.byteAt]
@[simp] theorem raiseIllegalCommand_readSize (s : State) (F : FifoId) : readSize F (raiseIllegalCommand s) = readSize F s := by simp [readSize]
@[simp] theorem raiseIllegalCommand_cap (s : State) (F' : FifoId) : (raiseIllegalCommand s).cap F' = s.cap F' := by simp [State.cap]
@[simp] theorem raiseIllegalCommand_writeSpace (s : State) (F : FifoId) : writeSpace F (raiseIllegalCommand s) = writeSpace F s := by simp [writeSpace]
@[simp] theorem raiseIllegalCommand_contents (s : State) (F : FifoId) : (raiseIllegalCommand s).contents F = s.contents F := by simp [State.contents]

/-! ### rtsEval -/

@[simp] theorem rtsEval_cfg (s : State) : (rtsEval s).cfg = s.cfg := rfl
@[simp] theorem rtsEval_rx (s : State) : (rtsEval s).rx = s.rx := rfl
@[simp] theorem rtsEval_tx (s : State) : (rtsEval s).tx = s.tx := rfl
@[simp] theorem rtsEval_mode (s : State) : (rtsEval s).mode = s.mode := rfl
@[simp] theorem rtsEval_silenceCount (s : State) : (rtsEval s).silenceCount = s.silenceCount := rfl
@[simp] theorem rtsEval_lastRemote (s : State) : (rtsEval s).lastRemote = s.lastRemote := rfl
@[simp] theorem rtsEval_rts (s : State) : (rtsEval s).rts = rtsNext s.cfg (writeSpace .rx s) s.rts := rfl
@[simp] theorem rtsEval_txIrqEn (s : State) : (rtsEval s).txIrqEn = s.txIrqEn := rfl
@[simp] theorem rtsEval_crcErrInd (s : State) : (rtsEval s).crcErrInd = s.crcErrInd := rfl
@[simp] theorem rtsEval_frameErrInd (s : State) : (rtsEval s).frameErrInd = s.frameErrInd := rfl
@[simp] theorem rtsEval_ctsIn (s : State) : (rtsEval s).ctsIn = s.ctsIn := rfl
@[simp] theorem rtsEval_txRegFullIn (s : State) : (rtsEval s).txRegFullIn = s.txRegFullIn := rfl
@[simp] theorem rtsEval_txWire (s : State) : (rtsEval s).txWire = s.txWire := rfl
@[simp] theorem rtsEval_rspF (s : State) : (rtsEval s).rspF = s.rspF := rfl
@[simp] theorem rtsEval_rspI (s : State) : (rtsEval s).rspI = s.rspI := rfl
@[simp] theorem rtsEval_results (s : State) : (rtsEval s).results = s.results := rfl
@[simp] theorem rtsEval_cmdF (s : State) : (rtsEval s).cmdF = s.cmdF := rfl
@[simp] theorem rtsEval_cmdI (s : State) : (rtsEval s).cmdI = s.cmdI := rfl
@[simp] theorem rtsEval_schedule (s : State) : (rtsEval s).schedule = s.schedule := rfl
@[simp] theorem rtsEval_port (s : State) : (rtsEval s).port = s.port := rfl
@[simp] theorem rtsEval_fifo (s : State) (F : FifoId) : (rtsEval s).fifo F = s.fifo F := by cases F <;> rfl
@[simp] theorem rtsEval_byteAt (s : State) (F : FifoId) (i : Nat) : (rtsEval s).byteAt F i = s.byteAt F i := by simp [State.byteAt]
@[simp] theorem rtsEval_readSize (s : State) (F : FifoId) : readSize F (rtsEval s) = readSize F s := by simp [readSize]
@[simp] theorem rtsEval_cap (s : State) (F' : FifoId) : (rtsEval s).cap F' = s.cap F' := by simp [State.cap]
@[simp] theorem rtsEval_writeSpace (s : State) (F : FifoId) : writeSpace F (rtsEval s) = writeSpace F s := by simp [writeSpace]
@[simp] theorem rtsEval_contents (s : State) (F : FifoId) : (rtsEval s).contents F = s.contents F := by simp [State.contents]

/-! ### txIrqEval -/

@[simp] theorem txIrqEval_cfg (s : State) : (txIrqEval s).cfg = s.cfg := rfl
@[simp] theorem txIrqEval_rx (s : State) : (txIrqEval s).rx = s.rx := rfl
@[simp] theorem txIrqEval_tx (s : State) : (txIrqEval s).tx = s.tx := rfl
@[simp] theorem txIrqEval_mode (s : State) : (txIrqEval s).mode = s.mode := rfl
@[simp] theorem txIrqEval_silenceCount (s : State) : (txIrqEval s).silenceCount = s.silenceCount := rfl
@[simp] theorem txIrqEval_lastRemote (s : State) : (txIrqEval s).lastRemote = s.lastRemote := rfl
@[simp] theorem txIrqEval_rts (s : State) : (txIrqEval s).rts = s.rts := rfl
@[simp] theorem txIrqEval_txIrqEn (s : State) : (txIrqEval s).txIrqEn = (decide (0 < s.tx.count.toNat) && !s.ctsIn) := rfl
@[simp] theorem txIrqEval_crcErrInd (s : State) : (txIrqEval s).crcErrInd = s.crcErrInd := rfl
@[simp] theorem txIrqEval_frameErrInd (s : State) : (txIrqEval s).frameErrInd = s.frameErrInd := rfl
@[simp] theorem txIrqEval_ctsIn (s : State) : (txIrqEval s).ctsIn = s.ctsIn := rfl
@[simp] theorem txIrqEval_txRegFullIn (s : State) : (txIrqEval s).txRegFullIn = s.txRegFullIn := rfl
@[simp] theorem txIrqEval_txWire (s : State) : (txIrqEval s).txWire = s.txWire := rfl
@[simp] theorem txIrqEval_rspF (s : State) : (txIrqEval s).rspF = s.rspF := rfl
@[simp] theorem txIrqEval_rspI (s : State) : (txIrqEval s).rspI = s.rspI := rfl
@[simp] theorem txIrqEval_results (s : State) : (txIrqEval s).results = s.results := rfl
@[simp] theorem txIrqEval_cmdF (s : State) : (txIrqEval s).cmdF = s.cmdF := rfl
@[simp] theorem txIrqEval_cmdI (s : State) : (txIrqEval s).cmdI = s.cmdI := rfl
@[simp] theorem txIrqEval_schedule (s : State) : (txIrqEval s).schedule = s.schedule := rfl
@[simp] theorem txIrqEval_port (s : State) : (txIrqEval s).port = s.port := rfl
@[simp] theorem txIrqEval_fifo (s : State) (F : FifoId) : (txIrqEval s).fifo F = s.fifo F := by cases F <;> rfl
@[simp] theorem txIrqEval_byteAt (s : State) (F : FifoId) (i : Nat) : (txIrqEval s).byteAt F i = s.byteAt F i := by simp [State.byteAt]
@[simp] theorem txIrqEval_readSize (s : State) (F : FifoId) : readSize F (txIrqEval s) = readSize F s := by simp [readSize]
@[simp] theorem txIrqEval_cap (s : State) (F' : FifoId) : (txIrqEval s).cap F' = s.cap F' := by simp [State.cap]
@[simp] theorem txIrqEval_writeSpace (s : State) (F : FifoId) : writeSpace F (txIrqEval s) = writeSpace F s := by simp [writeSpace]
@[simp] theorem txIrqEval_contents (s : State) (F : FifoId) : (txIrqEval s).contents F = s.contents F := by simp [State.contents]

/-! ### txEmptyClear -/

@[simp] theorem txEmptyClear_cfg (s : State) : (txEmptyClear s).cfg = s.cfg := rfl
@[simp] theorem txEmptyClear_rx (s : State) : (txEmptyClear s).rx = s.rx := rfl
@[simp] theorem txEmptyClear_tx (s : State) : (txEmptyClear s).tx = s.tx := rfl
@[simp] theorem txEmptyClear_mode (s : State) : (txEmptyClear s).mode = s.mode := rfl
@[simp] theorem txEmptyClear_silenceCount (s : State) : (txEmptyClear s).silenceCount = s.silenceCount := rfl
@[simp] theorem txEmptyClear_lastRemote (s : State) : (txEmptyClear s).lastRemote = s.lastRemote := rfl
@[simp] theorem txEmptyClear_rts (s : State) : (txEmptyClear s).rts = s.rts := rfl
@[simp] theorem txEmptyClear_txIrqEn (s : State) : (txEmptyClear s).txIrqEn = if s.tx.count = 0#8 then false else s.txIrqEn := rfl
@[simp] theorem txEmptyClear_crcErrInd (s : State) : (txEmptyClear s).crcErrInd = s.crcErrInd := rfl
@[simp] theorem txEmptyClear_frameErrInd (s : State) : (txEmptyClear s).frameErrInd = s.frameErrInd := rfl
@[simp] theorem txEmptyClear_ctsIn (s : State) : (txEmptyClear s).ctsIn = s.ctsIn := rfl
@[simp] theorem txEmptyClear_txRegFullIn (s : State) : (txEmptyClear s).txRegFullIn = s.txRegFullIn := rfl
@[simp] theorem txEmptyClear_txWire (s : State) : (txEmptyClear s).txWire = s.txWire := rfl
@[simp] theorem txEmptyClear_rspF (s : State) : (txEmptyClear s).rspF = s.rspF := rfl
@[simp] theorem txEmptyClear_rspI (s : State) : (txEmptyClear s).rspI = s.rspI := rfl
@[simp] theorem txEmptyClear_results (s : State) : (txEmptyClear s).results = s.results := rfl
@[simp] theorem txEmptyClear_cmdF (s : State) : (txEmptyClear s).cmdF = s.cmdF := rfl
@[simp] theorem txEmptyClear_cmdI (s : State) : (txEmptyClear s).cmdI = s.cmdI := rfl
@[simp] theorem txEmptyClear_schedule (s : State) : (txEmptyClear s).schedule = s.schedule := rfl
@[simp] theorem txEmptyClear_port (s : State) : (txEmptyClear s).port = s.port := rfl
@[simp] theorem txEmptyClear_fifo (s : State) (F : FifoId) : (txEmptyClear s).fifo F = s.fifo F := by cases F <;> rfl
@[simp] theorem txEmptyClear_byteAt (s : State) (F : FifoId) (i : Nat) : (txEmptyClear s).byteAt F i = s.byteAt F i := by simp [State.byteAt]
@[simp] theorem txEmptyClear_readSize (s : State) (F : FifoId) : readSize F (txEmptyClear s) = readSize F s := by simp [readSize]
@[simp] theorem txEmptyClear_cap (s : State) (F' : FifoId) : (txEmptyClear s).cap F' = s.cap F' := by simp [State.cap]
@[simp] theorem txEmptyClear_writeSpace (s : State) (F : FifoId) : writeSpace F (txEmptyClear s) = writeSpace F s := by simp [writeSpace]
@[simp] theorem txEmptyClear_contents (s : State) (F : FifoId) : (txEmptyClear s).contents F = s.contents F := by simp [State.contents]

/-! ### toggleCrcErr -/

@[simp] theorem toggleCrcErr_cfg (s : State) : (toggleCrcErr s).cfg = s.cfg := rfl
@[simp] theorem toggleCrcErr_rx (s : State) : (toggleCrcErr s).rx = s.rx := rfl
@[simp] theorem toggleCrcErr_tx (s : State) : (toggleCrcErr s).tx = s.tx := rfl
@[simp] theorem toggleCrcErr_mode (s : State) : (toggleCrcErr s).mode = s.mode := rfl
@[simp] theorem toggleCrcErr_silenceCount (s : State) : (toggleCrcErr s).silenceCount = s.silenceCount := rfl
@[simp] theorem toggleCrcErr_lastRemote (s : State) : (toggleCrcErr s).lastRemote = s.lastRemote := rfl
@[simp] theorem toggleCrcErr_rts (s : State) : (toggleCrcErr s).rts = s.rts := rfl
@[simp] theorem toggleCrcErr_txIrqEn (s : State) : (toggleCrcErr s).txIrqEn = s.txIrqEn := rfl
@[simp] theorem toggleCrcErr_crcErrInd (s : State) : (toggleCrcErr s).crcErrInd = !s.crcErrInd := rfl
@[simp] theorem toggleCrcErr_frameErrInd (s : State) : (toggleCrcErr s).frameErrInd = s.frameErrInd := rfl
@[simp] theorem toggleCrcErr_ctsIn (s : State) : (toggleCrcErr s).ctsIn = s.ctsIn := rfl
@[simp] theorem toggleCrcErr_txRegFullIn (s : State) : (toggleCrcErr s).txRegFullIn = s.txRegFullIn := rfl
@[simp] theorem toggleCrcErr_txWire (s : State) : (toggleCrcErr s).txWire = s.txWire := rfl
@[simp] theorem toggleCrcErr_rspF (s : State) : (toggleCrcErr s).rspF = s.rspF := rfl
@[simp] theorem toggleCrcErr_rspI (s : State) : (toggleCrcErr s).rspI = s.rspI := rfl
@[simp] theorem toggleCrcErr_results (s : State) : (toggleCrcErr s).results = s.results := rfl
@[simp] theorem toggleCrcErr_cmdF (s : State) : (toggleCrcErr s).cmdF = s.cmdF := rfl
@[simp] theorem toggleCrcErr_cmdI (s : State) : (toggleCrcErr s).cmdI = s.cmdI := rfl
@[simp] theorem toggleCrcErr_schedule (s : State) : (toggleCrcErr s).schedule = s.schedule := rfl
@[simp] theorem toggleCrcErr_port (s : State) : (toggleCrcErr s).port = s.port := rfl
@[simp] theorem toggleCrcErr_fifo (s : State) (F : FifoId) : (toggleCrcErr s).fifo F = s.fifo F := by cases F <;> rfl
@[simp] theorem toggleCrcErr_byteAt (s : State) (F : FifoId) (i : Nat) : (toggleCrcErr s).byteAt F i = s.byteAt F i := by simp [State.byteAt]
@[simp] theorem toggleCrcErr_readSize (s : State) (F : FifoId) : readSize F (toggleCrcErr s) = readSize F s := by simp [readSize]
@[simp] theorem toggleCrcErr_cap (s : State) (F' : FifoId) : (toggleCrcErr s).cap F' = s.cap F' := by simp [State.cap]
@[simp] theorem toggleCrcErr_writeSpace (s : State) (F : FifoId) : writeSpace F (toggleCrcErr s) = writeSpace F s := by simp [writeSpace]
@[simp] theorem toggleCrcErr_contents (s : State) (F : FifoId) : (toggleCrcErr s).contents F = s.contents F := by simp [State.contents]

/-! ### toggleFrameErr -/

@[simp] theorem toggleFrameErr_cfg (s : State) : (toggleFrameErr s).cfg = s.cfg := rfl
@[simp] theorem toggleFrameErr_rx (s : State) : (toggleFrameErr s).rx = s.rx := rfl
@[simp] theorem toggleFrameErr_tx (s : State) : (toggleFrameErr s).tx = s.tx := rfl
@[simp] theorem toggleFrameErr_mode (s : State) : (toggleFrameErr s).mode = s.mode := rfl
@[simp] theorem toggleFrameErr_silenceCount (s : State) : (toggleFrameErr s).silenceCount = s.silenceCount := rfl
@[simp] theorem toggleFrameErr_lastRemote (s : State) : (toggleFrameErr s).lastRemote = s.lastRemote := rfl
@[simp] theorem toggleFrameErr_rts (s : State) : (toggleFrameErr s).rts = s.rts := rfl
@[simp] theorem toggleFrameErr_txIrqEn (s : State) : (toggleFrameErr s).txIrqEn = s.txIrqEn := rfl
@[simp] theorem toggleFrameErr_crcErrInd (s : State) : (toggleFrameErr s).crcErrInd = s.crcErrInd := rfl
@[simp] theorem toggleFrameErr_frameErrInd (s : State) : (toggleFrameErr s).frameErrInd = if s.cfg.startErrToggle then !s.frameErrInd else s.frameErrInd := rfl
@[simp] theorem toggleFrameErr_ctsIn (s : State) : (toggleFrameErr s).ctsIn = s.ctsIn := rfl
@[simp] theorem toggleFrameErr_txRegFullIn (s : State) : (toggleFrameErr s).txRegFullIn = s.txRegFullIn := rfl
@[simp] theorem toggleFrameErr_txWire (s : State) : (toggleFrameErr s).txWire = s.txWire := rfl
@[simp] theorem toggleFrameErr_rspF (s : State) : (toggleFrameErr s).rspF = s.rspF := rfl
@[simp] theorem toggleFrameErr_rspI (s : State) : (toggleFrameErr s).rspI = s.rspI := rfl
@[simp] theorem toggleFrameErr_results (s : State) : (toggleFrameErr s).results = s.results := rfl
@[simp] theorem toggleFrameErr_cmdF (s : State) : (toggleFrameErr s).cmdF = s.cmdF := rfl
@[simp] theorem toggleFrameErr_cmdI (s : State) : (toggleFrameErr s).cmdI = s.cmdI := rfl
@[simp] theorem toggleFrameErr_schedule (s : State) : (toggleFrameErr s).schedule = s.schedule := rfl
@[simp] theorem toggleFrameErr_port (s : State) : (toggleFrameErr s).port = s.port := rfl
@[simp] theorem toggleFrameErr_fifo (s : State) (F : FifoId) : (toggleFrameErr s).fifo F = s.fifo F := by cases F <;> rfl
@[simp] theorem toggleFrameErr_byteAt (s : State) (F : FifoId) (i : Nat) : (toggleFrameErr s).byteAt F i = s.byteAt F i := by simp [State.byteAt]
@[simp] theorem toggleFrameErr_readSize (s : State) (F : FifoId) : readSize F (toggleFrameErr s) = readSize F s := by simp [readSize]
@[simp] theorem toggleFrameErr_cap (s : State) (F' : FifoId) : (toggleFrameErr s).cap F' = s.cap F' := by simp [State.cap]
@[simp] theorem toggleFrameErr_writeSpace (s : State) (F : FifoId) : writeSpace F (toggleFrameErr s) = writeSpace F s := by simp [writeSpace]
@[simp] theorem toggleFrameErr_contents (s : State) (F : FifoId) : (toggleFrameErr s).contents F = s.contents F := by simp [State.contents]

/-! ### pollOfSilence -/

@[simp] theorem pollOfSilence_cfg (s : State) : (pollOfSilence s).cfg = s.cfg := rfl
@[simp] theorem pollOfSilence_rx (s : State) : (pollOfSilence s).rx = s.rx := rfl
@[simp] theorem pollOfSilence_tx (s : State) : (pollOfSilence s).tx = s.tx := rfl
@[simp] theorem pollOfSilence_mode (s : State) : (pollOfSilence s).mode = if (silenceNext s.cfg s.silenceCount).toNat = s.cfg.silenceCeil then .LOCAL else s.mode := rfl
@[simp] theorem pollOfSilence_silenceCount (s : State) : (pollOfSilence s).silenceCount = silenceNext s.cfg s.silenceCount := rfl
@[simp] theorem pollOfSilence_lastRemote (s : State) : (pollOfSilence s).lastRemote = s.lastRemote := rfl
@[simp] theorem pollOfSilence_rts (s : State) : (pollOfSilence s).rts = s.rts := rfl
@[simp] theorem pollOfSilence_txIrqEn (s : State) : (pollOfSilence s).txIrqEn = s.txIrqEn := rfl
@[simp] theorem pollOfSilence_crcErrInd (s : State) : (pollOfSilence s).crcErrInd = s.crcErrInd := rfl
@[simp] theorem pollOfSilence_frameErrInd (s : State) : (pollOfSilence s).frameErrInd = s.frameErrInd := rfl
@[simp] theorem pollOfSilence_ctsIn (s : State) : (pollOfSilence s).ctsIn = s.ctsIn := rfl
@[simp] theorem pollOfSilence_txRegFullIn (s : State) : (pollOfSilence s).txRegFullIn = s.txRegFullIn := rfl
@[simp] theorem pollOfSilence_txWire (s : State) : (pollOfSilence s).txWire = s.txWire := rfl
@[simp] theorem pollOfSilence_rspF (s : State) : (pollOfSilence s).rspF = s.rspF := rfl
@[simp] theorem pollOfSilence_rspI (s : State) : (pollOfSilence s).rspI = s.rspI := rfl
@[simp] theorem pollOfSilence_results (s : State) : (pollOfSilence s).results = s.results := rfl
@[simp] theorem pollOfSilence_cmdF (s : State) : (pollOfSilence s).cmdF = s.cmdF := rfl
@[simp] theorem pollOfSilence_cmdI (s : State) : (pollOfSilence s).cmdI = s.cmdI := rfl
@[simp] theorem pollOfSilence_schedule (s : State) : (pollOfSilence s).schedule = s.schedule := rfl
@[simp] theorem pollOfSilence_port (s : State) : (pollOfSilence s).port = s.port := rfl
@[simp] theorem pollOfSilence_fifo (s : State) (F : FifoId) : (pollOfSilence s).fifo F = s.fifo F := by cases F <;> rfl
@[simp] theorem pollOfSilence_byteAt (s : State) (F : FifoId) (i : Nat) : (pollOfSilence s).byteAt F i = s.byteAt F i := by simp [State.byteAt]
@[simp] theorem pollOfSilence_readSize (s : State) (F : FifoId) : readSize F (pollOfSilence s) = readSize F s := by simp [readSize]
@[simp] theorem pollOfSilence_cap (s : State) (F' : FifoId) : (pollOfSilence s).cap F' = s.cap F' := by simp [State.cap]
@[simp] theorem pollOfSilence_writeSpace (s : State) (F : FifoId) : writeSpace F (pollOfSilence s) = writeSpace F s := by simp [writeSpace]
@[simp] theorem pollOfSilence_contents (s : State) (F : FifoId) : (pollOfSilence s).contents F = s.contents F := by simp [State.contents]

/-! ### acceptFrame -/

@[simp] theorem acceptFrame_cfg (s : State) (cv : Word) : (acceptFrame cv s).cfg = s.cfg := rfl
@[simp] theorem acceptFrame_rx (s : State) (cv : Word) : (acceptFrame cv s).rx = s.rx := rfl
@[simp] theorem acceptFrame_tx (s : State) (cv : Word) : (acceptFrame cv s).tx = s.tx := rfl
@[simp] theorem acceptFrame_mode (s : State) (cv : Word) : (acceptFrame cv s).mode = .REMOTE := rfl
@[simp] theorem acceptFrame_silenceCount (s : State) (cv : Word) : (acceptFrame cv s).silenceCount = 0#8 := rfl
@[simp] theorem acceptFrame_lastRemote (s : State) (cv : Word) : (acceptFrame cv s).lastRemote = cv := rfl
@[simp] theorem acceptFrame_rts (s : State) (cv : Word) : (acceptFrame cv s).rts = s.rts := rfl
@[simp] theorem acceptFrame_txIrqEn (s : State) (cv : Word) : (acceptFrame cv s).txIrqEn = s.txIrqEn := rfl
@[simp] theorem acceptFrame_crcErrInd (s : State) (cv : Word) : (acceptFrame cv s).crcErrInd = s.crcErrInd := rfl
@[simp] theorem acceptFrame_frameErrInd (s : State) (cv : Word) : (acceptFrame cv s).frameErrInd = s.frameErrInd := rfl
@[simp] theorem acceptFrame_ctsIn (s : State) (cv : Word) : (acceptFrame cv s).ctsIn = s.ctsIn := rfl
@[simp] theorem acceptFrame_txRegFullIn (s : State) (cv : Word) : (acceptFrame cv s).txRegFullIn = s.txRegFullIn := rfl
@[simp] theorem acceptFrame_txWire (s : State) (cv : Word) : (acceptFrame cv s).txWire = s.txWire := rfl
@[simp] theorem acceptFrame_rspF (s : State) (cv : Word) : (acceptFrame cv s).rspF = s.rspF := rfl
@[simp] theorem acceptFrame_rspI (s : State) (cv : Word) : (acceptFrame cv s).rspI = s.rspI := rfl
@[simp] theorem acceptFrame_results (s : State) (cv : Word) : (acceptFrame cv s).results = s.results := rfl
@[simp] theorem acceptFrame_cmdF (s : State) (cv : Word) : (acceptFrame cv s).cmdF = s.cmdF := rfl
@[simp] theorem acceptFrame_cmdI (s : State) (cv : Word) : (acceptFrame cv s).cmdI = s.cmdI := rfl
@[simp] theorem acceptFrame_schedule (s : State) (cv : Word) : (acceptFrame cv s).schedule = s.schedule := rfl
@[simp] theorem acceptFrame_port (s : State) (cv : Word) : (acceptFrame cv s).port = s.port := rfl
@[simp] theorem acceptFrame_fifo (s : State) (cv : Word) (F : FifoId) : (acceptFrame cv s).fifo F = s.fifo F := by cases F <;> rfl
@[simp] theorem acceptFrame_byteAt (s : State) (cv : Word) (F : FifoId) (i : Nat) : (acceptFrame cv s).byteAt F i = s.byteAt F i := by simp [State.byteAt]
@[simp] theorem acceptFrame_readSize (s : State) (cv : Word) (F : FifoId) : readSize F (acceptFrame cv s) = readSize F s := by simp [readSize]
@[simp] theorem acceptFrame_cap (s : State) (cv : Word) (F' : FifoId) : (acceptFrame cv s).cap F' = s.cap F' := by simp [State.cap]
@[simp] theorem acceptFrame_writeSpace (s : State) (cv : Word) (F : FifoId) : writeSpace F (acceptFrame cv s) = writeSpace F s := by simp [writeSpace]
@[simp] theorem acceptFrame_contents (s : State) (cv : Word) (F : FifoId) : (acceptFrame cv s).contents F = s.contents F := by simp [State.contents]

/-! ### sendOnWire -/

@[simp] theorem sendOnWire_cfg (s : State) (v : Byte) : (sendOnWire v s).cfg = s.cfg := rfl
@[simp] theorem sendOnWire_rx (s : State) (v : Byte) : (sendOnWire v s).rx = s.rx := rfl
@[simp] theorem sendOnWire_tx (s : State) (v : Byte) : (sendOnWire v s).tx = s.tx := rfl
@[simp] theorem sendOnWire_mode (s : State) (v : Byte) : (sendOnWire v s).mode = s.mode := rfl
@[simp] theorem sendOnWire_silenceCount (s : State) (v : Byte) : (sendOnWire v s).silenceCount = s.silenceCount := rfl
@[simp] theorem sendOnWire_lastRemote (s : State) (v : Byte) : (sendOnWire v s).lastRemote = s.lastRemote := rfl
@[simp] theorem sendOnWire_rts (s : State) (v : Byte) : (sendOnWire v s).rts = s.rts := rfl
@[simp] theorem sendOnWire_txIrqEn (s : State) (v : Byte) : (sendOnWire v s).txIrqEn = s.txIrqEn := rfl
@[simp] theorem sendOnWire_crcErrInd (s : State) (v : Byte) : (sendOnWire v s).crcErrInd = s.crcErrInd := rfl
@[simp] theorem sendOnWire_frameErrInd (s : State) (v : Byte) : (sendOnWire v s).frameErrInd = s.frameErrInd := rfl
@[simp] theorem sendOnWire_ctsIn (s : State) (v : Byte) : (sendOnWire v s).ctsIn = s.ctsIn := rfl
@[simp] theorem sendOnWire_txRegFullIn (s : State) (v : Byte) : (sendOnWire v s).txRegFullIn = s.txRegFullIn := rfl
@[simp] theorem sendOnWire_txWire (s : State) (v : Byte) : (sendOnWire v s).txWire = s.txWire ++ [v] := rfl
@[simp] theorem sendOnWire_rspF (s : State) (v : Byte) : (sendOnWire v s).rspF = s.rspF := rfl
@[simp] theorem sendOnWire_rspI (s : State) (v : Byte) : (sendOnWire v s).rspI = s.rspI := rfl
@[simp] theorem sendOnWire_results (s : State) (v : Byte) : (sendOnWire v s).results = s.results := rfl
@[simp] theorem sendOnWire_cmdF (s : State) (v : Byte) : (sendOnWire v s).cmdF = s.cmdF := rfl
@[simp] theorem sendOnWire_cmdI (s : State) (v : Byte) : (sendOnWire v s).cmdI = s.cmdI := rfl
@[simp] theorem sendOnWire_schedule (s : State) (v : Byte) : (sendOnWire v s).schedule = s.schedule := rfl
@[simp] theorem sendOnWire_port (s : State) (v : Byte) : (sendOnWire v s).port = s.port := rfl
@[simp] theorem sendOnWire_fifo (s : State) (v : Byte) (F : FifoId) : (sendOnWire v s).fifo F = s.fifo F := by cases F <;> rfl
@[simp] theorem sendOnWire_byteAt (s : State) (v : Byte) (F : FifoId) (i : Nat) : (sendOnWire v s).byteAt F i = s.byteAt F i := by simp [State.byteAt]
@[simp] theorem sendOnWire_readSize (s : State) (v : Byte) (F : FifoId) : readSize F (sendOnWire v s) = readSize F s := by simp [readSize]
@[simp] theorem sendOnWire_cap (s : State) (v : Byte) (F' : FifoId) : (sendOnWire v s).cap F' = s.cap F' := by simp [State.cap]
@[simp] theorem sendOnWire_writeSpace (s : State) (v : Byte) (F : FifoId) : writeSpace F (sendOnWire v s) = writeSpace F s := by simp [writeSpace]
@[simp] theorem sendOnWire_contents (s : State) (v : Byte) (F : FifoId) : (sendOnWire v s).contents F = s.contents F := by simp [State.contents]

/-! ### initialise -/

@[simp] theorem initialise_cfg (s : State) : (initialise s).cfg = s.cfg := rfl
@[simp] theorem initialise_rx (s : State) : (initialise s).rx = s.rx.emptied := rfl
@[simp] theorem initialise_tx (s : State) : (initialise s).tx = s.tx.emptied := rfl
@[simp] theorem initialise_mode (s : State) : (initialise s).mode = .LOCAL := rfl
@[simp] theorem initialise_silenceCount (s : State) : (initialise s).silenceCount = 0#8 := rfl
@[simp] theorem initialise_lastRemote (s : State) : (initialise s).lastRemote = 0#32 := rfl
@[simp] theorem initialise_rts (s : State) : (initialise s).rts = false := rfl
@[simp] theorem initialise_txIrqEn (s : State) : (initialise s).txIrqEn = false := rfl
@[simp] theorem initialise_crcErrInd (s : State) : (initialise s).crcErrInd = false := rfl
@[simp] theorem initialise_frameErrInd (s : State) : (initialise s).frameErrInd = false := rfl
@[simp] theorem initialise_ctsIn (s : State) : (initialise s).ctsIn = s.ctsIn := rfl
@[simp] theorem initialise_txRegFullIn (s : State) : (initialise s).txRegFullIn = s.txRegFullIn := rfl
@[simp] theorem initialise_txWire (s : State) : (initialise s).txWire = s.txWire := rfl
@[simp] theorem initialise_rspF (s : State) : (initialise s).rspF = s.rspF := rfl
@[simp] theorem initialise_rspI (s : State) : (initialise s).rspI = s.rspI := rfl
@[simp] theorem initialise_results (s : State) : (initialise s).results = s.results := rfl
@[simp] theorem initialise_cmdF (s : State) : (initialise s).cmdF = s.cmdF := rfl
@[simp] theorem initialise_cmdI (s : State) : (initialise s).cmdI = s.cmdI := rfl
@[simp] theorem initialise_schedule (s : State) : (initialise s).schedule = s.schedule := rfl
@[simp] theorem initialise_port (s : State) : (initialise s).port = s.port := rfl
@[simp] theorem initialise_cap (s : State) (F' : FifoId) : (initialise s).cap F' = s.cap F' := by simp [State.cap]

/-! ### powerOnReset -/

@[simp] theorem powerOnReset_cfg (s : State) : (powerOnReset s).cfg = s.cfg := rfl
@[simp] theorem powerOnReset_rx (s : State) : (powerOnReset s).rx = Fifo.reset := rfl
@[simp] theorem powerOnReset_tx (s : State) : (powerOnReset s).tx = Fifo.reset := rfl
@[simp] theorem powerOnReset_mode (s : State) : (powerOnReset s).mode = .LOCAL := rfl
@[simp] theorem powerOnReset_silenceCount (s : State) : (powerOnReset s).silenceCount = 0#8 := rfl
@[simp] theorem powerOnReset_lastRemote (s : State) : (powerOnReset s).lastRemote = 0#32 := rfl
@[simp] theorem powerOnReset_rts (s : State) : (powerOnReset s).rts = false := rfl
@[simp] theorem powerOnReset_txIrqEn (s : State) : (powerOnReset s).txIrqEn = false := rfl
@[simp] theorem powerOnReset_crcErrInd (s : State) : (powerOnReset s).crcErrInd = false := rfl
@[simp] theorem powerOnReset_frameErrInd (s : State) : (powerOnReset s).frameErrInd = false := rfl
@[simp] theorem powerOnReset_ctsIn (s : State) : (powerOnReset s).ctsIn = s.ctsIn := rfl
@[simp] theorem powerOnReset_txRegFullIn (s : State) : (powerOnReset s).txRegFullIn = s.txRegFullIn := rfl
@[simp] theorem powerOnReset_txWire (s : State) : (powerOnReset s).txWire = [] := rfl
@[simp] theorem powerOnReset_rspF (s : State) : (powerOnReset s).rspF = Response.reset := rfl
@[simp] theorem powerOnReset_rspI (s : State) : (powerOnReset s).rspI = Response.reset := rfl
@[simp] theorem powerOnReset_results (s : State) : (powerOnReset s).results = [] := rfl
@[simp] theorem powerOnReset_cmdF (s : State) : (powerOnReset s).cmdF = s.cmdF := rfl
@[simp] theorem powerOnReset_cmdI (s : State) : (powerOnReset s).cmdI = s.cmdI := rfl
@[simp] theorem powerOnReset_schedule (s : State) : (powerOnReset s).schedule = s.schedule := rfl
@[simp] theorem powerOnReset_port (s : State) : (powerOnReset s).port = s.port := rfl
@[simp] theorem powerOnReset_cap (s : State) (F' : FifoId) : (powerOnReset s).cap F' = s.cap F' := by simp [State.cap]

/-! ### setPending -/

@[simp] theorem setPending_cfg (s : State) (p : Port) (ws : List Word) : (s.setPending p ws).cfg = s.cfg := rfl
@[simp] theorem setPending_rx (s : State) (p : Port) (ws : List Word) : (s.setPending p ws).rx = s.rx := rfl
@[simp] theorem setPending_tx (s : State) (p : Port) (ws : List Word) : (s.setPending p ws).tx = s.tx := rfl
@[simp] theorem setPending_mode (s : State) (p : Port) (ws : List Word) : (s.setPending p ws).mode = s.mode := rfl
@[simp] theorem setPending_silenceCount (s : State) (p : Port) (ws : List Word) : (s.setPending p ws).silenceCount = s.silenceCount := rfl
@[simp] theorem setPending_lastRemote (s : State) (p : Port) (ws : List Word) : (s.setPending p ws).lastRemote = s.lastRemote := rfl
@[simp] theorem setPending_rts (s : State) (p : Port) (ws : List Word) : (s.setPending p ws).rts = s.rts := rfl
@[simp] theorem setPending_txIrqEn (s : State) (p : Port) (ws : List Word) : (s.setPending p ws).txIrqEn = s.txIrqEn := rfl
@[simp] theorem setPending_crcErrInd (s : State) (p : Port) (ws : List Word) : (s.setPending p ws).crcErrInd = s.crcErrInd := rfl
@[simp] theorem setPending_frameErrInd (s : State) (p : Port) (ws : List Word) : (s.setPending p ws).frameErrInd = s.frameErrInd := rfl
@[simp] theorem setPending_ctsIn (s : State) (p : Port) (ws : List Word) : (s.setPending p ws).ctsIn = s.ctsIn := rfl
@[simp] theorem setPending_txRegFullIn (s : State) (p : Port) (ws : List Word) : (s.setPending p ws).txRegFullIn = s.txRegFullIn := rfl
@[simp] theorem setPending_txWire (s : State) (p : Port) (ws : List Word) : (s.setPending p ws).txWire = s.txWire := rfl
@[simp] theorem setPending_rspF (s : State) (p : Port) (ws : List Word) : (s.setPending p ws).rspF = s.rspF := rfl
@[simp] theorem setPending_rspI (s : State) (p : Port) (ws : List Word) : (s.setPending p ws).rspI = s.rspI := rfl
@[simp] theorem setPending_results (s : State) (p : Port) (ws : List Word) : (s.setPending p ws).results = s.results := rfl
@[simp] theorem setPending_schedule (s : State) (p : Port) (ws : List Word) : (s.setPending p ws).schedule = s.schedule := rfl
@[simp] theorem setPending_port (s : State) (p : Port) (ws : List Word) : (s.setPending p ws).port = s.port := rfl
@[simp] theorem setPending_fifo (s : State) (p : Port) (ws : List Word) (F : FifoId) : (s.setPending p ws).fifo F = s.fifo F := by cases F <;> rfl
@[simp] theorem setPending_byteAt (s : State) (p : Port) (ws : List Word) (F : FifoId) (i : Nat) : (s.setPending p ws).byteAt F i = s.byteAt F i := by simp [State.byteAt]
@[simp] theorem setPending_readSize (s : State) (p : Port) (ws : List Word) (F : FifoId) : readSize F (s.setPending p ws) = readSize F s := by simp [readSize]
@[simp] theorem setPending_cap (s : State) (p : Port) (ws : List Word) (F' : FifoId) : (s.setPending p ws).cap F' = s.cap F' := by simp [State.cap]
@[simp] theorem setPending_writeSpace (s : State) (p : Port) (ws : List Word) (F : FifoId) : writeSpace F (s.setPending p ws) = writeSpace F s := by simp [writeSpace]
@[simp] theorem setPending_contents (s : State) (p : Port) (ws : List Word) (F : FifoId) : (s.setPending p ws).contents F = s.contents F := by simp [State.contents]

/-! ### Results -/

@[simp] theorem respond_rsp_self (s : State) (c : RspCode) (d : Word) : (respond c d s).rsp s.port = ⟨c, d⟩ := by
  cases h : s.port <;> simp [State.rsp, respond, h]

theorem respond_rsp_other (s : State) (c : RspCode) (d : Word) (p : Port) (h : p ≠ s.port) :
    (respond c d s).rsp p = s.rsp p := by
  cases p <;> cases hp : s.port <;> simp_all [State.rsp, respond]

theorem respond_rspF_of_F (s : State) (c : RspCode) (d : Word) (h : s.port = .F) :
    (respond c d s).rspF = ⟨c, d⟩ := by simp [respond, h]

theorem respond_rspI_of_F (s : State) (c : RspCode) (d : Word) (h : s.port = .F) :
    (respond c d s).rspI = s.rspI := by simp [respond, h]

theorem respond_rspI_of_I (s : State) (c : RspCode) (d : Word) (h : s.port = .I) :
    (respond c d s).rspI = ⟨c, d⟩ := by simp [respond, h]

theorem respond_rspF_of_I (s : State) (c : RspCode) (d : Word) (h : s.port = .I) :
    (respond c d s).rspF = s.rspF := by simp [respond, h]

/-! ### setFifo -/

@[simp] theorem setFifo_fifo_same (s : State) (F : FifoId) (f : Fifo) : (s.setFifo F f).fifo F = f := by
  cases F <;> rfl

theorem setFifo_fifo_other (s : State) (F G : FifoId) (f : Fifo) (h : G ≠ F) :
    (s.setFifo F f).fifo G = s.fifo G := by
  cases F <;> cases G <;> first | rfl | exact absurd rfl h

@[simp] theorem setFifo_setFifo (s : State) (F : FifoId) (f g : Fifo) :
    (s.setFifo F f).setFifo F g = s.setFifo F g := by
  cases F <;> rfl

@[simp] theorem setFifo_self (s : State) (F : FifoId) : s.setFifo F (s.fifo F) = s := by
  cases F <;> rfl

@[simp] theorem setFifo_rx_rx (s : State) (f : Fifo) : (s.setFifo .rx f).rx = f := rfl
@[simp] theorem setFifo_rx_tx (s : State) (f : Fifo) : (s.setFifo .rx f).tx = s.tx := rfl
@[simp] theorem setFifo_tx_rx (s : State) (f : Fifo) : (s.setFifo .tx f).rx = s.rx := rfl
@[simp] theorem setFifo_tx_tx (s : State) (f : Fifo) : (s.setFifo .tx f).tx = f := rfl

@[simp] theorem fifo_rx (s : State) : s.fifo .rx = s.rx := rfl
@[simp] theorem fifo_tx (s : State) : s.fifo .tx = s.tx := rfl
@[simp] theorem cap_rx (s : State) : s.cap .rx = s.cfg.rxCap := rfl
@[simp] theorem cap_tx (s : State) : s.cap .tx = s.cfg.txCap := rfl

end Sys2Proof.Machine
end

