-- ==== Sys2Proof/Laws/Fifo.lean ====
section
/-! SUPPORT. One law per FIFO primitive: everything FifoPut and FifoGet can do, what they leave alone, and what
they do to the stored bytes of a FIFO that is as 10_state.md R33 says. -/

namespace Sys2Proof.Machine

/-- The state after a successful FifoPut (40_fifo.md R110). -/
def afterPut (F : FifoId) (b : Byte) (s : State) : State :=
  s.setFifo F
    { buf := (s.fifo F).buf.write (s.fifo F).wr.toNat b
      rd := (s.fifo F).rd
      wr := advance (s.cap F) (s.fifo F).wr
      count := (s.fifo F).count + 1#8 }

/-- The state after a successful FifoGet (40_fifo.md R112). -/
def afterGet (F : FifoId) (s : State) : State :=
  s.setFifo F
    { buf := (s.fifo F).buf
      rd := advance (s.cap F) (s.fifo F).rd
      wr := (s.fifo F).wr
      count := (s.fifo F).count - 1#8 }

/-! ### What the primitives answer -/

theorem fifoPut_full (F : FifoId) (b : Byte) (s : State) (h : readSize F s = s.cap F) :
    fifoPut F b s = .ok (s, false) := by
  simp only [readSize] at h
  simp [fifoPut, h]

theorem fifoPut_room (F : FifoId) (b : Byte) (s : State) (h : readSize F s ≠ s.cap F)
    (hw : (s.fifo F).wr.toNat < s.cap F) : fifoPut F b s = .ok (afterPut F b s, true) := by
  simp only [readSize] at h
  simp [fifoPut, h, memWrite, hw, afterPut]

/-- Everything FifoPut can answer. -/
theorem fifoPut_cases {F : FifoId} {b : Byte} {s t : State} {ok : Bool} (h : fifoPut F b s = .ok (t, ok)) :
    (ok = false ∧ t = s ∧ readSize F s = s.cap F) ∨
    (ok = true ∧ t = afterPut F b s ∧ readSize F s ≠ s.cap F ∧ (s.fifo F).wr.toNat < s.cap F) := by
  by_cases hc : readSize F s = s.cap F
  · rw [fifoPut_full F b s hc] at h
    simp only [Except.ok.injEq, Prod.mk.injEq] at h
    exact .inl ⟨h.2.symm, h.1.symm, hc⟩
  · by_cases hw : (s.fifo F).wr.toNat < s.cap F
    · rw [fifoPut_room F b s hc hw] at h
      simp only [Except.ok.injEq, Prod.mk.injEq] at h
      exact .inr ⟨h.2.symm, h.1.symm, hc, hw⟩
    · simp only [readSize] at hc
      simp [fifoPut, hc, memWrite, hw] at h

theorem fifoGet_empty (F : FifoId) (s : State) (h : (s.fifo F).count = 0#8) :
    fifoGet F s = .ok (0#8, false, s) := by
  simp [fifoGet, h]

theorem fifoGet_some (F : FifoId) (s : State) (h : (s.fifo F).count ≠ 0#8)
    (hr : (s.fifo F).rd.toNat < s.cap F) :
    fifoGet F s = .ok (s.byteAt F (s.fifo F).rd.toNat, true, afterGet F s) := by
  simp [fifoGet, h, memRead, hr, afterGet]

/-- Everything FifoGet can answer. -/
theorem fifoGet_cases {F : FifoId} {s t : State} {v : Byte} {ok : Bool} (h : fifoGet F s = .ok (v, ok, t)) :
    (ok = false ∧ t = s ∧ v = 0#8 ∧ (s.fifo F).count = 0#8) ∨
    (ok = true ∧ t = afterGet F s ∧ v = s.byteAt F (s.fifo F).rd.toNat ∧ (s.fifo F).count ≠ 0#8 ∧
      (s.fifo F).rd.toNat < s.cap F) := by
  by_cases hc : (s.fifo F).count = 0#8
  · rw [fifoGet_empty F s hc] at h
    simp only [Except.ok.injEq, Prod.mk.injEq] at h
    exact .inl ⟨h.2.1.symm, h.2.2.symm, h.1.symm, hc⟩
  · by_cases hr : (s.fifo F).rd.toNat < s.cap F
    · rw [fifoGet_some F s hc hr] at h
      simp only [Except.ok.injEq, Prod.mk.injEq] at h
      exact .inr ⟨h.2.1.symm, h.2.2.symm, h.1.symm, hc, hr⟩
    · simp [fifoGet, hc, memRead, hr] at h

/-! ### Fields after a put and a get -/

@[simp] theorem afterPut_fifo_same (F : FifoId) (b : Byte) (s : State) : (afterPut F b s).fifo F =
    { buf := (s.fifo F).buf.write (s.fifo F).wr.toNat b, rd := (s.fifo F).rd,
      wr := advance (s.cap F) (s.fifo F).wr, count := (s.fifo F).count + 1#8 } := by simp [afterPut]

@[simp] theorem afterGet_fifo_same (F : FifoId) (s : State) : (afterGet F s).fifo F =
    { buf := (s.fifo F).buf, rd := advance (s.cap F) (s.fifo F).rd, wr := (s.fifo F).wr,
      count := (s.fifo F).count - 1#8 } := by simp [afterGet]

theorem afterPut_fifo_other (F G : FifoId) (b : Byte) (s : State) (h : G ≠ F) :
    (afterPut F b s).fifo G = s.fifo G := by simp [afterPut, setFifo_fifo_other _ _ _ _ h]

theorem afterGet_fifo_other (F G : FifoId) (s : State) (h : G ≠ F) :
    (afterGet F s).fifo G = s.fifo G := by simp [afterGet, setFifo_fifo_other _ _ _ _ h]

@[simp] theorem afterPut_cap (F G : FifoId) (b : Byte) (s : State) : (afterPut F b s).cap G = s.cap G := by
  simp [afterPut]

@[simp] theorem afterGet_cap (F G : FifoId) (s : State) : (afterGet F s).cap G = s.cap G := by
  simp [afterGet]

/-- A put's frame: every field but the two FIFOs. -/
theorem afterPut_frame (F : FifoId) (b : Byte) (s : State) :
    afterPut F b s = { s with rx := (afterPut F b s).rx, tx := (afterPut F b s).tx } := rfl

/-- A get's frame: every field but the two FIFOs. -/
theorem afterGet_frame (F : FifoId) (s : State) :
    afterGet F s = { s with rx := (afterGet F s).rx, tx := (afterGet F s).tx } := rfl

/-! ### Counts and cursors as numbers -/

theorem advance_toNat (cap : Nat) (c : Byte) (h0 : 0 < cap) (h : cap ≤ 255) :
    (advance cap c).toNat = (c.toNat + 1) % cap := by
  have : (c.toNat + 1) % cap < cap := Nat.mod_lt _ h0
  simp only [advance, BitVec.toNat_ofNat]
  omega

theorem readSize_afterPut (F : FifoId) (b : Byte) (s : State) (h : readSize F s < 255) :
    readSize F (afterPut F b s) = readSize F s + 1 := by
  simp only [readSize] at h
  simp only [readSize, afterPut_fifo_same, BitVec.toNat_add, BitVec.toNat_ofNat]
  omega

theorem readSize_afterGet (F : FifoId) (s : State) (h : 0 < readSize F s) :
    readSize F (afterGet F s) = readSize F s - 1 := by
  simp only [readSize] at h
  have := (s.fifo F).count.isLt
  simp only [readSize, afterGet_fifo_same, BitVec.toNat_sub, BitVec.toNat_ofNat]
  omega

theorem readSize_pos_iff (F : FifoId) (s : State) : 0 < readSize F s ↔ (s.fifo F).count ≠ 0#8 := by
  simp only [readSize, ne_eq, ← BitVec.toNat_inj, BitVec.toNat_ofNat]
  omega

/-! ### The invariant of a FIFO and its stored bytes -/

theorem State.FifoOk.wr_lt {s : State} {F : FifoId} (h : s.FifoOk F) : (s.fifo F).wr.toNat < s.cap F := by
  rw [h.wr_eq]; exact Nat.mod_lt _ (lt_of_le_of_lt (Nat.zero_le _) h.rd_lt)

theorem mod_ne_of_lt {cap a k n : Nat} (hk : k < n) (hn : n < cap) : (a + k) % cap ≠ (a + n) % cap := by
  intro h
  have h1 := Nat.sub_mod_eq_zero_of_mod_eq h.symm
  rw [Nat.add_sub_add_left, Nat.mod_eq_of_lt (by omega)] at h1
  omega

@[simp] theorem contents_length (s : State) (F : FifoId) : (s.contents F).length = readSize F s := by
  simp [State.contents]

theorem fifoOk_afterPut {s : State} {F : FifoId} (b : Byte) (h : s.FifoOk F) (hc : s.cap F ≤ 255)
    (hr : readSize F s < s.cap F) : (afterPut F b s).FifoOk F := by
  have hcap : 0 < s.cap F := lt_of_le_of_lt (Nat.zero_le _) h.rd_lt
  have hsz := readSize_afterPut F b s (by omega)
  refine ⟨?_, ?_, ?_, ?_, ?_, ?_⟩
  · rw [hsz, afterPut_cap]; omega
  · simpa using h.rd_lt
  · rw [hsz, afterPut_cap, afterPut_fifo_same]
    simp only
    rw [advance_toNat _ _ hcap hc, h.wr_eq, Nat.mod_add_mod, Nat.add_assoc]
  · rw [afterPut_fifo_same]; exact Memory.wf_write _ _ _ h.storage_wf
  · intro c hmem
    rw [afterPut_fifo_same] at hmem
    rw [afterPut_cap]
    rcases Memory.mem_write _ _ _ _ hmem with rfl | hmem
    · exact h.wr_lt
    · exact h.storage_lt c hmem
  · intro k hk
    rw [hsz] at hk
    rw [afterPut_fifo_same, afterPut_cap]
    simp only
    rcases Nat.lt_succ_iff_lt_or_eq.1 hk with hk | rfl
    · obtain ⟨v, hv⟩ := h.stored_put k hk
      refine ⟨v, ?_⟩
      rw [Memory.read?_write_other _ _ _ _ (by rw [h.wr_eq]; exact mod_ne_of_lt hk hr), hv]
    · exact ⟨b, by rw [← h.wr_eq, Memory.read?_write_same]⟩

theorem contents_afterPut {s : State} {F : FifoId} (b : Byte) (h : s.FifoOk F) (hc : s.cap F ≤ 255)
    (hr : readSize F s < s.cap F) : (afterPut F b s).contents F = s.contents F ++ [b] := by
  have hsz := readSize_afterPut F b s (by omega)
  simp only [State.contents, hsz, List.range_succ, List.map_append, List.map_cons, List.map_nil, afterPut_cap]
  congr 1
  · refine List.map_congr_left fun k hk => ?_
    have hk := List.mem_range.1 hk
    simp only [State.byteAt, afterPut_fifo_same]
    rw [Memory.read?_write_other _ _ _ _ (by rw [h.wr_eq]; exact mod_ne_of_lt hk hr)]
  · simp only [State.byteAt, afterPut_fifo_same, ← h.wr_eq, Memory.read?_write_same, Option.getD_some]

theorem fifoOk_afterGet {s : State} {F : FifoId} (h : s.FifoOk F) (hc : s.cap F ≤ 255)
    (hr : 0 < readSize F s) : (afterGet F s).FifoOk F := by
  have hcap : 0 < s.cap F := lt_of_le_of_lt (Nat.zero_le _) h.rd_lt
  have hsz := readSize_afterGet F s hr
  refine ⟨?_, ?_, ?_, ?_, ?_, ?_⟩
  · rw [hsz, afterGet_cap]; have := h.count_le; omega
  · rw [afterGet_fifo_same, afterGet_cap]
    simp only
    rw [advance_toNat _ _ hcap hc]
    exact Nat.mod_lt _ hcap
  · rw [hsz, afterGet_cap, afterGet_fifo_same]
    simp only
    rw [advance_toNat _ _ hcap hc, h.wr_eq, Nat.mod_add_mod]
    congr 1; omega
  · rw [afterGet_fifo_same]; exact h.storage_wf
  · rw [afterGet_fifo_same, afterGet_cap]; exact h.storage_lt
  · intro k hk
    rw [hsz] at hk
    rw [afterGet_fifo_same, afterGet_cap]
    simp only
    rw [advance_toNat _ _ hcap hc, Nat.mod_add_mod, Nat.add_assoc, Nat.add_comm 1 k]
    exact h.stored_put (k + 1) (by omega)

theorem contents_eq_cons {s : State} {F : FifoId} (h : s.FifoOk F) (hc : s.cap F ≤ 255) (hr : 0 < readSize F s) :
    s.contents F = s.byteAt F (s.fifo F).rd.toNat :: (afterGet F s).contents F := by
  have hcap : 0 < s.cap F := lt_of_le_of_lt (Nat.zero_le _) h.rd_lt
  have hsz := readSize_afterGet F s hr
  obtain ⟨n, hn⟩ : ∃ n, readSize F s = n + 1 := ⟨readSize F s - 1, by omega⟩
  simp only [State.contents, hsz, hn, List.range_succ_eq_map, List.map_cons, Nat.add_zero, Nat.add_sub_cancel,
    Nat.mod_eq_of_lt h.rd_lt, List.map_map, afterGet_cap]
  congr 1
  refine List.map_congr_left fun k _ => ?_
  simp only [Function.comp, State.byteAt, afterGet_fifo_same, advance_toNat _ _ hcap hc, Nat.mod_add_mod]
  rw [Nat.succ_eq_add_one, show (s.fifo F).rd.toNat + 1 + k = (s.fifo F).rd.toNat + (k + 1) by omega]

/-- A FIFO that an update does not touch stays as it was. -/
theorem State.FifoOk.congr {s t : State} {F : FifoId} (h : s.FifoOk F) (hf : t.fifo F = s.fifo F)
    (hc : t.cap F = s.cap F) : t.FifoOk F := by
  refine ⟨?_, ?_, ?_, ?_, ?_, ?_⟩
  · simpa [readSize, hf, hc] using h.count_le
  · simpa [hf, hc] using h.rd_lt
  · simpa [readSize, hf, hc] using h.wr_eq
  · simpa [hf] using h.storage_wf
  · simpa [hf, hc] using h.storage_lt
  · simpa [readSize, hf, hc] using h.stored_put

theorem contents_congr {s t : State} {F : FifoId} (hf : t.fifo F = s.fifo F) (hc : t.cap F = s.cap F) :
    t.contents F = s.contents F := by
  simp [State.contents, readSize, State.byteAt, hf, hc]

end Sys2Proof.Machine
end

