-- ==== Sys2Proof/Laws/Ops.lean ====
section
/-! SUPPORT. One law per shared operation above the FIFO primitives: the port check, a row of puts, a window of
five gets, the two halves of a CRC, and what a turn and a step can do. -/

namespace Sys2Proof.Machine

/-! ### The port check -/

theorem onAllowedPort_of_allowed {i : Instr} {s : State} (e : Host.Outcome State Fault Refusal)
    (h : allowedOn i s.port = true) : onAllowedPort i s e = e := by simp [onAllowedPort, h]

theorem onAllowedPort_of_not {i : Instr} {s : State} (e : Host.Outcome State Fault Refusal)
    (h : allowedOn i s.port = false) : onAllowedPort i s e = .next (raiseIllegalCommand s) := by
  simp [onAllowedPort, h]

/-- Everything a command behind the port check can answer. -/
theorem onAllowedPort_cases {i : Instr} {s t : State} {e : Host.Outcome State Fault Refusal}
    (h : onAllowedPort i s e = .next t) :
    (allowedOn i s.port = true ∧ e = .next t) ∨ (allowedOn i s.port = false ∧ t = raiseIllegalCommand s) := by
  cases ha : allowedOn i s.port
  · rw [onAllowedPort_of_not e ha] at h
    exact .inr ⟨rfl, by simpa using h.symm⟩
  · rw [onAllowedPort_of_allowed e ha] at h
    exact .inl ⟨rfl, h⟩

/-- No command behind the port check is off its role and has an effect: every arm of exec is behind the check. -/
theorem exec_of_not_allowed (i : Instr) (s : State) (h : allowedOn i s.port = false) :
    exec i s = .next (raiseIllegalCommand s) := by
  cases i <;> exact onAllowedPort_of_not _ h

/-! ### Results -/

theorem answers_respond (s t : State) (c : RspCode) (d : Word) (hp : t.port = s.port) (hF : t.rspF = s.rspF)
    (hI : t.rspI = s.rspI) (hr : t.results = s.results) : s.Answers (respond c d t) c d := by
  refine ⟨?_, ?_, ?_⟩
  · rw [← hp, respond_rsp_self]
  · intro q hq
    rw [respond_rsp_other _ _ _ _ (by rw [hp]; exact hq)]
    cases q <;> simp [State.rsp, hF, hI]
  · simp [hp, hr]

theorem onlyResult_respond (s : State) (c : RspCode) (d : Word) : s.OnlyResult (respond c d s) := rfl

theorem answers_raiseIllegalCommand (s : State) : s.Answers (raiseIllegalCommand s) .ILLEGAL 0#32 :=
  answers_respond s s _ _ rfl rfl rfl rfl

/-! ### A row of puts -/

/-- Puts that fit are all stored, in order (40_fifo.md R110, R122). -/
theorem fifoPutAll_room (F : FifoId) (bs : List Byte) : ∀ s : State, s.FifoOk F → s.cap F ≤ 255 →
    readSize F s + bs.length ≤ s.cap F →
    ∃ t, fifoPutAll F bs s = .ok t ∧ t.FifoOk F ∧ t.contents F = s.contents F ++ bs ∧ t.cap F = s.cap F := by
  induction bs with
  | nil => intro s h _ _; exact ⟨s, rfl, h, by simp, rfl⟩
  | cons b bs ih =>
    intro s h hc hr
    simp only [List.length_cons] at hr
    have hlt : readSize F s < s.cap F := by omega
    obtain ⟨t, ht, hok, hcont, hcap⟩ := ih (afterPut F b s) (fifoOk_afterPut b h hc hlt)
      (by simpa using hc) (by rw [readSize_afterPut F b s (by omega), afterPut_cap]; omega)
    refine ⟨t, ?_, hok, ?_, ?_⟩
    · rw [fifoPutAll, fifoPut_room F b s (by omega) h.wr_lt]; exact ht
    · rw [hcont, contents_afterPut b h hc hlt]; simp
    · rw [hcap, afterPut_cap]

/-- The frame of a row of puts: the other FIFO and every field but the FIFO put to. -/
theorem fifoPutAll_frame (F : FifoId) (bs : List Byte) : ∀ s t : State, fifoPutAll F bs s = .ok t →
    t = s.setFifo F (t.fifo F) := by
  induction bs with
  | nil => intro s t h; simp only [fifoPutAll, Except.ok.injEq] at h; subst h; simp
  | cons b bs ih =>
    intro s t h
    simp only [fifoPutAll] at h
    split at h
    · cases h
    · rename_i s1 ok hput
      have h1 := ih s1 t h
      rcases fifoPut_cases hput with ⟨-, rfl, -⟩ | ⟨-, rfl, -, -⟩
      · exact h1
      · rw [h1]; simp [afterPut]

/-- Where a row of puts writes: at most at the bs.length indexes from the write cursor on. -/
theorem fifoPutAll_bytes (F : FifoId) (bs : List Byte) : ∀ s t : State, s.cap F ≤ 255 →
    fifoPutAll F bs s = .ok t → ∀ a, (∀ k < bs.length, a ≠ ((s.fifo F).wr.toNat + k) % s.cap F) →
    t.byteAt F a = s.byteAt F a := by
  induction bs with
  | nil => intro s t _ h a _; simp only [fifoPutAll, Except.ok.injEq] at h; rw [h]
  | cons b bs ih =>
    intro s t hc h a ha
    simp only [fifoPutAll] at h
    split at h
    · cases h
    · rename_i s1 ok hput
      rcases fifoPut_cases hput with ⟨-, rfl, hfull⟩ | ⟨-, rfl, -, hw⟩
      · exact ih s1 t hc h a fun k hk => ha k (by simp only [List.length_cons]; omega)
      · rw [ih _ t (by simpa using hc) h a ?_]
        · have h0 := ha 0 (by simp)
          rw [Nat.add_zero, Nat.mod_eq_of_lt hw] at h0
          simp only [State.byteAt, afterPut_fifo_same, Memory.read?_write_other _ _ _ _ h0]
        · intro k hk
          have hk' := ha (k + 1) (by simp only [List.length_cons]; omega)
          rw [afterPut_fifo_same, afterPut_cap]
          simp only
          rw [advance_toNat _ _ (by omega) hc, Nat.mod_add_mod, Nat.add_assoc, Nat.add_comm 1 k]
          exact hk'

/-! ### A window of five gets -/

/-- A window taken from a FIFO that stores at least five bytes is its five oldest, in order (42_frame_link.md R160). -/
theorem takeWindow_of_contents {s : State} {b0 b1 b2 b3 b4 : Byte} {rest : List Byte} (h : s.FifoOk .rx)
    (hc : s.cap .rx ≤ 255) (hcont : s.contents .rx = b0 :: b1 :: b2 :: b3 :: b4 :: rest) :
    ∃ t, takeWindow s = .ok (⟨b0, b1, b2, b3, b4⟩, t) ∧ t.FifoOk .rx ∧ t.contents .rx = rest ∧
      t = { s with rx := { s.rx with rd := t.rx.rd, count := t.rx.count } } := by
  have get : ∀ (u : State) (v : Byte) (l : List Byte), u.FifoOk .rx → u.cap .rx ≤ 255 → u.contents .rx = v :: l →
      fifoGet .rx u = .ok (v, true, afterGet .rx u) ∧ (afterGet .rx u).FifoOk .rx ∧
        (afterGet .rx u).cap .rx ≤ 255 ∧ (afterGet .rx u).contents .rx = l := by
    intro u v l hu hcu hl
    have hpos : 0 < readSize .rx u := by rw [← contents_length, hl]; simp
    have hcons := contents_eq_cons hu hcu hpos
    rw [hl] at hcons
    obtain ⟨hv, hl'⟩ := List.cons.inj hcons
    refine ⟨?_, fifoOk_afterGet hu hcu hpos, by rw [afterGet_cap]; exact hcu, hl'.symm⟩
    rw [fifoGet_some .rx u ((readSize_pos_iff _ _).1 hpos) hu.rd_lt, hv]
  obtain ⟨g0, o0, c0, l0⟩ := get s b0 _ h hc hcont
  obtain ⟨g1, o1, c1, l1⟩ := get _ b1 _ o0 c0 l0
  obtain ⟨g2, o2, c2, l2⟩ := get _ b2 _ o1 c1 l1
  obtain ⟨g3, o3, c3, l3⟩ := get _ b3 _ o2 c2 l2
  obtain ⟨g4, o4, c4, l4⟩ := get _ b4 _ o3 c3 l3
  refine ⟨_, ?_, o4, l4, rfl⟩
  simp [takeWindow, g0, g1, g2, g3, g4, bind, Except.bind]

/-- The frame of a get. -/
theorem fifoGet_frame {F : FifoId} {s t : State} {v : Byte} {ok : Bool} (h : fifoGet F s = .ok (v, ok, t)) :
    t = s.setFifo F { s.fifo F with rd := (t.fifo F).rd, count := (t.fifo F).count } := by
  rcases fifoGet_cases h with ⟨-, rfl, -, -⟩ | ⟨-, rfl, -, -, -⟩
  · exact (setFifo_self _ _).symm
  · simp [afterGet]

/-- The frame of a window: only RX's read cursor and count move. -/
theorem takeWindow_frame {s t : State} {w : Window} (h : takeWindow s = .ok (w, t)) :
    t = { s with rx := { s.rx with rd := t.rx.rd, count := t.rx.count } } := by
  have one : ∀ {u v : State} {b : Byte} {ok : Bool}, fifoGet .rx u = .ok (b, ok, v) →
      u = { s with rx := { s.rx with rd := u.rx.rd, count := u.rx.count } } →
      v = { s with rx := { s.rx with rd := v.rx.rd, count := v.rx.count } } := by
    intro u v b ok hg hu
    have hv := fifoGet_frame hg
    rw [hv, hu]
    rfl
  simp only [takeWindow, bind, Except.bind] at h
  split at h
  · cases h
  rename_i x0 g0
  split at h
  · cases h
  rename_i x1 g1
  split at h
  · cases h
  rename_i x2 g2
  split at h
  · cases h
  rename_i x3 g3
  split at h
  · cases h
  rename_i x4 g4
  simp only [Except.ok.injEq, Prod.mk.injEq] at h
  rw [← h.2]
  exact one g4 (one g3 (one g2 (one g1 (one g0 rfl))))

/-! ### The two halves of a CRC -/

theorem getLsbD_append_bytes (hi lo : Byte) (i : Nat) :
    (hi ++ lo : Half).getLsbD i = if i < 8 then lo.getLsbD i else hi.getLsbD (i - 8) :=
  BitVec.getLsbD_append

/-- The shift-and-or of 20_memory.md R62 is concatenation. -/
theorem crcOfBytes_eq_append (hi lo : Byte) : crcOfBytes hi lo = hi ++ lo := by
  apply BitVec.eq_of_getLsbD_eq
  intro i hi'
  rw [getLsbD_append_bytes]
  simp only [crcOfBytes, BitVec.getLsbD_or, BitVec.getLsbD_shiftLeft, BitVec.getLsbD_setWidth]
  by_cases h : i < 8
  · simp [h, hi']
  · have : lo.getLsbD i = false := BitVec.getLsbD_of_ge _ _ (by omega)
    simp [h, this, hi', show i - 8 < 16 by omega]

theorem crcHi_append_crcLo (c : Half) : (crcHi c ++ crcLo c : Half) = c := by
  apply BitVec.eq_of_getLsbD_eq
  intro i h
  rw [getLsbD_append_bytes]
  simp only [crcHi, crcLo, BitVec.getLsbD_extractLsb']
  by_cases h8 : i < 8
  · simp [h8]
  · simp [h8, show i - 8 < 8 by omega, show 8 + (i - 8) = i by omega]

@[simp] theorem crcOfBytes_halves (c : Half) : crcOfBytes (crcHi c) (crcLo c) = c := by
  rw [crcOfBytes_eq_append, crcHi_append_crcLo]

theorem crcOfBytes_inj (h l h' l' : Byte) (e : crcOfBytes h l = crcOfBytes h' l') : h = h' ∧ l = l' := by
  simp only [crcOfBytes_eq_append] at e
  have key : ∀ i, (if i < 8 then l.getLsbD i else h.getLsbD (i - 8)) =
      (if i < 8 then l'.getLsbD i else h'.getLsbD (i - 8)) := fun i => by
    rw [← getLsbD_append_bytes, ← getLsbD_append_bytes, e]
  constructor
  · apply BitVec.eq_of_getLsbD_eq
    intro i _
    have := key (i + 8)
    rwa [if_neg (by omega), if_neg (by omega), Nat.add_sub_cancel] at this
  · apply BitVec.eq_of_getLsbD_eq
    intro i hi
    have := key i
    rwa [if_pos hi, if_pos hi] at this

/-! ### Turns and steps -/

theorem step_of_legal {s : State} (h : s.cfg.WellFormed) : step s = advanceSchedule s := by
  simp only [step, if_pos h]

theorem step_of_illegal {s : State} (h : ¬ s.cfg.WellFormed) : step s = .refused .illegalConfiguration := by
  simp only [step, if_neg h]

/-- Everything a step can do when it answers a next state. -/
theorem step_cases {s t : State} (h : step s = .next t) : s.cfg.WellFormed ∧
    ((s.schedule = [] ∧ t = s) ∨
     ∃ ts, (∃ v, s.schedule = .setCtsIn v :: ts ∧ t = { s with ctsIn := v, schedule := ts }) ∨
      (∃ v, s.schedule = .setTxRegFullIn v :: ts ∧ t = { s with txRegFullIn := v, schedule := ts }) ∨
      (s.schedule = .powerOn :: ts ∧ t = powerOnReset { s with schedule := ts }) ∨
      ∃ p, s.schedule = .issue p :: ts ∧
        ((s.pending p = [] ∧ t = { s with schedule := ts }) ∨
         ∃ w ws, s.pending p = w :: ws ∧
          ((∃ i, decode w = .ok i ∧ exec i { s.setPending p ws with schedule := ts, port := p } = .next t) ∨
           (∃ e, decode w = .error e ∧
             t = raiseIllegalCommand { s.setPending p ws with schedule := ts, port := p })))) := by
  by_cases hl : s.cfg.WellFormed
  · refine ⟨hl, ?_⟩
    rw [step_of_legal hl, advanceSchedule] at h
    split at h
    · rename_i hs
      exact .inl ⟨hs, by simpa using h.symm⟩
    · rename_i turn ts hs
      refine .inr ⟨ts, ?_⟩
      cases turn with
      | setCtsIn v => exact .inl ⟨v, hs, by simpa [takeTurn] using h.symm⟩
      | setTxRegFullIn v => exact .inr (.inl ⟨v, hs, by simpa [takeTurn] using h.symm⟩)
      | powerOn => exact .inr (.inr (.inl ⟨hs, by simpa [takeTurn] using h.symm⟩))
      | issue p =>
        refine .inr (.inr (.inr ⟨p, hs, ?_⟩))
        have hp : State.pending { s with schedule := ts } p = s.pending p := by cases p <;> rfl
        simp only [takeTurn, issueNext, hp] at h
        split at h
        · rename_i hq
          exact .inl ⟨hq, by simpa using h.symm⟩
        · rename_i w ws hq
          refine .inr ⟨w, ws, hq, ?_⟩
          simp only [runWord] at h
          split at h
          · rename_i i hd
            exact .inl ⟨i, hd, h⟩
          · rename_i e hd
            exact .inr ⟨e, hd, by injection h with h; exact h.symm⟩
  · rw [step_of_illegal hl] at h
    cases h

end Sys2Proof.Machine
end

