-- ==== Sys2Proof/Laws/Decode.lean ====
section
/-! SUPPORT. The laws of command words: a word is its opcode over its payload, and which row it selects is read
off the two parts. -/

namespace Sys2Proof.Machine

theorem getLsbD_word (o : Byte) (p : BitVec 24) (i : Nat) :
    (o ++ p : Word).getLsbD i = if i < 24 then p.getLsbD i else o.getLsbD (i - 24) := BitVec.getLsbD_append

theorem getLsbD_payloadB (b : Byte) (i : Nat) :
    (payloadB b).getLsbD i = if i < 8 then b.getLsbD i else (0#16).getLsbD (i - 8) := BitVec.getLsbD_append

theorem getLsbD_payloadC (c : Half) (b : Byte) (i : Nat) :
    (payloadC c b).getLsbD i = if i < 8 then b.getLsbD i else c.getLsbD (i - 8) := BitVec.getLsbD_append

theorem getLsbD_payloadV (s a : Byte) (i : Nat) :
    (payloadV s a).getLsbD i = if i < 8 then a.getLsbD i else (0#8 ++ s : Half).getLsbD (i - 8) := BitVec.getLsbD_append

/-- The payload field, bits [23:0] (30_encoding.md R81). -/
def fieldPayload (w : Word) : BitVec 24 := w.extractLsb' 0 24

@[simp] theorem fieldOpcode_word (o : Byte) (p : BitVec 24) : fieldOpcode (o ++ p : Word) = o := by
  apply BitVec.eq_of_getLsbD_eq
  intro i hi
  simp [fieldOpcode, getLsbD_word, hi]

@[simp] theorem fieldPayload_word (o : Byte) (p : BitVec 24) : fieldPayload (o ++ p : Word) = p := by
  apply BitVec.eq_of_getLsbD_eq
  intro i hi
  simp [fieldPayload, getLsbD_word, hi]

/-- A word is its opcode over its payload (30_encoding.md R81). -/
theorem word_eq_opcode_payload (w : Word) : w = (fieldOpcode w ++ fieldPayload w : Word) := by
  apply BitVec.eq_of_getLsbD_eq
  intro i hi
  simp only [getLsbD_word, fieldOpcode, fieldPayload, BitVec.getLsbD_extractLsb']
  by_cases h : i < 24
  · simp [h]
  · simp [h, show i - 24 < 8 by omega, show 24 + (i - 24) = i by omega]

theorem word_inj (o o' : Byte) (p p' : BitVec 24) : (o ++ p : Word) = (o' ++ p' : Word) ↔ o = o' ∧ p = p' := by
  refine ⟨fun h => ⟨?_, ?_⟩, by rintro ⟨rfl, rfl⟩; rfl⟩
  · rw [← fieldOpcode_word o p, h, fieldOpcode_word]
  · rw [← fieldPayload_word o p, h, fieldPayload_word]

/-- A mask that covers the opcode field compares it whole (30_encoding.md R91). -/
theorem word_and_mask (o : Byte) (p m : BitVec 24) :
    (o ++ p : Word) &&& (0xFF#8 ++ m : Word) = (o ++ (p &&& m) : Word) := by
  apply BitVec.eq_of_getLsbD_eq
  intro i hi
  rw [BitVec.getLsbD_and, getLsbD_word, getLsbD_word, getLsbD_word]
  split
  · rw [BitVec.getLsbD_and]
  · have : (0xFF#8).getLsbD (i - 24) = true := by
      rw [show (0xFF#8) = BitVec.allOnes 8 from rfl, BitVec.getLsbD_allOnes]
      simp only [decide_eq_true_eq]; omega
    rw [this, Bool.and_true]

/-- Every row of the opcode map compares the whole opcode field: each mask column has FF on top (30_encoding.md R87). -/
theorem opcodeMap_masks_opcode : ∀ r ∈ opcodeMap, fieldOpcode r.mask = 0xFF#8 := by decide

/-- Which row a word selects, read off its opcode and its payload. -/
theorem selects_opcode_payload (o : Byte) (p : BitVec 24) (r : OpcodeRow) (hr : r ∈ opcodeMap) :
    r.selects (o ++ p : Word) =
      (decide (o = fieldOpcode r.pattern) && decide (p &&& fieldPayload r.mask = fieldPayload r.pattern)) := by
  have hmask : r.mask = (0xFF#8 ++ fieldPayload r.mask : Word) := by
    rw [← opcodeMap_masks_opcode r hr]; exact word_eq_opcode_payload r.mask
  rw [OpcodeRow.selects, hmask, word_and_mask, Bool.eq_iff_iff, beq_iff_eq, fieldPayload_word]
  conv_lhs => rw [word_eq_opcode_payload r.pattern, word_inj]
  simp

/-- The decoder on a word given as opcode and payload. -/
theorem decode_opcode_payload (o : Byte) (p : BitVec 24) : decode (o ++ p : Word) =
    match opcodeMap.find? (fun r => decide (o = fieldOpcode r.pattern) &&
      decide (p &&& fieldPayload r.mask = fieldPayload r.pattern)) with
    | some r => .ok (r.build (o ++ p : Word))
    | none => .error (rejection (o ++ p : Word)) :=
  congrArg (fun x : Option OpcodeRow => match x with
    | some r => (.ok (r.build (o ++ p : Word)) : Except DecodeError Instr)
    | none => .error (rejection (o ++ p : Word))) (List.find?_congr (selects_opcode_payload o p))

/-! ### Operand fields of a word and of the payloads -/

theorem fieldB_word (o : Byte) (p : BitVec 24) : fieldB (o ++ p : Word) = p.extractLsb' 0 8 := by
  apply BitVec.eq_of_getLsbD_eq
  intro i hi
  simp [fieldB, getLsbD_word, hi, show i < 24 by omega]

theorem fieldC_word (o : Byte) (p : BitVec 24) : fieldC (o ++ p : Word) = p.extractLsb' 8 16 := by
  apply BitVec.eq_of_getLsbD_eq
  intro i hi
  simp [fieldC, getLsbD_word, hi, show 8 + i < 24 by omega]

theorem fieldS_word (o : Byte) (p : BitVec 24) : fieldS (o ++ p : Word) = p.extractLsb' 8 8 := by
  apply BitVec.eq_of_getLsbD_eq
  intro i hi
  simp [fieldS, getLsbD_word, hi, show 8 + i < 24 by omega]

theorem fieldA_word (o : Byte) (p : BitVec 24) : fieldA (o ++ p : Word) = p.extractLsb' 0 8 := fieldB_word o p

theorem payloadB_fields (b : Byte) : (payloadB b).extractLsb' 0 8 = b ∧ (payloadB b) &&& 0xFFFF00#24 = 0#24 := by
  constructor
  · apply BitVec.eq_of_getLsbD_eq
    intro i hi
    simp [getLsbD_payloadB, hi]
  · revert b; decide

theorem payloadC_fields (c : Half) (b : Byte) :
    (payloadC c b).extractLsb' 0 8 = b ∧ (payloadC c b).extractLsb' 8 16 = c := by
  constructor <;> (apply BitVec.eq_of_getLsbD_eq; intro i hi; simp [getLsbD_payloadC, hi])

theorem payloadV_fields (s a : Byte) : (payloadV s a).extractLsb' 0 8 = a ∧ (payloadV s a).extractLsb' 8 8 = s ∧
    (payloadV s a) &&& 0xFF0000#24 = 0#24 := by
  refine ⟨?_, ?_, ?_⟩
  · apply BitVec.eq_of_getLsbD_eq
    intro i hi
    simp [getLsbD_payloadV, hi]
  · apply BitVec.eq_of_getLsbD_eq
    intro i hi
    simp [getLsbD_payloadV, getLsbD_append_bytes, hi]
  · apply BitVec.eq_of_getLsbD_eq
    intro i hi
    rw [BitVec.getLsbD_and, getLsbD_payloadV, getLsbD_append_bytes]
    have hm : ∀ j < 24, (0xFF0000#24).getLsbD j = decide (16 ≤ j) := by decide
    rw [hm i hi]
    by_cases h16 : i < 16
    · simp [show ¬ 16 ≤ i by omega]
    · simp [show ¬ i < 8 by omega, show ¬ (i - 8 < 8) by omega]

end Sys2Proof.Machine
end

