-- ==== Sys2Proof/Laws/Exec.lean ====
section
/-! SUPPORT. One inversion law per command: everything it can answer when it answers a next state. The first case of
each is the port check (60_exceptions.md R241). Then the law that says once what every command leaves alone. -/

namespace Sys2Proof.Machine

theorem exec_init_cases {s t : State} (h : exec .init s = .next t) :
    (s.port = .I ∧ t = raiseIllegalCommand s) ∨ (s.port = .F ∧ t = respond .OK 0#32 (initialise s)) := by
  rcases onAllowedPort_cases h with ⟨ha, he⟩ | ⟨ha, rfl⟩ <;> cases hp : s.port <;>
    simp_all [allowedOn, portsOf]

theorem exec_status_next {s : State} : exec .status s = .next (respond .OK (statusWord s) s) :=
  onAllowedPort_of_allowed _ (by cases s.port <;> rfl)

theorem exec_lastRemote_cases {s t : State} (h : exec .lastRemote s = .next t) :
    (s.port = .I ∧ t = raiseIllegalCommand s) ∨ (s.port = .F ∧ t = respond .OK s.lastRemote s) := by
  rcases onAllowedPort_cases h with ⟨ha, he⟩ | ⟨ha, rfl⟩ <;> cases hp : s.port <;>
    simp_all [allowedOn, portsOf]

/-- A put's answer (40_fifo.md R113, R117). -/
theorem putAndRespond_cases {F : FifoId} {b : Byte} {s t : State} (h : finish (putAndRespond F b s) = .next t) :
    (readSize F s = s.cap F ∧ t = respond .NONE 0#32 s) ∨
    (readSize F s ≠ s.cap F ∧ (s.fifo F).wr.toNat < s.cap F ∧ t = respond .OK 0#32 (afterPut F b s)) := by
  simp only [finish, putAndRespond] at h
  cases hput : fifoPut F b s with
  | error e => simp [hput] at h
  | ok x =>
    obtain ⟨u, ok⟩ := x
    simp only [hput, Host.Outcome.next.injEq] at h
    rcases fifoPut_cases hput with ⟨rfl, rfl, hf⟩ | ⟨rfl, rfl, hf, hw⟩
    · exact .inl ⟨hf, h.symm⟩
    · exact .inr ⟨hf, hw, h.symm⟩

theorem exec_rxfPut_cases {b : Byte} {s t : State} (h : exec (.rxfPut b) s = .next t) :
    (s.port = .F ∧ t = raiseIllegalCommand s) ∨
    (s.port = .I ∧ readSize .rx s = s.cap .rx ∧ t = respond .NONE 0#32 s) ∨
    (s.port = .I ∧ readSize .rx s ≠ s.cap .rx ∧ s.rx.wr.toNat < s.cap .rx ∧
      t = respond .OK 0#32 (afterPut .rx b s)) := by
  rcases onAllowedPort_cases h with ⟨ha, he⟩ | ⟨ha, rfl⟩
  · have hp : s.port = .I := by cases hp : s.port <;> simp_all [allowedOn, portsOf]
    rcases putAndRespond_cases he with ⟨h1, h2⟩ | ⟨h1, h2, h3⟩
    · exact .inr (.inl ⟨hp, h1, h2⟩)
    · exact .inr (.inr ⟨hp, h1, h2, h3⟩)
  · exact .inl ⟨by cases hp : s.port <;> simp_all [allowedOn, portsOf], rfl⟩

theorem exec_txfPut_cases {b : Byte} {s t : State} (h : exec (.txfPut b) s = .next t) :
    (s.port = .I ∧ t = raiseIllegalCommand s) ∨
    (s.port = .F ∧ readSize .tx s = s.cap .tx ∧ t = respond .NONE 0#32 s) ∨
    (s.port = .F ∧ readSize .tx s ≠ s.cap .tx ∧ s.tx.wr.toNat < s.cap .tx ∧
      t = respond .OK 0#32 (afterPut .tx b s)) := by
  rcases onAllowedPort_cases h with ⟨ha, he⟩ | ⟨ha, rfl⟩
  · have hp : s.port = .F := by cases hp : s.port <;> simp_all [allowedOn, portsOf]
    rcases putAndRespond_cases he with ⟨h1, h2⟩ | ⟨h1, h2, h3⟩
    · exact .inr (.inl ⟨hp, h1, h2⟩)
    · exact .inr (.inr ⟨hp, h1, h2, h3⟩)
  · exact .inl ⟨by cases hp : s.port <;> simp_all [allowedOn, portsOf], rfl⟩

theorem exec_rxfGet_cases {s t : State} (h : exec .rxfGet s = .next t) :
    (s.port = .I ∧ t = raiseIllegalCommand s) ∨
    (s.port = .F ∧ s.rx.count = 0#8 ∧ t = respond .NONE 0#32 s) ∨
    (s.port = .F ∧ s.rx.count ≠ 0#8 ∧ s.rx.rd.toNat < s.cap .rx ∧
      t = respond .OK (word8 (s.byteAt .rx s.rx.rd.toNat)) (afterGet .rx s)) := by
  rcases onAllowedPort_cases h with ⟨ha, he⟩ | ⟨ha, rfl⟩
  · have hp : s.port = .F := by cases hp : s.port <;> simp_all [allowedOn, portsOf]
    cases hget : fifoGet .rx s with
    | error e => simp [hget] at he
    | ok x =>
      obtain ⟨v, ok, u⟩ := x
      simp only [hget, Host.Outcome.next.injEq] at he
      rcases fifoGet_cases hget with ⟨rfl, rfl, rfl, hc⟩ | ⟨rfl, rfl, rfl, hc, hr⟩
      · exact .inr (.inl ⟨hp, hc, he.symm⟩)
      · exact .inr (.inr ⟨hp, hc, hr, he.symm⟩)
  · exact .inl ⟨by cases hp : s.port <;> simp_all [allowedOn, portsOf], rfl⟩

theorem exec_txfGet_cases {s t : State} (h : exec .txfGet s = .next t) :
    (s.port = .F ∧ t = raiseIllegalCommand s) ∨
    (s.port = .I ∧ s.tx.count = 0#8 ∧ t = respond .NONE 0#32 (txEmptyClear s)) ∨
    (s.port = .I ∧ s.tx.count ≠ 0#8 ∧ s.tx.rd.toNat < s.cap .tx ∧
      t = respond .OK (word8 (s.byteAt .tx s.tx.rd.toNat)) (txEmptyClear (afterGet .tx s))) := by
  rcases onAllowedPort_cases h with ⟨ha, he⟩ | ⟨ha, rfl⟩
  · have hp : s.port = .I := by cases hp : s.port <;> simp_all [allowedOn, portsOf]
    cases hget : fifoGet .tx s with
    | error e => simp [hget] at he
    | ok x =>
      obtain ⟨v, ok, u⟩ := x
      simp only [hget, Host.Outcome.next.injEq] at he
      rcases fifoGet_cases hget with ⟨rfl, rfl, rfl, hc⟩ | ⟨rfl, rfl, rfl, hc, hr⟩
      · exact .inr (.inl ⟨hp, hc, he.symm⟩)
      · exact .inr (.inr ⟨hp, hc, hr, he.symm⟩)
  · exact .inl ⟨by cases hp : s.port <;> simp_all [allowedOn, portsOf], rfl⟩

theorem exec_rxfReadSize_next {s : State} :
    exec .rxfReadSize s = .next (respond .OK (wordOfInt (readSize .rx s)) s) :=
  onAllowedPort_of_allowed _ (by cases s.port <;> rfl)

theorem exec_rxfWriteSpace_next {s : State} :
    exec .rxfWriteSpace s = .next (respond .OK (wordOfInt (writeSpace .rx s)) s) :=
  onAllowedPort_of_allowed _ (by cases s.port <;> rfl)

theorem exec_txfReadSize_next {s : State} :
    exec .txfReadSize s = .next (respond .OK (wordOfInt (readSize .tx s)) s) :=
  onAllowedPort_of_allowed _ (by cases s.port <;> rfl)

theorem exec_txfWriteSpace_next {s : State} :
    exec .txfWriteSpace s = .next (respond .OK (wordOfInt (writeSpace .tx s)) s) :=
  onAllowedPort_of_allowed _ (by cases s.port <;> rfl)

theorem exec_crcUpdate_cases {c : Half} {b : Byte} {s t : State} (h : exec (.crcUpdate c b) s = .next t) :
    (s.port = .I ∧ t = raiseIllegalCommand s) ∨
    (s.port = .F ∧ t = respond .OK (word16 (crcStep s.cfg.crcStep c b)) s) := by
  rcases onAllowedPort_cases h with ⟨ha, he⟩ | ⟨ha, rfl⟩ <;> cases hp : s.port <;>
    simp_all [allowedOn, portsOf]

theorem exec_tryReceiveFrame_cases {s t : State} (h : exec .tryReceiveFrame s = .next t) :
    (s.port = .I ∧ t = raiseIllegalCommand s) ∨
    (s.port = .F ∧ readSize .rx s < 5 ∧ t = respond .NONE 0#32 (rtsEval (pollOfSilence s))) ∨
    (s.port = .F ∧ 5 ≤ readSize .rx s ∧ ∃ w u, takeWindow s = .ok (w, u) ∧ t = judgeWindow w u) := by
  rcases onAllowedPort_cases h with ⟨ha, he⟩ | ⟨ha, rfl⟩
  · have hp : s.port = .F := by cases hp : s.port <;> simp_all [allowedOn, portsOf]
    split at he
    · rename_i hs
      exact .inr (.inl ⟨hp, hs, by injection he with he; exact he.symm⟩)
    · rename_i hs
      cases hw : takeWindow s with
      | error e => simp [hw] at he
      | ok x =>
        obtain ⟨w, u⟩ := x
        simp only [hw, Host.Outcome.next.injEq] at he
        exact .inr (.inr ⟨hp, Nat.le_of_not_lt hs, w, u, rfl, he.symm⟩)
  · exact .inl ⟨by cases hp : s.port <;> simp_all [allowedOn, portsOf], rfl⟩

theorem exec_buildAndEnqueueFrame_cases {sp an : Byte} {s t : State}
    (h : exec (.buildAndEnqueueFrame sp an) s = .next t) :
    (s.port = .I ∧ t = raiseIllegalCommand s) ∨
    (s.port = .F ∧ writeSpace .tx s < 5 ∧ t = respond .NONE 0#32 (txIrqEval s)) ∨
    (s.port = .F ∧ 5 ≤ writeSpace .tx s ∧ ∃ u, fifoPutAll .tx (frameBytes s.cfg.crcStep sp an) s = .ok u ∧
      t = respond .OK 0#32 (txIrqEval u)) := by
  rcases onAllowedPort_cases h with ⟨ha, he⟩ | ⟨ha, rfl⟩
  · have hp : s.port = .F := by cases hp : s.port <;> simp_all [allowedOn, portsOf]
    split at he
    · rename_i hs
      exact .inr (.inl ⟨hp, hs, by injection he with he; exact he.symm⟩)
    · rename_i hs
      cases hw : fifoPutAll .tx (frameBytes s.cfg.crcStep sp an) s with
      | error e => simp [hw] at he
      | ok u =>
        simp only [hw, Host.Outcome.next.injEq] at he
        exact .inr (.inr ⟨hp, Int.not_lt.1 hs, u, rfl, he.symm⟩)
  · exact .inl ⟨by cases hp : s.port <;> simp_all [allowedOn, portsOf], rfl⟩

theorem exec_rtsEval_next {s : State} : exec .rtsEval s = .next (respond .OK 0#32 (rtsEval s)) :=
  onAllowedPort_of_allowed _ (by cases s.port <;> rfl)

theorem exec_txIrqEval_next {s : State} : exec .txIrqEval s = .next (respond .OK 0#32 (txIrqEval s)) :=
  onAllowedPort_of_allowed _ (by cases s.port <;> rfl)

theorem exec_hwRxByte_cases {b : Byte} {s t : State} (h : exec (.hwRxByte b) s = .next t) :
    (s.port = .F ∧ t = raiseIllegalCommand s) ∨
    (s.port = .I ∧ readSize .rx s = s.cap .rx ∧ t = respond .NONE 0#32 (rtsEval s)) ∨
    (s.port = .I ∧ readSize .rx s ≠ s.cap .rx ∧ s.rx.wr.toNat < s.cap .rx ∧
      t = respond .OK 0#32 (rtsEval (afterPut .rx b s))) := by
  rcases onAllowedPort_cases h with ⟨ha, he⟩ | ⟨ha, rfl⟩
  · have hp : s.port = .I := by cases hp : s.port <;> simp_all [allowedOn, portsOf]
    cases hput : fifoPut .rx b s with
    | error e => simp [hput] at he
    | ok x =>
      obtain ⟨u, ok⟩ := x
      simp only [hput, Host.Outcome.next.injEq] at he
      rcases fifoPut_cases hput with ⟨rfl, rfl, hf⟩ | ⟨rfl, rfl, hf, hw⟩
      · exact .inr (.inl ⟨hp, hf, he.symm⟩)
      · exact .inr (.inr ⟨hp, hf, hw, he.symm⟩)
  · exact .inl ⟨by cases hp : s.port <;> simp_all [allowedOn, portsOf], rfl⟩

theorem drainGate_eq_true (s : State) : drainGate s = true ↔
    s.ctsIn = false ∧ s.tx.count ≠ 0#8 ∧ s.txRegFullIn = false := by
  have h := readSize_pos_iff .tx s
  simp only [readSize, fifo_tx] at h
  simp [drainGate, h, and_assoc]

theorem exec_txDrain_cases {s t : State} (h : exec .txDrain s = .next t) :
    (s.port = .F ∧ t = raiseIllegalCommand s) ∨
    (s.port = .I ∧ drainGate s = false ∧ t = respond .NONE 0#32 (txEmptyClear s)) ∨
    (s.port = .I ∧ drainGate s = true ∧ s.tx.rd.toNat < s.cap .tx ∧
      t = respond .OK (word8 (s.byteAt .tx s.tx.rd.toNat))
        (txEmptyClear (sendOnWire (s.byteAt .tx s.tx.rd.toNat) (afterGet .tx s)))) := by
  rcases onAllowedPort_cases h with ⟨ha, he⟩ | ⟨ha, rfl⟩
  · have hp : s.port = .I := by cases hp : s.port <;> simp_all [allowedOn, portsOf]
    cases hg : drainGate s with
    | false => exact .inr (.inl ⟨hp, rfl, by simpa [hg] using he.symm⟩)
    | true =>
      cases hget : fifoGet .tx s with
      | error e => simp [hg, hget] at he
      | ok x =>
        obtain ⟨v, ok, u⟩ := x
        simp only [hg, hget, if_true, Host.Outcome.next.injEq] at he
        rcases fifoGet_cases hget with ⟨rfl, rfl, rfl, hc⟩ | ⟨rfl, rfl, rfl, hc, hr⟩
        · exact absurd hc ((drainGate_eq_true u).1 hg).2.1
        · exact .inr (.inr ⟨hp, rfl, hr, he.symm⟩)
  · exact .inl ⟨by cases hp : s.port <;> simp_all [allowedOn, portsOf], rfl⟩

/-! ### What every command leaves alone -/

/-- u has only elements of 10_state.md R31 and tx_wire different from s. -/
def State.OnlyElements (s u : State) : Prop :=
  u = { s with rx := u.rx, tx := u.tx, mode := u.mode, silenceCount := u.silenceCount, lastRemote := u.lastRemote,
               rts := u.rts, txIrqEn := u.txIrqEn, crcErrInd := u.crcErrInd, frameErrInd := u.frameErrInd,
               txWire := u.txWire }

theorem judgeWindow_responds (w : Window) (u : State) : ∃ v c d, judgeWindow w u = respond c d v ∧
    c ≠ .ILLEGAL ∧ u.OnlyElements v ∧ v.rx = u.rx ∧ v.tx = u.tx ∧ v.txWire = u.txWire := by
  rw [judgeWindow]
  split
  · exact ⟨_, _, _, rfl, by decide, rfl, rfl, rfl, rfl⟩
  · split
    · exact ⟨_, _, _, rfl, by decide, rfl, rfl, rfl, rfl⟩
    · exact ⟨_, _, _, rfl, by decide, rfl, rfl, rfl, rfl⟩

/-- Every command either is off its role and raises IllegalCommand, or writes elements and tx_wire only and then
answers OK or NONE. -/
theorem exec_responds {i : Instr} {s t : State} (h : exec i s = .next t) :
    (allowedOn i s.port = false ∧ t = raiseIllegalCommand s) ∨
    (allowedOn i s.port = true ∧ ∃ u c d, t = respond c d u ∧ c ≠ .ILLEGAL ∧ s.OnlyElements u) := by
  cases ha : allowedOn i s.port
  · rw [exec_of_not_allowed i s ha] at h
    exact .inl ⟨rfl, by injection h with h; exact h.symm⟩
  refine .inr ⟨rfl, ?_⟩
  have off : ∀ {p : Port}, s.port = p → allowedOn i p = false → False := fun hp hn => by simp [hp, hn] at ha
  cases i with
  | init =>
    rcases exec_init_cases h with ⟨hp, -⟩ | ⟨-, rfl⟩
    · exact (off hp rfl).elim
    · exact ⟨_, _, _, rfl, by decide, rfl⟩
  | status => rw [exec_status_next] at h; injection h with h; exact ⟨_, _, _, h.symm, by decide, rfl⟩
  | lastRemote =>
    rcases exec_lastRemote_cases h with ⟨hp, -⟩ | ⟨-, rfl⟩
    · exact (off hp rfl).elim
    · exact ⟨_, _, _, rfl, by decide, rfl⟩
  | rxfPut b =>
    rcases exec_rxfPut_cases h with ⟨hp, -⟩ | ⟨-, -, rfl⟩ | ⟨-, -, -, rfl⟩
    · exact (off hp rfl).elim
    · exact ⟨_, _, _, rfl, by decide, rfl⟩
    · exact ⟨_, _, _, rfl, by decide, rfl⟩
  | rxfGet =>
    rcases exec_rxfGet_cases h with ⟨hp, -⟩ | ⟨-, -, rfl⟩ | ⟨-, -, -, rfl⟩
    · exact (off hp rfl).elim
    · exact ⟨_, _, _, rfl, by decide, rfl⟩
    · exact ⟨_, _, _, rfl, by decide, rfl⟩
  | rxfReadSize => rw [exec_rxfReadSize_next] at h; injection h with h; exact ⟨_, _, _, h.symm, by decide, rfl⟩
  | rxfWriteSpace => rw [exec_rxfWriteSpace_next] at h; injection h with h; exact ⟨_, _, _, h.symm, by decide, rfl⟩
  | txfPut b =>
    rcases exec_txfPut_cases h with ⟨hp, -⟩ | ⟨-, -, rfl⟩ | ⟨-, -, -, rfl⟩
    · exact (off hp rfl).elim
    · exact ⟨_, _, _, rfl, by decide, rfl⟩
    · exact ⟨_, _, _, rfl, by decide, rfl⟩
  | txfGet =>
    rcases exec_txfGet_cases h with ⟨hp, -⟩ | ⟨-, -, rfl⟩ | ⟨-, -, -, rfl⟩
    · exact (off hp rfl).elim
    · exact ⟨_, _, _, rfl, by decide, rfl⟩
    · exact ⟨_, _, _, rfl, by decide, rfl⟩
  | txfReadSize => rw [exec_txfReadSize_next] at h; injection h with h; exact ⟨_, _, _, h.symm, by decide, rfl⟩
  | txfWriteSpace => rw [exec_txfWriteSpace_next] at h; injection h with h; exact ⟨_, _, _, h.symm, by decide, rfl⟩
  | crcUpdate c b =>
    rcases exec_crcUpdate_cases h with ⟨hp, -⟩ | ⟨-, rfl⟩
    · exact (off hp rfl).elim
    · exact ⟨_, _, _, rfl, by decide, rfl⟩
  | tryReceiveFrame =>
    rcases exec_tryReceiveFrame_cases h with ⟨hp, -⟩ | ⟨-, -, rfl⟩ | ⟨-, -, w, u, hw, rfl⟩
    · exact (off hp rfl).elim
    · exact ⟨_, _, _, rfl, by decide, rfl⟩
    · obtain ⟨v, c, d, hv, hc, hu, -⟩ := judgeWindow_responds w u
      refine ⟨v, c, d, hv, hc, ?_⟩
      rw [takeWindow_frame hw] at hu
      exact hu
  | buildAndEnqueueFrame sp an =>
    rcases exec_buildAndEnqueueFrame_cases h with ⟨hp, -⟩ | ⟨-, -, rfl⟩ | ⟨-, -, u, hu, rfl⟩
    · exact (off hp rfl).elim
    · exact ⟨_, _, _, rfl, by decide, rfl⟩
    · refine ⟨_, _, _, rfl, by decide, ?_⟩
      rw [fifoPutAll_frame _ _ _ _ hu]
      rfl
  | rtsEval => rw [exec_rtsEval_next] at h; injection h with h; exact ⟨_, _, _, h.symm, by decide, rfl⟩
  | txIrqEval => rw [exec_txIrqEval_next] at h; injection h with h; exact ⟨_, _, _, h.symm, by decide, rfl⟩
  | hwRxByte b =>
    rcases exec_hwRxByte_cases h with ⟨hp, -⟩ | ⟨-, -, rfl⟩ | ⟨-, -, -, rfl⟩
    · exact (off hp rfl).elim
    · exact ⟨_, _, _, rfl, by decide, rfl⟩
    · exact ⟨_, _, _, rfl, by decide, rfl⟩
  | txDrain =>
    rcases exec_txDrain_cases h with ⟨hp, -⟩ | ⟨-, -, rfl⟩ | ⟨-, -, -, rfl⟩
    · exact (off hp rfl).elim
    · exact ⟨_, _, _, rfl, by decide, rfl⟩
    · exact ⟨_, _, _, rfl, by decide, rfl⟩

end Sys2Proof.Machine
end

