-- ==== Sys2Proof/Laws/Invariant.lean ====
section
/-! SUPPORT. Each named operation keeps the invariant of Safety.lean, the invariant as a decidable check, and what
the operations do to bytes of storage. -/

namespace Sys2Proof.Machine

/-! ### Bytes of storage -/

theorem contents_eq_nil_iff {s : State} {F : FifoId} : s.contents F = [] ↔ (s.fifo F).count = 0#8 := by
  rw [← List.length_eq_zero_iff, contents_length, readSize, ← BitVec.toNat_inj, BitVec.toNat_ofNat]

theorem byteAt_afterPut (F G : FifoId) (b : Byte) (s : State) (a : Nat) (h : (G, a) ≠ (F, (s.fifo F).wr.toNat)) :
    (afterPut F b s).byteAt G a = s.byteAt G a := by
  by_cases hG : G = F
  · subst hG
    have ha : a ≠ (s.fifo G).wr.toNat := fun e => h (by rw [e])
    simp only [State.byteAt, afterPut_fifo_same, Memory.read?_write_other _ _ _ _ ha]
  · simp only [State.byteAt, afterPut_fifo_other _ _ _ _ hG]

theorem byteAt_afterPut_same (F : FifoId) (b : Byte) (s : State) :
    (afterPut F b s).byteAt F (s.fifo F).wr.toNat = b := by
  simp [State.byteAt]

theorem sameBytes_afterGet (F : FifoId) (s : State) : s.SameBytes (afterGet F s) := by
  intro G a
  by_cases hG : G = F
  · subst hG; simp [State.byteAt]
  · simp only [State.byteAt, afterGet_fifo_other _ _ _ hG]

theorem sameBytes_initialise (s : State) : s.SameBytes (initialise s) := by
  intro F a; cases F <;> rfl

theorem sameBytes_judgeWindow (w : Window) (s : State) : s.SameBytes (judgeWindow w s) := by
  intro F a
  unfold judgeWindow
  split
  · simp
  · split <;> simp

/-! ### A FIFO that is as R33 says always answers -/

theorem fifoGet_answers {s : State} {F : FifoId} (h : s.FifoOk F) : ∃ x, fifoGet F s = .ok x := by
  by_cases hc : (s.fifo F).count = 0#8
  · exact ⟨_, fifoGet_empty _ _ hc⟩
  · exact ⟨_, fifoGet_some _ _ hc h.rd_lt⟩

theorem fifoPut_answers {s : State} {F : FifoId} (b : Byte) (h : s.FifoOk F) : ∃ x, fifoPut F b s = .ok x := by
  by_cases hc : readSize F s = s.cap F
  · exact ⟨_, fifoPut_full _ _ _ hc⟩
  · exact ⟨_, fifoPut_room _ _ _ hc h.wr_lt⟩

/-! ### The invariant as a check -/

theorem State.fifoOk_iff (s : State) (F : FifoId) : s.FifoOk F ↔
    readSize F s ≤ s.cap F ∧ (s.fifo F).rd.toNat < s.cap F ∧
    (s.fifo F).wr.toNat = ((s.fifo F).rd.toNat + readSize F s) % s.cap F ∧ (s.fifo F).buf.wf ∧
    (∀ c ∈ (s.fifo F).buf, c.1 < s.cap F) ∧
    ∀ k < readSize F s, ((s.fifo F).buf.read? (((s.fifo F).rd.toNat + k) % s.cap F)).isSome = true := by
  constructor
  · rintro ⟨h1, h2, h3, h4, h5, h6⟩
    exact ⟨h1, h2, h3, h4, h5, fun k hk => Option.isSome_iff_exists.2 (h6 k hk)⟩
  · rintro ⟨h1, h2, h3, h4, h5, h6⟩
    exact ⟨h1, h2, h3, h4, h5, fun k hk => Option.isSome_iff_exists.1 (h6 k hk)⟩

theorem State.inv_iff (s : State) : s.Inv ↔
    s.cfg.WellFormed ∧ s.FifoOk .rx ∧ s.FifoOk .tx ∧ s.silenceCount.toNat ≤ s.cfg.silenceCeil ∧
    (s.mode = .REMOTE → s.silenceCount.toNat < s.cfg.silenceCeil) ∧ (s.txIrqEn = true → 0 < readSize .tx s) ∧
    (s.cfg.startErrToggle = false → s.frameErrInd = false) ∧
    s.rspF = lastResultOn .F s.results ∧ s.rspI = lastResultOn .I s.results := by
  constructor
  · rintro ⟨h1, h2, h3, h4, h5, h6, h7⟩
    exact ⟨h1, h2 .rx, h2 .tx, h3, h4, h5, h6, h7 .F, h7 .I⟩
  · rintro ⟨h1, h2, h2', h3, h4, h5, h6, h7, h7'⟩
    exact ⟨h1, fun F => by cases F <;> assumption, h3, h4, h5, h6, fun p => by cases p <;> assumption⟩

theorem State.Inv.cap_le {s : State} (h : s.Inv) (F : FifoId) : s.cap F ≤ 255 := by
  have := h.legal
  cases F <;> simp only [State.cap, Config.cap] <;> omega

/-! ### Operations that leave the FIFOs alone -/

theorem lastResultOn_append (p q : Port) (l : List (Port × Response)) (r : Response) :
    lastResultOn p (l ++ [(q, r)]) = if q = p then r else lastResultOn p l := by
  simp [lastResultOn, List.foldl_append]

theorem inv_respond {s : State} (c : RspCode) (d : Word) (h : s.Inv) : (respond c d s).Inv := by
  refine ⟨h.legal, fun F => (h.fifo_ok F).congr (by simp) (by simp), h.silence_le, h.remote_below, ?_,
    h.frame_ind_zero, ?_⟩
  · simpa using h.irq_queued
  · intro p
    rw [respond_results, lastResultOn_append]
    by_cases hp : s.port = p
    · rw [if_pos hp, ← hp, respond_rsp_self]
    · rw [if_neg hp, respond_rsp_other _ _ _ _ (Ne.symm hp)]
      exact h.results_agree p

theorem inv_rtsEval {s : State} (h : s.Inv) : (rtsEval s).Inv :=
  ⟨h.legal, fun F => (h.fifo_ok F).congr (by simp) (by simp), h.silence_le, h.remote_below,
    by simpa using h.irq_queued, h.frame_ind_zero, h.results_agree⟩

theorem inv_txIrqEval {s : State} (h : s.Inv) : (txIrqEval s).Inv := by
  refine ⟨h.legal, fun F => (h.fifo_ok F).congr (by simp) (by simp), h.silence_le, h.remote_below, ?_,
    h.frame_ind_zero, h.results_agree⟩
  intro hq
  simp only [txIrqEval, Bool.and_eq_true, decide_eq_true_eq] at hq
  exact hq.1

theorem inv_txEmptyClear {s : State} (h : s.Inv) : (txEmptyClear s).Inv := by
  refine ⟨h.legal, fun F => (h.fifo_ok F).congr (by simp) (by simp), h.silence_le, h.remote_below, ?_,
    h.frame_ind_zero, h.results_agree⟩
  intro hq
  simp only [txEmptyClear_txIrqEn] at hq
  split at hq
  · cases hq
  · rename_i hne
    exact (readSize_pos_iff .tx s).2 hne

theorem inv_toggleCrcErr {s : State} (h : s.Inv) : (toggleCrcErr s).Inv :=
  ⟨h.legal, fun F => (h.fifo_ok F).congr (by simp) (by simp), h.silence_le, h.remote_below,
    by simpa using h.irq_queued, h.frame_ind_zero, h.results_agree⟩

theorem inv_toggleFrameErr {s : State} (h : s.Inv) : (toggleFrameErr s).Inv := by
  refine ⟨h.legal, fun F => (h.fifo_ok F).congr (by simp) (by simp), h.silence_le, h.remote_below,
    by simpa using h.irq_queued, ?_, h.results_agree⟩
  intro hf
  simp only [toggleFrameErr_cfg] at hf
  simp [hf, h.frame_ind_zero hf]

theorem inv_acceptFrame {s : State} (cv : Word) (h : s.Inv) : (acceptFrame cv s).Inv := by
  have hl := h.legal
  refine ⟨h.legal, fun F => (h.fifo_ok F).congr (by simp) (by simp), by simp, ?_, by simpa using h.irq_queued,
    h.frame_ind_zero, h.results_agree⟩
  intro _
  simp only [acceptFrame_silenceCount, acceptFrame_cfg, BitVec.toNat_ofNat]
  omega

theorem silenceNext_toNat (c : Config) (n : Byte) (h : c.silenceCeil ≤ 255) :
    (silenceNext c n).toNat = min (n.toNat + 1) c.silenceCeil := by
  simp only [silenceNext, BitVec.toNat_ofNat]
  omega

theorem inv_pollOfSilence {s : State} (h : s.Inv) : (pollOfSilence s).Inv := by
  have hl := h.legal
  have hn := silenceNext_toNat s.cfg s.silenceCount (by omega)
  refine ⟨h.legal, fun F => (h.fifo_ok F).congr (by simp) (by simp), ?_, ?_, by simpa using h.irq_queued,
    h.frame_ind_zero, h.results_agree⟩
  · simp only [pollOfSilence_silenceCount, pollOfSilence_cfg, hn]
    omega
  · simp only [pollOfSilence_silenceCount, pollOfSilence_cfg, pollOfSilence_mode]
    intro hm
    split at hm
    · cases hm
    · omega

/-! ### Operations on the FIFOs -/

theorem State.FifoOk.emptied {s t : State} {F : FifoId} (h : s.FifoOk F) (hf : t.fifo F = (s.fifo F).emptied)
    (hc : t.cap F = s.cap F) : t.FifoOk F := by
  have := h.rd_lt
  refine ⟨?_, ?_, ?_, ?_, ?_, ?_⟩ <;> simp only [readSize, hf, hc, Fifo.emptied]
  · simp
  · simp only [BitVec.toNat_ofNat]; omega
  · simp
  · exact h.storage_wf
  · exact h.storage_lt
  · intro k hk; simp at hk

/-- A FIFO right after power-on is as R33 says; its storage, with nothing listed, is in canonical form. -/
theorem State.FifoOk.reset {s : State} {F : FifoId} (hf : s.fifo F = Fifo.reset) (hc : 0 < s.cap F) : s.FifoOk F := by
  refine ⟨?_, ?_, ?_, ?_, ?_, ?_⟩ <;> simp only [readSize, hf, Fifo.reset] <;> simp [hc, Memory.wf]

theorem inv_initialise {s : State} (h : s.Inv) : (initialise s).Inv := by
  refine ⟨h.legal, fun F => (h.fifo_ok F).emptied (by cases F <;> rfl) (by cases F <;> rfl), by simp [initialise],
    ?_, ?_, fun _ => rfl, h.results_agree⟩ <;>
  · intro hm; cases hm

theorem inv_afterPut {s : State} (F : FifoId) (b : Byte) (h : s.Inv) (hr : readSize F s ≠ s.cap F) :
    (afterPut F b s).Inv := by
  have hle := (h.fifo_ok F).count_le
  have hc := h.cap_le F
  refine ⟨h.legal, fun G => ?_, h.silence_le, h.remote_below, ?_, h.frame_ind_zero,
    fun p => by cases p; exacts [h.results_agree .F, h.results_agree .I]⟩
  · by_cases hG : G = F
    · subst hG
      exact fifoOk_afterPut b (h.fifo_ok G) hc (by omega)
    · exact (h.fifo_ok G).congr (afterPut_fifo_other _ _ _ _ hG) (by simp)
  · intro hq
    have := h.irq_queued hq
    cases F with
    | rx => exact this
    | tx => rw [readSize_afterPut _ _ _ (by omega)]; omega

theorem inv_afterGet_rx {s : State} (h : s.Inv) (hr : s.rx.count ≠ 0#8) : (afterGet .rx s).Inv := by
  refine ⟨h.legal, fun G => ?_, h.silence_le, h.remote_below, h.irq_queued, h.frame_ind_zero,
    fun p => by cases p; exacts [h.results_agree .F, h.results_agree .I]⟩
  cases G with
  | rx => exact fifoOk_afterGet (h.fifo_ok _) (h.cap_le .rx) ((readSize_pos_iff _ _).2 hr)
  | tx => exact (h.fifo_ok _).congr rfl rfl

/-- A get from TX may leave tx_irq_en = 1 over an empty FIFO until TxEmptyClear runs (43_flow_control.md R193). -/
theorem inv_txEmptyClear_afterGet_tx {s u : State} (h : s.Inv) (hr : s.tx.count ≠ 0#8)
    (hu : u = afterGet .tx s ∨ ∃ v, u = sendOnWire v (afterGet .tx s)) : (txEmptyClear u).Inv := by
  have ok := fifoOk_afterGet (h.fifo_ok .tx) (h.cap_le .tx) ((readSize_pos_iff _ _).2 hr)
  rcases hu with rfl | ⟨v, rfl⟩
  all_goals
    refine ⟨h.legal, fun G => ?_, h.silence_le, h.remote_below, ?_, h.frame_ind_zero,
      fun p => by cases p; exacts [h.results_agree .F, h.results_agree .I]⟩
    · cases G with
      | tx => exact ok.congr rfl rfl
      | rx => exact (h.fifo_ok _).congr rfl rfl
    · intro hq
      simp only [txEmptyClear_txIrqEn] at hq
      split at hq
      · cases hq
      · rename_i hne
        exact (readSize_pos_iff _ _).2 hne

theorem inv_fifoGet_rx {s t : State} {v : Byte} {ok : Bool} (h : s.Inv) (hg : fifoGet .rx s = .ok (v, ok, t)) :
    t.Inv := by
  rcases fifoGet_cases hg with ⟨-, rfl, -⟩ | ⟨-, rfl, -, hc, -⟩
  · exact h
  · exact inv_afterGet_rx h hc

theorem inv_takeWindow {s t : State} {w : Window} (hi : s.Inv) (h : takeWindow s = .ok (w, t)) : t.Inv := by
  simp only [takeWindow, bind, Except.bind] at h
  split at h
  · cases h
  rename_i x0 g0
  split at h
  · cases h
  rename_i x1 g1
  split at h
  · cases h
  rename_i x2 g2
  split at h
  · cases h
  rename_i x3 g3
  split at h
  · cases h
  rename_i x4 g4
  simp only [Except.ok.injEq, Prod.mk.injEq] at h
  rw [← h.2]
  exact inv_fifoGet_rx (inv_fifoGet_rx (inv_fifoGet_rx (inv_fifoGet_rx (inv_fifoGet_rx hi g0) g1) g2) g3) g4

theorem inv_fifoPutAll (F : FifoId) (bs : List Byte) : ∀ s t : State, s.Inv → fifoPutAll F bs s = .ok t → t.Inv := by
  induction bs with
  | nil => intro s t h hp; simp only [fifoPutAll, Except.ok.injEq] at hp; exact hp ▸ h
  | cons b bs ih =>
    intro s t h hp
    simp only [fifoPutAll] at hp
    split at hp
    · cases hp
    · rename_i s1 ok hput
      refine ih _ _ ?_ hp
      rcases fifoPut_cases hput with ⟨-, rfl, -⟩ | ⟨-, rfl, hf, -⟩
      · exact h
      · exact inv_afterPut _ _ h hf

/-! ### What stands outside the core -/

/-- The inputs, the agents' sequences, the schedule and the port are no part of the invariant. -/
theorem State.Inv.outside {s t : State} (h : s.Inv)
    (e : t = { s with ctsIn := t.ctsIn, txRegFullIn := t.txRegFullIn, cmdF := t.cmdF, cmdI := t.cmdI,
                      schedule := t.schedule, port := t.port }) : t.Inv := by
  rw [e]
  exact ⟨h.legal, fun F => (h.fifo_ok F).congr (by cases F <;> rfl) (by cases F <;> rfl), h.silence_le,
    h.remote_below, h.irq_queued, h.frame_ind_zero,
    fun p => by cases p; exacts [h.results_agree .F, h.results_agree .I]⟩

end Sys2Proof.Machine
end

