-- ==== Sys2Proof/Laws/PerInstr.lean ====
section
/-! SUPPORT. Families of lemmas with one lemma per command: the word the encoder gives a command selects the row of
the opcode map that carries the command's mnemonic (30_encoding.md R87). -/

namespace Sys2Proof.Laws.EncodeSelectsRow

open Sys2Proof.Machine

/-- The command's word selects a row of the opcode map with the command's mnemonic. -/
def Statement (i : Instr) : Prop :=
  ∃ r ∈ opcodeMap, r.mnemonic = mnemonicOf i ∧ r.selects (encode i) = true

/-- A command whose row stands at a place of the map. -/
theorem of_row (i : Instr) (n : Nat) (r : OpcodeRow) (hr : opcodeMap[n]? = some r) (hm : r.mnemonic = mnemonicOf i)
    (ho : opcodeOf i = fieldOpcode r.pattern) (hp : payloadOf i &&& fieldPayload r.mask = fieldPayload r.pattern) :
    Statement i := by
  have hmem : r ∈ opcodeMap := List.mem_of_getElem? hr
  refine ⟨r, hmem, hm, ?_⟩
  rw [encode, selects_opcode_payload _ _ r hmem]
  simp [ho, hp]

theorem init : Statement .init := of_row _ 0 _ rfl rfl (by decide) (by decide)
theorem status : Statement .status := of_row _ 1 _ rfl rfl (by decide) (by decide)
theorem lastRemote : Statement .lastRemote := of_row _ 2 _ rfl rfl (by decide) (by decide)
theorem rxfPut (b : Byte) : Statement (.rxfPut b) := of_row _ 3 _ rfl rfl rfl (payloadB_fields b).2
theorem rxfGet : Statement .rxfGet := of_row _ 4 _ rfl rfl (by decide) (by decide)
theorem rxfReadSize : Statement .rxfReadSize := of_row _ 5 _ rfl rfl (by decide) (by decide)
theorem rxfWriteSpace : Statement .rxfWriteSpace := of_row _ 6 _ rfl rfl (by decide) (by decide)
theorem txfPut (b : Byte) : Statement (.txfPut b) := of_row _ 7 _ rfl rfl rfl (payloadB_fields b).2
theorem txfGet : Statement .txfGet := of_row _ 8 _ rfl rfl (by decide) (by decide)
theorem txfReadSize : Statement .txfReadSize := of_row _ 9 _ rfl rfl (by decide) (by decide)
theorem txfWriteSpace : Statement .txfWriteSpace := of_row _ 10 _ rfl rfl (by decide) (by decide)
theorem crcUpdate (c : Half) (b : Byte) : Statement (.crcUpdate c b) := of_row _ 11 _ rfl rfl rfl BitVec.and_zero
theorem tryReceiveFrame : Statement .tryReceiveFrame := of_row _ 12 _ rfl rfl (by decide) (by decide)
theorem buildAndEnqueueFrame (s a : Byte) : Statement (.buildAndEnqueueFrame s a) :=
  of_row _ 13 _ rfl rfl rfl (payloadV_fields s a).2.2
theorem rtsEval : Statement .rtsEval := of_row _ 14 _ rfl rfl (by decide) (by decide)
theorem txIrqEval : Statement .txIrqEval := of_row _ 15 _ rfl rfl (by decide) (by decide)
theorem hwRxByte (b : Byte) : Statement (.hwRxByte b) := of_row _ 16 _ rfl rfl rfl (payloadB_fields b).2
theorem txDrain : Statement .txDrain := of_row _ 17 _ rfl rfl (by decide) (by decide)

end Sys2Proof.Laws.EncodeSelectsRow
end

