-- ==== Sys2Proof/Tests/Slice0.lean ====
section
/-! SUPPORT. The model's own tests: ill-formed terms that the checks refuse, words written out from the encodings,
one or two single steps per command with results from 95_test_vectors.md, and for every statement that has hypotheses
a state and operands that meet them (witness_<statement>). -/

namespace Sys2Proof.Tests

open Sys2Proof.Machine

/-! ### Helpers -/

/-- The next state, if there is one. -/
def next? (o : Host.Outcome State Fault Refusal) : Option State :=
  match o with
  | .next s => some s
  | .fault _ => none
  | .refused _ => none

/-- A FIFO of a capacity that holds the bytes given, put there from reset. -/
def filled (cap : Nat) (bs : List Byte) : Fifo where
  buf := bs.zipIdx.map fun x => (x.2, x.1)
  rd := 0#8
  wr := BitVec.ofNat 8 (bs.length % cap)
  count := BitVec.ofNat 8 bs.length

/-- The reset state with bytes in the two FIFOs and a command about to run on a port. -/
def holding (p : Port) (rx tx : List Byte) : State :=
  { State.reset with port := p, rx := filled 21 rx, tx := filled 21 tx }

/-- REMOTE with a silence count, after the frame (1, 2) (95_test_vectors.md L2-4). -/
def remote (n : Byte) (rx : List Byte) : State :=
  { holding .F rx [] with mode := .REMOTE, silenceCount := n, lastRemote := 0x01020102#32 }

/-- The frame of (5, 90) with the default step (95_test_vectors.md L2-3). -/
def frame590 : List Byte := [0xAA#8, 0x05#8, 0x5A#8, 0xB2#8, 0x8B#8]

/-- n bytes 0, 1, 2 and so on. -/
def counted (n : Nat) : List Byte := (List.range n).map (BitVec.ofNat 8)

/-- A command executed, and something read from the state after it. -/
def after {α : Type} (i : Instr) (s : State) (f : State → α) : Option α := (next? (exec i s)).map f

/-! ### WellFormed refuses -/

theorem test_default_is_legal : Config.default.WellFormed := by decide
theorem test_refuses_rts_thresholds_equal : ¬ Config.WellFormed { Config.default with rtsStop := 10 } := by decide
theorem test_refuses_rts_start_above_rx_cap : ¬ Config.WellFormed { Config.default with rtsStart := 22 } := by decide
theorem test_refuses_rx_cap_4 :
    ¬ Config.WellFormed { Config.default with rxCap := 4, rtsStart := 3, rtsStop := 2 } := by decide
theorem test_refuses_rx_cap_256 : ¬ Config.WellFormed { Config.default with rxCap := 256 } := by decide
theorem test_refuses_tx_cap_4 : ¬ Config.WellFormed { Config.default with txCap := 4 } := by decide
theorem test_refuses_tx_cap_256 : ¬ Config.WellFormed { Config.default with txCap := 256 } := by decide
theorem test_refuses_silence_ceil_0 : ¬ Config.WellFormed { Config.default with silenceCeil := 0 } := by decide
theorem test_refuses_silence_ceil_256 : ¬ Config.WellFormed { Config.default with silenceCeil := 256 } := by decide
theorem test_refuses_command_off_its_role : ¬ Issue.WellFormed ⟨.F, .txfGet⟩ := by decide
theorem test_refuses_program_with_one_bad_command :
    ¬ programWellFormed [⟨.F, .status⟩, ⟨.I, .lastRemote⟩] := by decide
theorem test_accepts_program_of_both_roles :
    programWellFormed [⟨.I, .hwRxByte 0xAA#8⟩, ⟨.F, .tryReceiveFrame⟩, ⟨.I, .status⟩] := by decide

/-! ### Words written out from the encodings (30_encoding.md R81 to R87) -/

theorem test_decode_init : decode 0b00000001_00000000_00000000_00000000#32 = .ok .init := by decide
theorem test_decode_status : decode 0b00000010_00000000_00000000_00000000#32 = .ok .status := by decide
theorem test_decode_lastRemote : decode 0b00000011_00000000_00000000_00000000#32 = .ok .lastRemote := by decide
theorem test_decode_rxfPut : decode 0b00010000_00000000_00000000_11111111#32 = .ok (.rxfPut 0xFF#8) := by decide
theorem test_decode_rxfGet : decode 0b00010001_00000000_00000000_00000000#32 = .ok .rxfGet := by decide
theorem test_decode_rxfReadSize : decode 0b00010010_00000000_00000000_00000000#32 = .ok .rxfReadSize := by decide
theorem test_decode_rxfWriteSpace : decode 0b00010011_00000000_00000000_00000000#32 = .ok .rxfWriteSpace := by decide
theorem test_decode_txfPut : decode 0b00011000_00000000_00000000_10101010#32 = .ok (.txfPut 0xAA#8) := by decide
theorem test_decode_txfGet : decode 0b00011001_00000000_00000000_00000000#32 = .ok .txfGet := by decide
theorem test_decode_txfReadSize : decode 0b00011010_00000000_00000000_00000000#32 = .ok .txfReadSize := by decide
theorem test_decode_txfWriteSpace : decode 0b00011011_00000000_00000000_00000000#32 = .ok .txfWriteSpace := by decide
theorem test_decode_crcUpdate :
    decode 0b00100000_10000000_00000001_01111111#32 = .ok (.crcUpdate 0x8001#16 0x7F#8) := by decide
theorem test_decode_tryReceiveFrame :
    decode 0b00110000_00000000_00000000_00000000#32 = .ok .tryReceiveFrame := by decide
theorem test_decode_buildAndEnqueueFrame :
    decode 0b00110001_00000000_11101100_00101101#32 = .ok (.buildAndEnqueueFrame 0xEC#8 0x2D#8) := by decide
theorem test_decode_rtsEval : decode 0b01000000_00000000_00000000_00000000#32 = .ok .rtsEval := by decide
theorem test_decode_txIrqEval : decode 0b01000001_00000000_00000000_00000000#32 = .ok .txIrqEval := by decide
theorem test_decode_hwRxByte : decode 0b01001000_00000000_00000000_00000001#32 = .ok (.hwRxByte 0x01#8) := by decide
theorem test_decode_txDrain : decode 0b01001001_00000000_00000000_00000000#32 = .ok .txDrain := by decide

/-- The illegal words of 95_test_vectors.md L2-1. -/
theorem test_decode_illegal_words :
    [0x00000000#32, 0x04000000#32, 0x21000000#32, 0x4A000000#32, 0xFF000000#32, 0xFFFFFFFF#32].map decode =
      [.error (.unassignedOpcode 0x00#8), .error (.unassignedOpcode 0x04#8), .error (.unassignedOpcode 0x21#8),
       .error (.unassignedOpcode 0x4A#8), .error (.unassignedOpcode 0xFF#8), .error (.unassignedOpcode 0xFF#8)] := by
  decide
theorem test_decode_reserved_bits :
    [0x01000001#32, 0x02800000#32, 0x10000100#32, 0x18010000#32, 0x3101055A#32, 0x49000001#32].map decode =
      [.error (.reservedBits 0x01#8), .error (.reservedBits 0x02#8), .error (.reservedBits 0x10#8),
       .error (.reservedBits 0x18#8), .error (.reservedBits 0x31#8), .error (.reservedBits 0x49#8)] := by decide
theorem test_decodeTableWord :
    decodeTableWord 32 0x3100EC2D = some (.buildAndEnqueueFrame 0xEC#8 0x2D#8) ∧
    decodeTableWord 32 0x01000001 = none := by decide
/-- No two rows of the opcode map are selected by one word: their patterns differ under both masks. -/
theorem test_opcode_map_rows_disjoint :
    opcodeMap.Pairwise (fun r q => r.pattern &&& (r.mask &&& q.mask) ≠ q.pattern &&& (r.mask &&& q.mask)) := by decide

/-! ### Assembly (30_encoding.md R92) -/

theorem test_assemble_line : assembleLine "F: BUILD_AND_ENQUEUE_FRAME -20, 45 ; a comment".toList =
    .ok (some ⟨some .F, .buildAndEnqueueFrame 0xEC#8 0x2D#8⟩) := by decide
theorem test_assemble_crc : assembleLine "CRC_UPDATE 0xF550, 0x05".toList =
    .ok (some ⟨none, .crcUpdate 0xF550#16 0x05#8⟩) := by decide
theorem test_assemble_decimal_b : assembleLine "I: HW_RX_BYTE 255".toList =
    .ok (some ⟨some .I, .hwRxByte 0xFF#8⟩) := by decide
theorem test_assemble_out_of_range : assembleLine "BUILD_AND_ENQUEUE_FRAME 128, 0".toList =
    .error .operandOutOfRange := by decide

/-- Text that log 16 settles: a minus sign and leading zeros are read, a plus sign is not, hexadecimal is of either case. -/
theorem test_operand_text :
    [['-', '0', '5'], ['+', '5'], ['0', 'x', 'a', 'F'], ['0', 'x', '1', 'g'], ['-'], ['0', 'x', 'A', 'B', 'C']].map
        (fun t => parseOperand t) =
      [.ok (.dec (-5)), .error .malformedOperand, .ok (.hexByte 0xAF#8), .error .malformedOperand,
       .error .malformedOperand, .error .malformedOperand] := by decide

/-! ### Steps, ports and reset -/

/-- A placed word is the very next command, on a port its row allows. -/
theorem test_withFetchWord_port_F :
    (next? (step (State.reset.withFetchWord 32 0x20FFFFAA))).map (fun t => (t.rspF, t.cmdF, t.schedule)) =
      some (⟨.OK, 0x0000F550#32⟩, [], []) := by decide
theorem test_withFetchWord_port_I :
    (next? (step (State.reset.withFetchWord 32 0x19000000))).map (fun t => (t.rspI, t.cmdI, t.schedule)) =
      some (⟨.NONE, 0x00000000#32⟩, [], []) := by decide
theorem test_step_illegal_word :
    (next? (step (State.reset.withFetchWord 32 0x01000001))).map (fun t => (t.rspF, t.elements)) =
      some (⟨.ILLEGAL, 0x00000000#32⟩, State.reset.elements) := by decide
theorem test_wrong_port_F :
    after (.hwRxByte 0xAA#8) (holding .F [] []) (fun t => (t.rspF, t.rspI, t.rx.count)) =
      some (⟨.ILLEGAL, 0x00000000#32⟩, ⟨.OK, 0x00000000#32⟩, 0#8) := by decide
theorem test_power_on :
    statusWord (powerOnReset { remote 3#8 frame590 with txWire := [0xAA#8] }) = 0x00000000#32 ∧
    (powerOnReset { remote 3#8 frame590 with txWire := [0xAA#8] }).txWire = [] := by decide

/-! ### One command each (95_test_vectors.md) -/

/-- The state of L2-8: a frame of (-20, 45), one bad CRC, one send queued, one byte 07 in RX, three short polls. -/
def busy : State :=
  { holding .F [0x07#8] frame590 with
    mode := .REMOTE, silenceCount := 3#8, lastRemote := 0xEC2D142D#32, txIrqEn := true, crcErrInd := true }

theorem test_status : after .status busy (fun t => t.rspF) = some ⟨.OK, 0x05010319#32⟩ := by decide
theorem test_status_cts : after .status { holding .I [] [] with ctsIn := true } (fun t => t.rspI) =
    some ⟨.OK, 0x00000004#32⟩ := by decide
theorem test_lastRemote : after .lastRemote busy (fun t => t.rspF) = some ⟨.OK, 0xEC2D142D#32⟩ := by decide
theorem test_init : after .init busy (fun t => (t.rspF, statusWord t, t.lastRemote)) =
    some (⟨.OK, 0x00000000#32⟩, 0x00000000#32, 0x00000000#32) := by decide
theorem test_init_keeps_storage : after .init busy (fun t => (t.rx.buf, t.rx.wr)) = some ([(0, 0x07#8)], 0#8) := by
  decide
theorem test_rxfPut : after (.rxfPut 0x5A#8) (holding .I [] []) (fun t => (t.rspI, t.contents .rx, t.rx.wr)) =
    some (⟨.OK, 0x00000000#32⟩, [0x5A#8], 1#8) := by decide
/-- At 15 bytes the free space is 6, and a raw put leaves rts at 0 (L2-2). -/
theorem test_rxfPut_no_rts : after (.rxfPut 0x00#8) (holding .I (counted 14) []) (fun t => (t.rx.count, t.rts)) =
    some (15#8, false) := by decide
theorem test_rxfGet : after .rxfGet (holding .F (counted 21) []) (fun t => (t.rspF, t.rx.rd, t.rx.wr, t.rx.count)) =
    some (⟨.OK, 0x00000000#32⟩, 1#8, 0#8, 20#8) := by decide
theorem test_rxfGet_empty : after .rxfGet (holding .F [] []) (fun t => (t.rspF, t.rx)) =
    some (⟨.NONE, 0x00000000#32⟩, Fifo.reset) := by decide
theorem test_rxfReadSize : after .rxfReadSize (holding .F (counted 15) []) (fun t => (t.rspF, t.rts)) =
    some (⟨.OK, 0x0000000F#32⟩, false) := by decide
theorem test_rxfWriteSpace : after .rxfWriteSpace (holding .I [0x5A#8] []) (fun t => t.rspI) =
    some ⟨.OK, 0x00000014#32⟩ := by decide
theorem test_txfPut : after (.txfPut 0x11#8) (holding .F [] []) (fun t => (t.rspF, t.contents .tx, t.txIrqEn)) =
    some (⟨.OK, 0x00000000#32⟩, [0x11#8], false) := by decide
theorem test_txfPut_full : after (.txfPut 0x99#8) (holding .F [] (counted 21)) (fun t => (t.rspF, t.tx.count, t.tx.wr)) =
    some (⟨.NONE, 0x00000000#32⟩, 21#8, 0#8) := by decide
theorem test_txfGet : after .txfGet { holding .I [] [0x11#8, 0x22#8] with txIrqEn := true }
      (fun t => (t.rspI, t.contents .tx, t.txIrqEn, t.txWire)) =
    some (⟨.OK, 0x00000011#32⟩, [0x22#8], true, []) := by decide
theorem test_txfGet_last : after .txfGet { holding .I [] [0x22#8] with txIrqEn := true }
      (fun t => (t.rspI, t.tx.count, t.txIrqEn)) =
    some (⟨.OK, 0x00000022#32⟩, 0#8, false) := by decide
theorem test_txfReadSize : after .txfReadSize (holding .I [] (counted 21)) (fun t => t.rspI) =
    some ⟨.OK, 0x00000015#32⟩ := by decide
theorem test_txfWriteSpace : after .txfWriteSpace (holding .F [] (counted 19)) (fun t => t.rspF) =
    some ⟨.OK, 0x00000002#32⟩ := by decide
theorem test_crcUpdate : after (.crcUpdate 0xF550#16 0x05#8) (holding .F [] []) (fun t => t.rspF) =
    some ⟨.OK, 0x0000BF1F#32⟩ := by decide
set_option maxRecDepth 20000 in
/-- The check values of 41_crc16.md R142 and R143 over "123456789". -/
theorem test_crc_check_values :
    [0x31#8, 0x32#8, 0x33#8, 0x34#8, 0x35#8, 0x36#8, 0x37#8, 0x38#8, 0x39#8].foldl
      (crcStep (.msbFirst 0x1021#16)) 0xFFFF#16 = 0x29B1#16 ∧
    [0x31#8, 0x32#8, 0x33#8, 0x34#8, 0x35#8, 0x36#8, 0x37#8, 0x38#8, 0x39#8].foldl
      (crcStep (.reflected 0xA001#16)) 0xFFFF#16 = 0x4B37#16 := by decide
theorem test_crc_reflected_step : crcStep (.reflected 0xA001#16) 0x1234#16 0x56#8 = 0xE993#16 := by decide
set_option maxRecDepth 8000 in
theorem test_tryReceiveFrame_valid :
    after .tryReceiveFrame (remote 7#8 [0xAA#8, 0xEC#8, 0x2D#8, 0x16#8, 0xD1#8])
      (fun t => (t.rspF, t.mode, t.silenceCount, t.lastRemote, t.rx.count)) =
    some (⟨.OK, 0xEC2D142D#32⟩, .REMOTE, 0#8, 0xEC2D142D#32, 0#8) := by decide
set_option maxRecDepth 8000 in
theorem test_tryReceiveFrame_bad_crc :
    after .tryReceiveFrame (remote 3#8 [0xAA#8, 0x05#8, 0x5A#8, 0xB3#8, 0x8B#8])
      (fun t => (t.rspF, t.mode, t.silenceCount, t.crcErrInd, t.lastRemote)) =
    some (⟨.NONE, 0x00000000#32⟩, .REMOTE, 3#8, true, 0x01020102#32) := by decide
set_option maxRecDepth 8000 in
theorem test_buildAndEnqueueFrame :
    after (.buildAndEnqueueFrame 0xEC#8 0x2D#8) (holding .F [] []) (fun t => (t.rspF, t.contents .tx, t.txIrqEn)) =
    some (⟨.OK, 0x00000000#32⟩, [0xAA#8, 0xEC#8, 0x2D#8, 0x16#8, 0xD1#8], true) := by decide
/-- Four bytes free: dropped, and TxIrqEval still runs (L2-6). -/
theorem test_buildAndEnqueueFrame_dropped :
    after (.buildAndEnqueueFrame 0x01#8 0x02#8) (holding .F [] (counted 17)) (fun t => (t.rspF, t.tx.count, t.txIrqEn)) =
    some (⟨.NONE, 0x00000000#32⟩, 17#8, true) := by decide
theorem test_rtsEval_at_stop : after .rtsEval (holding .F (counted 15) []) (fun t => t.rts) = some true := by decide
theorem test_rtsEval_between :
    after .rtsEval { holding .F (counted 12) [] with rts := true } (fun t => t.rts) = some true := by decide
theorem test_txIrqEval : after .txIrqEval (holding .I [] [0x11#8]) (fun t => t.txIrqEn) = some true := by decide
theorem test_txIrqEval_paused :
    after .txIrqEval { holding .I [] [0x11#8] with ctsIn := true, txIrqEn := true } (fun t => t.txIrqEn) =
      some false := by decide
theorem test_hwRxByte : after (.hwRxByte 0x00#8) (holding .I (counted 14) []) (fun t => (t.rspI, t.rx.count, t.rts)) =
    some (⟨.OK, 0x00000000#32⟩, 15#8, true) := by decide
theorem test_hwRxByte_full :
    after (.hwRxByte 0x02#8) (holding .I (counted 21) []) (fun t => (t.rspI, t.rx, t.rts)) =
      some (⟨.NONE, 0x00000000#32⟩, filled 21 (counted 21), true) := by decide
theorem test_txDrain : after .txDrain { holding .I [] [0xAA#8, 0x05#8] with txIrqEn := true }
      (fun t => (t.rspI, t.contents .tx, t.txWire, t.txIrqEn)) =
    some (⟨.OK, 0x000000AA#32⟩, [0x05#8], [0xAA#8], true) := by decide
theorem test_txDrain_paused : after .txDrain { holding .I [] [0xAA#8, 0x05#8] with txIrqEn := true, ctsIn := true }
      (fun t => (t.rspI, t.tx.count, t.txWire, t.txIrqEn)) =
    some (⟨.NONE, 0x00000000#32⟩, 2#8, [], true) := by decide
/-- The table of 95_test_vectors.md L2-5. -/
theorem test_controlValues_raw :
    controlValues .RAW 0x80#8 0x80#8 = 0x80808080#32 ∧ controlValues .RAW 0x00#8 0xB4#8 = 0x00B4004C#32 := by decide
theorem test_controlValues_offset90 :
    controlValues .OFFSET90 0x80#8 0x80#8 = 0x808080DA#32 ∧ controlValues .OFFSET90 0x63#8 0x9D#8 = 0x639D63BD#32 := by
  decide
/-- A cursor that no run reaches: the access stops by name (log 6). -/
theorem test_cursor_outside_storage :
    memRead .rx 21 State.reset = .error (.noSuchByte .rx 21) := rfl

/-! ### Witnesses: states and operands that meet the hypotheses of the statements, clause by clause -/

/-- A FIFO as 10_state.md R33 says, as one check. -/
def fifoChecked (s : State) (F : FifoId) : Bool :=
  decide (readSize F s ≤ s.cap F ∧ (s.fifo F).rd.toNat < s.cap F ∧
    (s.fifo F).wr.toNat = ((s.fifo F).rd.toNat + readSize F s) % s.cap F ∧ (s.fifo F).buf.wf ∧
    (∀ c ∈ (s.fifo F).buf, c.1 < s.cap F) ∧
    ∀ k < readSize F s, ((s.fifo F).buf.read? (((s.fifo F).rd.toNat + k) % s.cap F)).isSome = true)

theorem fifoOk_of_checked {s : State} {F : FifoId} (h : fifoChecked s F = true) : s.FifoOk F :=
  (State.fifoOk_iff s F).2 (of_decide_eq_true h)

/-- The invariant, as one check. -/
def invChecked (s : State) : Bool :=
  fifoChecked s .rx && fifoChecked s .tx && decide (s.cfg.WellFormed ∧ s.silenceCount.toNat ≤ s.cfg.silenceCeil ∧
    (s.mode = .REMOTE → s.silenceCount.toNat < s.cfg.silenceCeil) ∧ (s.txIrqEn = true → 0 < readSize .tx s) ∧
    (s.cfg.startErrToggle = false → s.frameErrInd = false) ∧
    s.rspF = lastResultOn .F s.results ∧ s.rspI = lastResultOn .I s.results)

theorem inv_of_checked {s : State} (h : invChecked s = true) : s.Inv := by
  simp only [invChecked, Bool.and_eq_true, decide_eq_true_eq] at h
  obtain ⟨⟨h1, h2⟩, h3, h4⟩ := h
  exact (State.inv_iff s).2 ⟨h3, fifoOk_of_checked h1, fifoOk_of_checked h2, h4⟩

theorem witness_EncodeOfDecode : decode 0x20FFFFAA#32 = .ok (.crcUpdate 0xFFFF#16 0xAA#8) := by decide

/-- Masked rows at the ends of their operands; then a word of an unlisted opcode, and words one bit off each format. -/
theorem witness_OpcodeMapRows :
    (0x100000FF#32 &&& 0xFFFFFF00#32 = 0x10000000#32 ∧ 0x18000000#32 &&& 0xFFFFFF00#32 = 0x18000000#32 ∧
      0x20FFFFFF#32 &&& 0xFF000000#32 = 0x20000000#32 ∧ 0x3100FFFF#32 &&& 0xFFFF0000#32 = 0x31000000#32 ∧
      0x480000FF#32 &&& 0xFFFFFF00#32 = 0x48000000#32) ∧
    ∀ w ∈ [0x00000000#32, 0x01000001#32, 0x49800000#32, 0x10000100#32, 0x48800000#32, 0x31010000#32, 0xFFFFFFFF#32],
      (∀ op ∈ [0x01#8, 0x02#8, 0x03#8, 0x11#8, 0x12#8, 0x13#8, 0x19#8, 0x1A#8, 0x1B#8, 0x30#8, 0x40#8, 0x41#8, 0x49#8],
        ¬ (w.extractLsb' 24 8 = op ∧ w.extractLsb' 0 24 = 0#24)) ∧
      (∀ op ∈ [0x10#8, 0x18#8, 0x48#8], ¬ (w.extractLsb' 24 8 = op ∧ w.extractLsb' 8 16 = 0#16)) ∧
      ¬ (w.extractLsb' 24 8 = 0x31#8 ∧ w.extractLsb' 16 8 = 0#8) ∧ w.extractLsb' 24 8 ≠ 0x20#8 := by
  refine ⟨by decide, ?_⟩
  intro w hw
  simp only [List.mem_cons, List.not_mem_nil, or_false] at hw
  rcases hw with rfl | rfl | rfl | rfl | rfl | rfl | rfl <;> exact ⟨by decide, by decide, by decide, by decide⟩

/-- The ends of the three ranges: -128 and 127, 128 and 255, -129 and 256. -/
theorem witness_DecimalOperandRange :
    byteOperand false (.dec (-128)) = .ok 0x80#8 ∧ byteOperand false (.dec 127) = .ok 0x7F#8 ∧
    byteOperand true (.dec 128) = .ok 0x80#8 ∧ byteOperand true (.dec 255) = .ok 0xFF#8 ∧
    byteOperand false (.dec 128) = .error .operandOutOfRange ∧
    byteOperand true (.dec (-129)) = .error .operandOutOfRange ∧
    byteOperand true (.dec 256) = .error .operandOutOfRange := by decide

/-- Reset with words on both ports and a schedule. -/
def scheduled (f i : List Word) (ts : List Turn) : State :=
  { State.reset with cmdF := f, cmdI := i, schedule := ts }

theorem witness_StepRunsDecodedCommand :
    let s := scheduled [0x02000000#32, 0x01000000#32] [0x49000000#32] [.issue .F, .issue .I]
    s.cfg.WellFormed ∧ s.schedule = [.issue .F, .issue .I] ∧ s.pending .F = [0x02000000#32, 0x01000000#32] ∧
      decode 0x02000000#32 = .ok .status := by decide

theorem witness_OtherTurns :
    Config.default.WellFormed ∧ (scheduled [] [] [.setCtsIn true]).schedule = [.setCtsIn true] ∧
    (scheduled [] [] [.setTxRegFullIn true]).schedule = [.setTxRegFullIn true] ∧
    (scheduled [] [] [.powerOn]).schedule = [.powerOn] ∧
    ((scheduled [] [] [.issue .I]).schedule = [.issue .I] ∧ (scheduled [] [] [.issue .I]).pending .I = []) ∧
    (scheduled [] [] []).schedule = [] := by decide

/-- Both sides of the equivalence occur: the default parameters, and RTS_STOP equal to RTS_START. -/
theorem witness_IllegalConfigurationRefused :
    step State.reset = .next State.reset ∧
    step { State.reset with cfg := { Config.default with rtsStop := 10 } } = .refused .illegalConfiguration :=
  ⟨rfl, rfl⟩

theorem witness_IllegalWordRaisesIllegalCommand :
    let s := scheduled [] [0x49000001#32, 0x49000000#32] [.issue .I]
    s.cfg.WellFormed ∧ s.schedule = [.issue .I] ∧ s.pending .I = [0x49000001#32, 0x49000000#32] ∧
    ∀ r ∈ opcodeMap, 0x49000001#32 &&& r.mask ≠ r.pattern := by decide

theorem witness_WrongPortRaisesIllegalCommand :
    ((holding .F [] []).port = .F ∧ Instr.rxfPut 0x00#8 = .rxfPut 0x00#8) ∧
    ((holding .I [] []).port = .I ∧ Instr.crcUpdate 0x0000#16 0x00#8 = .crcUpdate 0x0000#16 0x00#8) := by decide

/-- A command on its own port, and one off its role. -/
theorem witness_AllowedCommandNeverIllegal :
    (∃ t, exec .txfGet (holding .I [] []) = .next t) ∧ ∃ t, exec .txfGet (holding .F [] []) = .next t :=
  ⟨⟨_, rfl⟩, ⟨_, rfl⟩⟩

theorem witness_EveryCommandAnswersOnce : ∃ t, exec .status busy = .next t := ⟨_, rfl⟩

theorem witness_PowerOnResetValues :
    (∃ t, t = State.resetWith { Config.default with silenceCeil := 255 }) ∧ ∃ t, t = powerOnReset busy :=
  ⟨⟨_, rfl⟩, ⟨_, rfl⟩⟩

theorem witness_InitCommand : busy.port = .F ∧ busy.cfg.rtsStart ≤ busy.cfg.rxCap ∧ (holding .I [] []).port = .I ∧
    (0x01800000#32).extractLsb' 24 8 = 0x01#8 ∧ (0x01800000#32).extractLsb' 0 24 ≠ 0#24 := by decide

theorem witness_LastRemoteCommand : busy.port = .F ∧ busy.lastRemote ≠ 0#32 := by decide

/-- A full FIFO, and one with a single byte free whose write cursor is at the last index. -/
theorem witness_FifoPutRule :
    readSize .rx (holding .I (counted 21) []) = (holding .I (counted 21) []).cap .rx ∧
    (readSize .rx (holding .I (counted 20) []) < (holding .I (counted 20) []).cap .rx ∧
      (holding .I (counted 20) []).rx.wr.toNat = 20 ∧ (holding .I (counted 20) []).cap .rx = 21) := by decide

theorem witness_FifoGetRule :
    readSize .tx (holding .I [] []) = 0 ∧
    (0 < readSize .tx (holding .I [] [0x11#8]) ∧
      (holding .I [] [0x11#8]).tx.rd.toNat < (holding .I [] [0x11#8]).cap .tx) ∧
    ((holding .F [] []).port = .F ∧ readSize .rx (holding .F [] []) = 0) ∧
    ((holding .I [] []).port = .I ∧ readSize .tx (holding .I [] []) = 0) := by decide

theorem witness_FifoLaws :
    (∃ t, fifoPut .rx 0x00#8 (holding .I (counted 20) []) = .ok (t, true)) ∧
    ∃ v t, fifoGet .rx (holding .F [0x11#8] []) = .ok (v, true, t) := ⟨⟨_, rfl⟩, ⟨_, _, rfl⟩⟩

/-- Six bytes fill a FIFO of capacity 21 that holds 15. -/
theorem witness_AllBytesUsable : (holding .F [] (counted 15)).FifoOk .tx ∧ (holding .F [] (counted 15)).cap .tx ≤ 255 ∧
    readSize .tx (holding .F [] (counted 15)) + (counted 6).length = (holding .F [] (counted 15)).cap .tx :=
  ⟨fifoOk_of_checked (by decide), by decide, by decide⟩

theorem witness_RxfPutCommand :
    ((holding .I (counted 21) []).port = .I ∧ (holding .I (counted 21) []).FifoOk .rx ∧
      readSize .rx (holding .I (counted 21) []) = (holding .I (counted 21) []).cap .rx) ∧
    (holding .I (counted 20) []).FifoOk .rx ∧
      readSize .rx (holding .I (counted 20) []) < (holding .I (counted 20) []).cap .rx :=
  ⟨⟨rfl, fifoOk_of_checked (by decide), by decide⟩, fifoOk_of_checked (by decide), by decide⟩

theorem witness_TxfPutCommand :
    ((holding .F [] (counted 21)).port = .F ∧ (holding .F [] (counted 21)).FifoOk .tx ∧
      readSize .tx (holding .F [] (counted 21)) = (holding .F [] (counted 21)).cap .tx) ∧
    (holding .F [] (counted 20)).FifoOk .tx ∧
      readSize .tx (holding .F [] (counted 20)) < (holding .F [] (counted 20)).cap .tx :=
  ⟨⟨rfl, fifoOk_of_checked (by decide), by decide⟩, fifoOk_of_checked (by decide), by decide⟩

theorem witness_RxfGetCommand :
    ((holding .F [] []).port = .F ∧ (holding .F [] []).FifoOk .rx ∧ (holding .F [] []).contents .rx = []) ∧
    (holding .F [0x11#8] []).FifoOk .rx ∧ (holding .F [0x11#8] []).contents .rx = [0x11#8] :=
  ⟨⟨rfl, fifoOk_of_checked (by decide), by decide⟩, fifoOk_of_checked (by decide), by decide⟩

theorem witness_TxfGetCommand :
    ((holding .I [] []).port = .I ∧ (holding .I [] []).FifoOk .tx ∧ (holding .I [] []).contents .tx = []) ∧
    (holding .I [] [0x11#8]).FifoOk .tx ∧ (holding .I [] [0x11#8]).contents .tx = [0x11#8] :=
  ⟨⟨rfl, fifoOk_of_checked (by decide), by decide⟩, fifoOk_of_checked (by decide), by decide⟩

theorem witness_FifoQueries :
    (readSize .rx (holding .F (counted 21) []) ≤ (holding .F (counted 21) []).cap .rx ∧
      (holding .F (counted 21) []).cap .rx ≤ 255) ∧
    readSize .tx (holding .F (counted 21) []) ≤ (holding .F (counted 21) []).cap .tx ∧
      (holding .F (counted 21) []).cap .tx ≤ 255 := by decide

theorem witness_OnlyPutBytesObserved :
    ((holding .F [0x11#8] []).Inv ∧ ∃ t, exec .rxfGet (holding .F [0x11#8] []) = .next t ∧ (t.rsp .F).code = .OK) ∧
    ((holding .I [] [0x11#8]).Inv ∧ ∃ t, exec .txfGet (holding .I [] [0x11#8]) = .next t ∧ (t.rsp .I).code = .OK) ∧
    ∃ t, exec .txDrain (holding .I [] [0x11#8]) = .next t ∧ (t.rsp .I).code = .OK :=
  ⟨⟨inv_of_checked (by decide), _, rfl, rfl⟩, ⟨inv_of_checked (by decide), _, rfl, rfl⟩, _, rfl, rfl⟩

theorem witness_CrcUpdateCommand : (holding .F [] []).port = .F ∧ (holding .I [] []).port = .I ∧
    (0x20FFFFFF#32).extractLsb' 24 8 = 0x20#8 := by decide

/-- FrameCRC agrees on equal pairs; bit 7 of a byte is the last the second clause flips. -/
theorem witness_FrameCrcOneToOne :
    frameCrc (.msbFirst 0x1021#16) 0xAA#8 0x05#8 0x5A#8 = frameCrc (.msbFirst 0x1021#16) 0xAA#8 0x05#8 0x5A#8 ∧
    (1#8 <<< 7) ≠ 0#8 ∧ 7 < 8 := ⟨rfl, by decide, by decide⟩

/-- Four bytes at a count one below the ceiling, and an empty RX at the ceiling. -/
theorem witness_ShortPoll :
    ((remote 9#8 (counted 4)).port = .F ∧ readSize .rx (remote 9#8 (counted 4)) = 4 ∧
      (remote 9#8 (counted 4)).cfg.silenceCeil ≤ 255) ∧
    ({ remote 10#8 [] with mode := .LOCAL }).silenceCount.toNat =
      ({ remote 10#8 [] with mode := .LOCAL }).cfg.silenceCeil := by decide

set_option maxRecDepth 8000 in
/-- RX as WindowPoll's hypotheses ask, for a start byte one bit off, a wrong low CRC byte, and a valid frame. -/
theorem witness_WindowPoll :
    (∀ b ∈ [[0x2A#8, 0x05#8, 0x5A#8, 0xB2#8, 0x8B#8], [0xAA#8, 0x05#8, 0x5A#8, 0xB2#8, 0x8A#8], frame590],
      (holding .F b []).port = .F ∧ (holding .F b []).FifoOk .rx ∧ (holding .F b []).cap .rx ≤ 255 ∧
      (holding .F b []).contents .rx = b) ∧
    0x2A#8 ≠ 0xAA#8 ∧
    frameCrc Config.default.crcStep 0xAA#8 0x05#8 0x5A#8 ≠ (BitVec.setWidth 16 0xB2#8 <<< 8) ||| BitVec.setWidth 16 0x8A#8 ∧
    frameCrc Config.default.crcStep 0xAA#8 0x05#8 0x5A#8 = (BitVec.setWidth 16 0xB2#8 <<< 8) ||| BitVec.setWidth 16 0x8B#8 := by
  refine ⟨?_, by decide, by decide, by decide⟩
  simp only [List.forall_mem_cons, List.not_mem_nil, false_implies, implies_true, and_true]
  exact ⟨⟨rfl, fifoOk_of_checked (by decide), by decide, by decide⟩,
    ⟨rfl, fifoOk_of_checked (by decide), by decide, by decide⟩,
    rfl, fifoOk_of_checked (by decide), by decide, by decide⟩

/-- Counts 8 and 9 with a ceiling of 10 fall on either side of the table's first two rows. -/
theorem witness_LinkStateTable :
    ((remote 8#8 []).port = .F ∧ (remote 8#8 []).FifoOk .rx ∧ (remote 8#8 []).cfg.WellFormed ∧
      readSize .rx (remote 8#8 []) < 5 ∧ min (8 + 1) 10 < 10 ∧
      ∃ t, exec .tryReceiveFrame (remote 8#8 []) = .next t) ∧
    ((remote 9#8 []).FifoOk .rx ∧ min (9 + 1) 10 = 10 ∧ ∃ t, exec .tryReceiveFrame (remote 9#8 []) = .next t) ∧
    ((remote 9#8 frame590).FifoOk .rx ∧ (remote 9#8 frame590).contents .rx = frame590 ∧
      ∃ t, exec .tryReceiveFrame (remote 9#8 frame590) = .next t) ∧
    (∃ t, exec .init busy = .next t) ∧
    ∃ t, exec .rtsEval busy = .next t :=
  ⟨⟨rfl, fifoOk_of_checked (by decide), by decide, by decide, by decide, _, rfl⟩,
    ⟨fifoOk_of_checked (by decide), by decide, _, rfl⟩,
    ⟨fifoOk_of_checked (by decide), by decide, _, rfl⟩, ⟨_, rfl⟩, _, rfl⟩

theorem witness_SilenceDemotesOnTime : (remote 9#8 (counted 4)).Inv ∧ (remote 9#8 (counted 4)).port = .F ∧
    (remote 9#8 (counted 4)).mode = .REMOTE ∧ readSize .rx (remote 9#8 (counted 4)) < 5 :=
  ⟨inv_of_checked (by decide), rfl, rfl, by decide⟩

/-- Exactly 5 bytes free, and 4. -/
theorem witness_BuildFrameCommand :
    ((holding .F [] (counted 16)).port = .F ∧ (holding .F [] (counted 16)).FifoOk .tx ∧
      5 ≤ writeSpace .tx (holding .F [] (counted 16))) ∧
    (holding .F [] (counted 17)).FifoOk .tx ∧ writeSpace .tx (holding .F [] (counted 17)) < 5 :=
  ⟨⟨rfl, fifoOk_of_checked (by decide), by decide⟩, fifoOk_of_checked (by decide), by decide⟩

theorem witness_RoundTrip :
    ((holding .F [] (counted 16)).Inv ∧ (holding .F [] (counted 16)).port = .F ∧
      5 ≤ writeSpace .tx (holding .F [] (counted 16))) ∧
    (holding .I [] []).Inv ∧ (holding .I [] []).port = .I ∧
      (holding .I [] []).cfg = (holding .F [] (counted 16)).cfg ∧ (holding .I [] []).contents .rx = [] :=
  ⟨⟨inv_of_checked (by decide), rfl, by decide⟩, inv_of_checked (by decide), rfl, rfl, by decide⟩

set_option maxRecDepth 8000 in
theorem witness_CorruptChecksumRejected :
    (holding .F [0xAA#8, 0xEC#8, 0x2D#8, 0x16#8, 0xD0#8] []).port = .F ∧
    (holding .F [0xAA#8, 0xEC#8, 0x2D#8, 0x16#8, 0xD0#8] []).FifoOk .rx ∧
    (holding .F [0xAA#8, 0xEC#8, 0x2D#8, 0x16#8, 0xD0#8] []).contents .rx = [0xAA#8, 0xEC#8, 0x2D#8, 0x16#8, 0xD0#8] ∧
    (0x16#8, 0xD0#8) ≠ (((frameCrc Config.default.crcStep 0xAA#8 0xEC#8 0x2D#8).extractLsb' 8 8 : Byte),
      ((frameCrc Config.default.crcStep 0xAA#8 0xEC#8 0x2D#8).extractLsb' 0 8 : Byte)) :=
  ⟨rfl, fifoOk_of_checked (by decide), by decide, by decide⟩

set_option maxRecDepth 8000 in
theorem witness_LastRemoteOnlyByValidFrame :
    (∃ t, exec .init busy = .next t ∧ t.lastRemote ≠ busy.lastRemote) ∧
    ∃ t, exec .tryReceiveFrame (remote 7#8 frame590) = .next t ∧ t.lastRemote ≠ (remote 7#8 frame590).lastRemote :=
  ⟨⟨_, rfl, by decide⟩, _, rfl, by decide⟩

theorem witness_ZeroOrFiveBytes :
    ((remote 7#8 frame590).Inv ∧ ∃ t, exec .tryReceiveFrame (remote 7#8 frame590) = .next t) ∧
    (holding .F [] (counted 16)).Inv ∧
      ∃ t, exec (.buildAndEnqueueFrame 0x01#8 0x02#8) (holding .F [] (counted 16)) = .next t :=
  ⟨⟨inv_of_checked (by decide), _, rfl⟩, inv_of_checked (by decide), _, rfl⟩

/-- Free space 10 and 6 are the thresholds; 7 and 9 are the ends of the gap between them. -/
theorem witness_RtsEvalCommand :
    Config.default.rtsStop < Config.default.rtsStart ∧
    (Config.default.rtsStart : Int) ≤ writeSpace .rx (holding .F (counted 11) []) ∧
    writeSpace .rx (holding .F (counted 15) []) ≤ (Config.default.rtsStop : Int) ∧
    ((Config.default.rtsStop : Int) < writeSpace .rx (holding .F (counted 14) []) ∧
      writeSpace .rx (holding .F (counted 12) []) < (Config.default.rtsStart : Int)) := by decide

/-- Both signals fall or rise at the thresholds; thresholds two apart and one apart. -/
theorem witness_HysteresisLaws :
    Config.default.rtsStop < Config.default.rtsStart ∧ rtsNext Config.default 10 true = false ∧
    rtsNext Config.default 6 false = true ∧ Config.default.rtsStop + 2 ≤ Config.default.rtsStart ∧
    ({ Config.default with rtsStart := 7 }).rtsStart = ({ Config.default with rtsStart := 7 }).rtsStop + 1 := by decide

theorem witness_HwRxByteCommand :
    ((holding .I (counted 21) []).port = .I ∧ (holding .I (counted 21) []).FifoOk .rx ∧
      readSize .rx (holding .I (counted 21) []) = (holding .I (counted 21) []).cap .rx) ∧
    (holding .I (counted 20) []).FifoOk .rx ∧
      readSize .rx (holding .I (counted 20) []) < (holding .I (counted 20) []).cap .rx :=
  ⟨⟨rfl, fifoOk_of_checked (by decide), by decide⟩, fifoOk_of_checked (by decide), by decide⟩

/-- The push that brings the free space from 7 to 6, and six bytes from there. -/
theorem witness_OverrunMargin :
    ((holding .I (counted 14) []).Inv ∧ (holding .I (counted 14) []).port = .I ∧
      ∃ t, exec (.hwRxByte 0x00#8) (holding .I (counted 14) []) = .next t ∧
        writeSpace .rx t ≤ (Config.default.rtsStop : Int)) ∧
    (holding .I (counted 15) []).Inv ∧
      writeSpace .rx (holding .I (counted 15) []) = (Config.default.rtsStop : Int) ∧
      (counted 6).length ≤ Config.default.rtsStop :=
  ⟨⟨inv_of_checked (by decide), rfl, _, rfl, by decide⟩, inv_of_checked (by decide), by decide, by decide⟩

/-- Each way the gate stays shut, and the gate open over one byte and over two. -/
theorem witness_TxDrainCommand :
    ({ holding .I [] [0x11#8] with ctsIn := true }).FifoOk .tx ∧
    ({ holding .I [] [0x11#8] with txRegFullIn := true }).FifoOk .tx ∧
    ((holding .I [] []).FifoOk .tx ∧ (holding .I [] []).contents .tx = []) ∧
    ((holding .I [] [0x11#8]).FifoOk .tx ∧ (holding .I [] [0x11#8]).contents .tx = [0x11#8] ∧
      (holding .I [] [0x11#8]).ctsIn = false ∧ (holding .I [] [0x11#8]).txRegFullIn = false) ∧
    (holding .I [] [0x11#8, 0x22#8]).contents .tx = [0x11#8, 0x22#8] :=
  ⟨fifoOk_of_checked (by decide), fifoOk_of_checked (by decide), ⟨fifoOk_of_checked (by decide), by decide⟩,
    ⟨fifoOk_of_checked (by decide), by decide, rfl, rfl⟩, by decide⟩

theorem witness_TransmitGate : (holding .I [] [0x11#8]).Inv ∧
    ∃ t, exec .txDrain (holding .I [] [0x11#8]) = .next t ∧ t.txWire ≠ (holding .I [] [0x11#8]).txWire :=
  ⟨inv_of_checked (by decide), _, rfl, by decide⟩

theorem witness_IndicatorsNeverSteer :
    (∃ t, exec .txDrain (holding .I [] [0x11#8]) = .next t) ∧ ∃ t, exec .rtsEval busy = .next t :=
  ⟨⟨_, rfl⟩, _, rfl⟩

/-- The smallest legal parameters. -/
theorem witness_ResetMeetsInvariant :
    ({ Config.default with rxCap := 5, txCap := 5, rtsStart := 1, rtsStop := 0, silenceCeil := 1 }).WellFormed := by
  decide

theorem witness_StepKeepsInvariant :
    (scheduled [] [0x480000AA#32] [.issue .I]).Inv ∧
    ∃ t, step (scheduled [] [0x480000AA#32] [.issue .I]) = .next t := ⟨inv_of_checked (by decide), _, rfl⟩

theorem witness_MachineNeverStops : (scheduled [0xFFFFFFFF#32] [] [.issue .F]).Inv := inv_of_checked (by decide)

theorem witness_ParametersNeverChange : ∃ t, step (scheduled [0x01000000#32] [] [.issue .F]) = .next t := ⟨_, rfl⟩

/-- The byte 0x11 stored at index 0, and the same byte stored at the last index with another byte left in storage. -/
def atStart : State := { scheduled [0x11000000#32] [] [.issue .F] with rx := filled 21 [0x11#8] }
def atEnd : State :=
  { scheduled [0x11000000#32] [] [.issue .F] with
    rx := { buf := [(3, 0x99#8), (20, 0x11#8)], rd := 20#8, wr := 0#8, count := 1#8 } }

theorem witness_CursorsAreHidden : atStart.Inv ∧ atEnd.Inv ∧ atStart.SameToCommands atEnd ∧ atStart ≠ atEnd ∧
    ∃ t, step atStart = .next t :=
  ⟨inv_of_checked (by decide), inv_of_checked (by decide),
    ⟨by decide, fun F => by cases F <;> decide⟩, by decide, _, rfl⟩

/-- Commands under which elements do change. -/
theorem witness_AccessSummary :
    (∃ t, exec .rxfGet (holding .F [0x11#8] []) = .next t ∧ t.rx ≠ (holding .F [0x11#8] []).rx) ∧
    (∃ t, exec .txDrain (holding .I [] [0x11#8]) = .next t ∧ t.tx ≠ (holding .I [] [0x11#8]).tx) ∧
    ∃ t, exec .tryReceiveFrame (remote 9#8 []) = .next t ∧ t.mode ≠ (remote 9#8 []).mode :=
  ⟨⟨_, rfl, by decide⟩, ⟨_, rfl, by decide⟩, _, rfl, by decide⟩

/-- A storage byte that a put changes from a known value. -/
def overwriting (p : Port) : State :=
  { State.reset with
    port := p
    rx := { Fifo.reset with buf := [(0, 0x99#8)] }
    tx := { Fifo.reset with buf := [(0, 0x99#8)] } }

set_option maxRecDepth 8000 in
theorem witness_StorageWrites :
    (overwriting .I).cfg.WellFormed ∧
    (∃ t, exec (.hwRxByte 0x11#8) (overwriting .I) = .next t ∧ t.byteAt .rx 0 ≠ (overwriting .I).byteAt .rx 0) ∧
    (∃ t, exec (.txfPut 0x11#8) (overwriting .F) = .next t ∧ t.byteAt .tx 0 ≠ (overwriting .F).byteAt .tx 0) ∧
    ∃ t, exec (.buildAndEnqueueFrame 0x01#8 0x02#8) (overwriting .F) = .next t ∧
      t.byteAt .tx 0 ≠ (overwriting .F).byteAt .tx 0 :=
  ⟨by decide, ⟨_, rfl, by decide⟩, ⟨_, rfl, by decide⟩, _, rfl, by decide⟩

theorem witness_RoleSeparation :
    ((holding .F [0x11#8] []).Inv ∧ ∃ t, exec .rxfGet (holding .F [0x11#8] []) = .next t) ∧
    (holding .I [] [0x11#8]).Inv ∧ ∃ t, exec .txDrain (holding .I [] [0x11#8]) = .next t :=
  ⟨⟨inv_of_checked (by decide), _, rfl⟩, inv_of_checked (by decide), _, rfl⟩

theorem witness_QueriesAndIdempotentWrites :
    (∃ t u, exec .status busy = .next t ∧ exec .status t = .next u) ∧
    ∃ t u, exec .rtsEval busy = .next t ∧ exec .rtsEval t = .next u := ⟨⟨_, _, rfl, rfl⟩, _, _, rfl, rfl⟩

end Sys2Proof.Tests
end

/-! PROOFS. The frame-sized moves of the FIFOs (20_memory.md R68): a window takes the five oldest bytes of RX, an
enqueued frame adds five bytes at the back of TX, and nothing a poll or a send does besides touches stored bytes. -/

namespace Sys2Proof.Machine

/-- Judging a window writes flags, the link state and a result, never a stored byte (42_frame_link.md R160). -/
@[simp] theorem judgeWindow_contents (w : Window) (s : State) (F : FifoId) :
    (judgeWindow w s).contents F = s.contents F := by
  rw [judgeWindow]
  split
  · simp
  · split <;> simp

/-- The bytes of a window, in frame order (42_frame_link.md R160 step 2). -/
def Window.bytes (w : Window) : List Byte := [w.start, w.speed, w.angle, w.hi, w.lo]

@[simp] theorem Window.bytes_length (w : Window) : w.bytes.length = 5 := rfl

@[simp] theorem frameBytes_length (c : CrcStep) (sp an : Byte) : (frameBytes c sp an).length = 5 := rfl

/-- A window taken while RX holds five bytes or more is the front of RX's contents. -/
theorem contents_of_takeWindow {s u : State} {w : Window} (hok : s.FifoOk .rx) (hcap : s.cap .rx ≤ 255)
    (hsize : 5 ≤ readSize .rx s) (hw : takeWindow s = .ok (w, u)) :
    s.contents .rx = w.bytes ++ u.contents .rx := by
  rw [← contents_length] at hsize
  match hc : s.contents .rx, hsize with
  | b0 :: b1 :: b2 :: b3 :: b4 :: rest, _ =>
    obtain ⟨u', hw', -, hrest, -⟩ := takeWindow_of_contents hok hcap hc
    obtain ⟨rfl, rfl⟩ : ⟨b0, b1, b2, b3, b4⟩ = w ∧ u' = u := by simpa using hw'.symm.trans hw
    rw [hrest]
    rfl

/-- Puts that fit, once they have answered, have appended their bytes. -/
theorem contents_of_fifoPutAll {F : FifoId} {bs : List Byte} {s u : State} (hok : s.FifoOk F) (hcap : s.cap F ≤ 255)
    (hroom : (bs.length : Int) ≤ writeSpace F s) (hput : fifoPutAll F bs s = .ok u) :
    u.contents F = s.contents F ++ bs := by
  simp only [writeSpace] at hroom
  obtain ⟨u', hput', -, hcont, -⟩ := fifoPutAll_room F bs s hok hcap (by omega)
  obtain rfl : u' = u := by simpa using hput'.symm.trans hput
  exact hcont

/-- Settles O42: a window is all or nothing, and so is a frame's row of puts. -/
theorem zeroOrFiveBytes : Obligations.ZeroOrFiveBytes := by
  intro s t hinv
  constructor
  · intro h
    rcases exec_tryReceiveFrame_cases h with ⟨-, rfl⟩ | ⟨-, -, rfl⟩ | ⟨-, hsize, w, u, hw, rfl⟩
    · exact ⟨[], by simp, .inl rfl⟩
    · exact ⟨[], by simp, .inl rfl⟩
    · refine ⟨w.bytes, ?_, .inr w.bytes_length⟩
      rw [judgeWindow_contents]
      exact contents_of_takeWindow (hinv.fifo_ok .rx) (hinv.cap_le .rx) hsize hw
  · intro sp an h
    rcases exec_buildAndEnqueueFrame_cases h with ⟨-, rfl⟩ | ⟨-, -, rfl⟩ | ⟨-, hroom, u, hput, rfl⟩
    · exact ⟨[], by simp, .inl rfl⟩
    · exact ⟨[], by simp, .inl rfl⟩
    · refine ⟨frameBytes s.cfg.crcStep sp an, ?_, .inr (frameBytes_length _ _ _)⟩
      rw [respond_contents, txIrqEval_contents]
      exact contents_of_fifoPutAll (hinv.fifo_ok .tx) (hinv.cap_le .tx) hroom hput

end Sys2Proof.Machine

/-! PROOFS. The status word read back field by field (30_encoding.md R96): three whole bytes above one byte of
levels. A field of a concatenation is read from the part it lies in. -/

namespace Sys2Proof.Machine

theorem extractLsb'_append_low {n m start len : Nat} (hi : BitVec n) (lo : BitVec m) (h : start + len ≤ m) :
    (hi ++ lo).extractLsb' start len = lo.extractLsb' start len := by
  apply BitVec.eq_of_getLsbD_eq
  intro i hlt
  simp [BitVec.getLsbD_append, hlt, show start + i < m by omega]

theorem extractLsb'_append_high {n m start len : Nat} (hi : BitVec n) (lo : BitVec m) (h : m ≤ start) :
    (hi ++ lo).extractLsb' start len = hi.extractLsb' (start - m) len := by
  apply BitVec.eq_of_getLsbD_eq
  intro i hlt
  simp [BitVec.getLsbD_append, hlt, show ¬ start + i < m by omega, show start + i - m = start - m + i by omega]

theorem bit_getLsbD_zero (level : Bool) : (bit level).getLsbD 0 = level := by simp [bit]

theorem Mode.bit_getLsbD_zero (m : Mode) : m.bit.getLsbD 0 = decide (m = .REMOTE) := by
  cases m <;> rfl

theorem statusWord_mode (s : State) : (statusWord s).getLsbD 0 = decide (s.mode = .REMOTE) := by
  simp only [statusWord, BitVec.getLsbD_append]
  exact s.mode.bit_getLsbD_zero

/-- Bits 1 to 5 hold the levels, one each: the case split of `getLsbD_append` picks the part by its position. -/
theorem statusWord_levels (s : State) :
    (statusWord s).getLsbD 1 = s.rts ∧ (statusWord s).getLsbD 2 = s.ctsIn ∧ (statusWord s).getLsbD 3 = s.txIrqEn ∧
    (statusWord s).getLsbD 4 = s.crcErrInd ∧ (statusWord s).getLsbD 5 = s.frameErrInd := by
  simp only [statusWord, BitVec.getLsbD_append]
  exact ⟨bit_getLsbD_zero _, bit_getLsbD_zero _, bit_getLsbD_zero _, bit_getLsbD_zero _, bit_getLsbD_zero _⟩

theorem statusWord_reserved (s : State) : (statusWord s).extractLsb' 6 2 = 0#2 := by
  rw [statusWord, extractLsb'_append_low _ _ (by decide)]
  iterate 6 rw [extractLsb'_append_high _ _ (by decide)]
  exact BitVec.extractLsb'_eq_self

theorem statusWord_silenceCount (s : State) : (statusWord s).extractLsb' 8 8 = s.silenceCount := by
  rw [statusWord, extractLsb'_append_high _ _ (by decide), extractLsb'_append_low _ _ (by decide)]
  exact BitVec.extractLsb'_eq_self

theorem statusWord_rxCount (s : State) : (statusWord s).extractLsb' 16 8 = s.rx.count := by
  rw [statusWord]
  iterate 2 rw [extractLsb'_append_high _ _ (by decide)]
  rw [extractLsb'_append_low _ _ (by decide)]
  exact BitVec.extractLsb'_eq_self

theorem statusWord_txCount (s : State) : (statusWord s).extractLsb' 24 8 = s.tx.count := by
  rw [statusWord]
  iterate 3 rw [extractLsb'_append_high _ _ (by decide)]
  exact BitVec.extractLsb'_eq_self

/-- Settles O16: STATUS passes the port check on both ports, and each field of the word it answers reads back. -/
theorem statusCommand : Obligations.StatusCommand := by
  intro s
  obtain ⟨hrts, hcts, hirq, hcrc, hframe⟩ := statusWord_levels s
  exact ⟨respond .OK (statusWord s) s, statusWord s, exec_status_next, onlyResult_respond s _ _,
    answers_respond s s _ _ rfl rfl rfl rfl, statusWord_mode s, hrts, hcts, hirq, hcrc, hframe,
    statusWord_reserved s, statusWord_silenceCount s, statusWord_rxCount s, statusWord_txCount s⟩

end Sys2Proof.Machine

/-! PROOFS. The rules of the two FIFO primitives (40_fifo.md R110, R112), and what the commands that get from a FIFO
do when it is empty: they answer (NONE, 0). -/

namespace Sys2Proof.Machine

/-! ### Gets from an empty FIFO -/

theorem count_eq_zero_of_readSize {F : FifoId} {s : State} (h : readSize F s = 0) : (s.fifo F).count = 0#8 :=
  BitVec.eq_of_toNat_eq h

theorem exec_rxfGet_of_empty {s : State} (hp : s.port = .F) (h : readSize .rx s = 0) :
    exec .rxfGet s = .next (respond .NONE 0#32 s) := by
  have hget := fifoGet_empty .rx s (count_eq_zero_of_readSize h)
  refine (onAllowedPort_of_allowed _ (by rw [hp]; rfl)).trans ?_
  rw [hget]
  rfl

theorem exec_txfGet_of_empty {s : State} (hp : s.port = .I) (h : readSize .tx s = 0) :
    exec .txfGet s = .next (respond .NONE 0#32 (txEmptyClear s)) := by
  have hget := fifoGet_empty .tx s (count_eq_zero_of_readSize h)
  refine (onAllowedPort_of_allowed _ (by rw [hp]; rfl)).trans ?_
  rw [hget]
  rfl

theorem exec_txDrain_of_shut {s : State} (hp : s.port = .I) (h : drainGate s = false) :
    exec .txDrain s = .next (respond .NONE 0#32 (txEmptyClear s)) := by
  refine (onAllowedPort_of_allowed _ (by rw [hp]; rfl)).trans ?_
  simp [h]

theorem drainGate_of_empty {s : State} (h : readSize .tx s = 0) : drainGate s = false := by
  rw [Bool.eq_false_iff]
  intro hg
  exact ((drainGate_eq_true s).1 hg).2.1 (count_eq_zero_of_readSize h)

/-- TxEmptyClear and then (NONE, 0): what both gets from TX do when it is empty (40_fifo.md R118; 43_flow_control.md
R197). -/
theorem answers_txEmptyClear_none (s : State) : s.Answers (respond .NONE 0#32 (txEmptyClear s)) .NONE 0#32 :=
  answers_respond s (txEmptyClear s) _ _ rfl rfl rfl rfl

/-! ### The rules -/

/-- Settles O18: `fifoPut_full` and `fifoPut_room` say what a put answers, and the laws of `afterPut` what it
leaves. -/
theorem fifoPutRule : Obligations.FifoPutRule := by
  intro F b s
  refine ⟨fifoPut_full F b s, fun hroom hwr hcap => ?_⟩
  have hput := fifoPut_room F b s hroom.ne hwr
  have hcursor : ((afterPut F b s).fifo F).wr.toNat = ((s.fifo F).wr.toNat + 1) % s.cap F := by
    rw [afterPut_fifo_same]
    exact advance_toNat _ _ (by omega) hcap
  exact ⟨afterPut F b s, hput, byteAt_afterPut_same F b s, fun G => byteAt_afterPut F G b s, hcursor,
    readSize_afterPut F b s (by omega), by rw [afterPut_fifo_same],
    fun G => afterPut_fifo_other F G b s, afterPut_frame F b s⟩

/-- Settles O19: `fifoGet_empty` and `fifoGet_some` say what a get answers, and the laws of `afterGet` what it
leaves. TX_DRAIN never reaches its get on an empty TX: the transmit gate is shut. -/
theorem fifoGetRule : Obligations.FifoGetRule := by
  refine ⟨fun F s => ⟨fun hempty => ?_, fun hpos hrd hcap => ?_⟩, fun s hp hempty => ?_,
    fun s i hp hempty hi => ?_⟩
  · exact fifoGet_empty F s (count_eq_zero_of_readSize hempty)
  · have hget := fifoGet_some F s ((readSize_pos_iff F s).1 hpos) hrd
    have hcursor : ((afterGet F s).fifo F).rd.toNat = ((s.fifo F).rd.toNat + 1) % s.cap F := by
      rw [afterGet_fifo_same]
      exact advance_toNat _ _ (by omega) hcap
    exact ⟨afterGet F s, hget, hcursor, readSize_afterGet F s hpos, by rw [afterGet_fifo_same],
      sameBytes_afterGet F s, fun G => afterGet_fifo_other F G s, afterGet_frame F s⟩
  · exact ⟨_, exec_rxfGet_of_empty hp hempty, answers_respond s s _ _ rfl rfl rfl rfl⟩
  · rcases hi with rfl | rfl
    · exact ⟨_, exec_txfGet_of_empty hp hempty, answers_txEmptyClear_none s⟩
    · exact ⟨_, exec_txDrain_of_shut hp (drainGate_of_empty hempty), answers_txEmptyClear_none s⟩

end Sys2Proof.Machine

/-! PROOFS. The CRC-16 engine (41_crc16.md): the command that steps it once (R144), and the CRC and bytes of a
frame (R145). -/

namespace Sys2Proof.Machine

/-- The mask of CRC_UPDATE's row covers the opcode only: format C has no reserved bits (30_encoding.md R85). -/
theorem decode_of_opcode_crcUpdate {w : Word} (h : fieldOpcode w = 0x20#8) :
    decode w = .ok (.crcUpdate (fieldC w) (fieldB w)) := by
  rw [word_eq_opcode_payload w, h, decode_opcode_payload]
  simp [opcodeMap, fieldOpcode, fieldPayload]

theorem exec_crcUpdate_of_F {c : Half} {b : Byte} {s : State} (hp : s.port = .F) :
    exec (.crcUpdate c b) s = .next (respond .OK (word16 (crcStep s.cfg.crcStep c b)) s) :=
  onAllowedPort_of_allowed _ (by rw [hp]; rfl)

theorem exec_crcUpdate_of_I {c : Half} {b : Byte} {s : State} (hp : s.port = .I) :
    exec (.crcUpdate c b) s = .next (raiseIllegalCommand s) :=
  exec_of_not_allowed _ s (by rw [hp]; rfl)

/-- Settles O28: on either port the command does no more than respond; the corner cases run the default step. -/
theorem crcUpdateCommand : Obligations.CrcUpdateCommand := by
  refine ⟨fun c b s hp => ?_, fun c b s hp => ?_, fun w hop => ?_, ?_⟩
  · exact ⟨_, exec_crcUpdate_of_F hp, onlyResult_respond s _ _, answers_respond s s _ _ rfl rfl rfl rfl⟩
  · exact ⟨_, exec_crcUpdate_of_I hp, onlyResult_respond s _ _, answers_raiseIllegalCommand s⟩
  · exact decode_of_opcode_crcUpdate hop
  · decide

/-- Settles O29: the definitions of FrameCRC and of a frame's bytes are R145 and R93 as written. -/
theorem frameCrcRule : Obligations.FrameCrcRule :=
  fun _ _ _ _ _ _ => ⟨rfl, rfl⟩

end Sys2Proof.Machine

/-! PROOFS. The frame codec and the link state machine (42_frame_link.md): the Control Values word, the two ways a
poll can go, and who writes mode and silence_count. -/

namespace Sys2Proof.Machine

/-! ### The Control Values word -/

theorem controlValues_speed (m : AbsAngleMode) (b1 b2 : Byte) : (controlValues m b1 b2).extractLsb' 24 8 = b1 := by
  rw [controlValues]
  iterate 3 rw [extractLsb'_append_high _ _ (by decide)]
  exact BitVec.extractLsb'_eq_self

theorem controlValues_angle (m : AbsAngleMode) (b1 b2 : Byte) : (controlValues m b1 b2).extractLsb' 16 8 = b2 := by
  rw [controlValues]
  iterate 2 rw [extractLsb'_append_high _ _ (by decide)]
  rw [extractLsb'_append_low _ _ (by decide)]
  exact BitVec.extractLsb'_eq_self

theorem controlValues_absSpeed (m : AbsAngleMode) (b1 b2 : Byte) :
    (controlValues m b1 b2).extractLsb' 8 8 = absSpeed b1 := by
  rw [controlValues, extractLsb'_append_high _ _ (by decide), extractLsb'_append_low _ _ (by decide)]
  exact BitVec.extractLsb'_eq_self

theorem controlValues_absAngle (m : AbsAngleMode) (b1 b2 : Byte) :
    (controlValues m b1 b2).extractLsb' 0 8 = absAngle m b2 := by
  rw [controlValues, extractLsb'_append_low _ _ (by decide)]
  exact BitVec.extractLsb'_eq_self

/-- bits8 of a value that fits a byte is that value (00_scope.md R10). -/
theorem toNat_bits8 {n : Int} (h0 : 0 ≤ n) (h : n < 256) : ((bits8 n).toNat : Int) = n := by
  rw [bits8, BitVec.toNat_ofInt]
  omega

theorem abs_toInt_le (b : Byte) : |b.toInt| ≤ 128 := by
  have hlo := b.le_toInt
  have hhi := b.toInt_lt
  exact abs_le.2 ⟨by omega, by omega⟩

theorem abs_toInt_sub_90_le (b : Byte) : |b.toInt - 90| ≤ 218 := by
  have hlo := b.le_toInt
  have hhi := b.toInt_lt
  exact abs_le.2 ⟨by omega, by omega⟩

theorem absSpeed_toNat (b : Byte) : ((absSpeed b).toNat : Int) = |b.toInt| :=
  toNat_bits8 (abs_nonneg _) (by have := abs_toInt_le b; simp only [s8]; omega)

theorem absAngle_raw_toNat (b : Byte) : ((absAngle .RAW b).toNat : Int) = |b.toInt| :=
  absSpeed_toNat b

theorem absAngle_offset90_toNat (b : Byte) : ((absAngle .OFFSET90 b).toNat : Int) = |b.toInt - 90| :=
  toNat_bits8 (abs_nonneg _) (by have := abs_toInt_sub_90_le b; simp only [s8]; omega)

/-- Settles O33: each field of the word is one of its four parts, and no absolute value leaves a byte: the largest
are |-128| and |-128 - 90|. -/
theorem controlValuesRule : Obligations.ControlValuesRule := by
  intro b1 b2
  have hspeed := abs_toInt_le b1
  have hangle := abs_toInt_le b2
  have hoffset := abs_toInt_sub_90_le b2
  have hspeedNat := absSpeed_toNat b1
  have hrawNat := absAngle_raw_toNat b2
  have hoffsetNat := absAngle_offset90_toNat b2
  simp only [controlValues_absSpeed, controlValues_absAngle]
  exact ⟨fun m => ⟨controlValues_speed m b1 b2, controlValues_angle m b1 b2, hspeedNat, by omega⟩,
    hrawNat, by omega, hoffsetNat, by omega⟩

/-! ### A poll of silence -/

theorem pollOfSilence_silenceCount_toNat {s : State} (h : s.cfg.silenceCeil ≤ 255) :
    (pollOfSilence s).silenceCount.toNat = min (s.silenceCount.toNat + 1) s.cfg.silenceCeil :=
  silenceNext_toNat s.cfg s.silenceCount h

theorem pollOfSilence_mode_eq {s : State} (h : s.cfg.silenceCeil ≤ 255) : (pollOfSilence s).mode =
    if min (s.silenceCount.toNat + 1) s.cfg.silenceCeil = s.cfg.silenceCeil then .LOCAL else s.mode := by
  rw [pollOfSilence_mode, silenceNext_toNat s.cfg s.silenceCount h]

theorem pollOfSilence_at_ceiling {s : State} (h : s.cfg.silenceCeil ≤ 255)
    (hceil : s.silenceCount.toNat = s.cfg.silenceCeil) :
    (pollOfSilence s).silenceCount = s.silenceCount ∧ (pollOfSilence s).mode = .LOCAL := by
  have hmin : min (s.silenceCount.toNat + 1) s.cfg.silenceCeil = s.cfg.silenceCeil := by omega
  constructor
  · apply BitVec.eq_of_toNat_eq
    rw [pollOfSilence_silenceCount_toNat h, hmin, hceil]
  · rw [pollOfSilence_mode_eq h, if_pos hmin]

theorem exec_tryReceiveFrame_of_short {s : State} (hp : s.port = .F) (hshort : readSize .rx s < 5) :
    exec .tryReceiveFrame s = .next (respond .NONE 0#32 (rtsEval (pollOfSilence s))) :=
  (onAllowedPort_of_allowed _ (by rw [hp]; rfl)).trans (if_pos hshort)

/-- Settles O34: the short poll is one poll of silence, one evaluation of rts and the answer NONE. -/
theorem shortPoll : Obligations.ShortPoll := by
  intro s hp hshort hceil
  have hcontents : (respond .NONE 0#32 (rtsEval (pollOfSilence s))).contents .rx = s.contents .rx := by simp
  exact ⟨_, exec_tryReceiveFrame_of_short hp hshort, answers_respond s _ _ _ rfl rfl rfl rfl, rfl,
    pollOfSilence_silenceCount_toNat hceil, pollOfSilence_mode_eq hceil, rfl, hcontents,
    pollOfSilence_at_ceiling hceil⟩

/-! ### A poll that finds a window -/

theorem exec_tryReceiveFrame_of_contents {s : State} {b0 b1 b2 b3 b4 : Byte} {rest : List Byte} (hp : s.port = .F)
    (hok : s.FifoOk .rx) (hcap : s.cap .rx ≤ 255) (hcont : s.contents .rx = b0 :: b1 :: b2 :: b3 :: b4 :: rest) :
    ∃ u, exec .tryReceiveFrame s = .next (judgeWindow ⟨b0, b1, b2, b3, b4⟩ u) ∧ u.FifoOk .rx ∧
      u.contents .rx = rest ∧ u = { s with rx := { s.rx with rd := u.rx.rd, count := u.rx.count } } := by
  obtain ⟨u, hw, hrest⟩ := takeWindow_of_contents hok hcap hcont
  have hsize : ¬ readSize .rx s < frameLength := by
    rw [← contents_length, hcont]
    simp [frameLength]
  refine ⟨u, (onAllowedPort_of_allowed _ (by rw [hp]; rfl)).trans ?_, hrest⟩
  rw [if_neg hsize, hw]

/-- The received checksum is the window's last two bytes, high byte first (30_encoding.md R94). -/
theorem checksumOk_iff (c : CrcStep) (w : Window) :
    checksumOk c w = true ↔ frameCrc c w.start w.speed w.angle = w.hi ++ w.lo := by
  rw [checksumOk, beq_iff_eq, crcOfBytes_eq_append]

theorem judgeWindow_of_wrong_start (w : Window) (s : State) (h : w.start ≠ startMarker) :
    judgeWindow w s = respond .NONE 0#32 (rtsEval (toggleFrameErr s)) := if_pos h

theorem judgeWindow_of_wrong_checksum (w : Window) (s : State) (hstart : w.start = startMarker)
    (hsum : frameCrc s.cfg.crcStep w.start w.speed w.angle ≠ w.hi ++ w.lo) :
    judgeWindow w s = respond .NONE 0#32 (rtsEval (toggleCrcErr s)) := by
  rw [judgeWindow, if_neg (not_not.2 hstart), if_neg (mt (checksumOk_iff _ w).1 hsum)]

theorem judgeWindow_of_valid (w : Window) (s : State) (hstart : w.start = startMarker)
    (hsum : frameCrc s.cfg.crcStep w.start w.speed w.angle = w.hi ++ w.lo) :
    judgeWindow w s = respond .OK (controlValues s.cfg.absAngleMode w.speed w.angle)
      (rtsEval (acceptFrame (controlValues s.cfg.absAngleMode w.speed w.angle) s)) := by
  rw [judgeWindow, if_neg (not_not.2 hstart), if_pos ((checksumOk_iff _ w).2 hsum)]

/-! ### Who writes the link state -/

/-- The elements of the link state machine, silence_count and mode, are the same in s and t (42_frame_link.md R166). -/
def State.SameLink (s t : State) : Prop := t.silenceCount = s.silenceCount ∧ t.mode = s.mode

/-- Puts move one FIFO only (40_fifo.md R110). -/
theorem sameLink_fifoPutAll {F : FifoId} {bs : List Byte} {s u : State} (h : fifoPutAll F bs s = .ok u) :
    s.SameLink u := by
  rw [fifoPutAll_frame F bs s u h]
  exact ⟨rfl, rfl⟩

/-- No command but a poll and INIT writes the link state: every branch of every other command is one of the updates
that keep it, or a refusal on the wrong port. -/
theorem sameLink_of_exec {i : Instr} {s t : State} (hpoll : i ≠ .tryReceiveFrame) (hinit : i ≠ .init)
    (h : exec i s = .next t) : s.SameLink t := by
  cases i with
  | init => exact absurd rfl hinit
  | tryReceiveFrame => exact absurd rfl hpoll
  | status => cases exec_status_next.symm.trans h; exact ⟨rfl, rfl⟩
  | rxfReadSize => cases exec_rxfReadSize_next.symm.trans h; exact ⟨rfl, rfl⟩
  | rxfWriteSpace => cases exec_rxfWriteSpace_next.symm.trans h; exact ⟨rfl, rfl⟩
  | txfReadSize => cases exec_txfReadSize_next.symm.trans h; exact ⟨rfl, rfl⟩
  | txfWriteSpace => cases exec_txfWriteSpace_next.symm.trans h; exact ⟨rfl, rfl⟩
  | rtsEval => cases exec_rtsEval_next.symm.trans h; exact ⟨rfl, rfl⟩
  | txIrqEval => cases exec_txIrqEval_next.symm.trans h; exact ⟨rfl, rfl⟩
  | lastRemote => rcases exec_lastRemote_cases h with ⟨-, rfl⟩ | ⟨-, rfl⟩ <;> exact ⟨rfl, rfl⟩
  | crcUpdate c b => rcases exec_crcUpdate_cases h with ⟨-, rfl⟩ | ⟨-, rfl⟩ <;> exact ⟨rfl, rfl⟩
  | rxfPut b => rcases exec_rxfPut_cases h with ⟨-, rfl⟩ | ⟨-, -, rfl⟩ | ⟨-, -, -, rfl⟩ <;> exact ⟨rfl, rfl⟩
  | txfPut b => rcases exec_txfPut_cases h with ⟨-, rfl⟩ | ⟨-, -, rfl⟩ | ⟨-, -, -, rfl⟩ <;> exact ⟨rfl, rfl⟩
  | rxfGet => rcases exec_rxfGet_cases h with ⟨-, rfl⟩ | ⟨-, -, rfl⟩ | ⟨-, -, -, rfl⟩ <;> exact ⟨rfl, rfl⟩
  | txfGet => rcases exec_txfGet_cases h with ⟨-, rfl⟩ | ⟨-, -, rfl⟩ | ⟨-, -, -, rfl⟩ <;> exact ⟨rfl, rfl⟩
  | hwRxByte b => rcases exec_hwRxByte_cases h with ⟨-, rfl⟩ | ⟨-, -, rfl⟩ | ⟨-, -, -, rfl⟩ <;> exact ⟨rfl, rfl⟩
  | txDrain => rcases exec_txDrain_cases h with ⟨-, rfl⟩ | ⟨-, -, rfl⟩ | ⟨-, -, -, rfl⟩ <;> exact ⟨rfl, rfl⟩
  | buildAndEnqueueFrame sp an =>
    rcases exec_buildAndEnqueueFrame_cases h with ⟨-, rfl⟩ | ⟨-, -, rfl⟩ | ⟨-, -, u, hput, rfl⟩
    · exact ⟨rfl, rfl⟩
    · exact ⟨rfl, rfl⟩
    · obtain ⟨hcount, hmode⟩ := sameLink_fifoPutAll hput
      exact ⟨hcount, hmode⟩

/-- The two rows of a short poll: the count below the ceiling after it, and at the ceiling. -/
theorem link_of_short_poll {s t : State} (hp : s.port = .F) (hceil : s.cfg.silenceCeil ≤ 255)
    (hshort : readSize .rx s < 5) (h : exec .tryReceiveFrame s = .next t) :
    t.silenceCount.toNat = min (s.silenceCount.toNat + 1) s.cfg.silenceCeil ∧
    t.mode = if min (s.silenceCount.toNat + 1) s.cfg.silenceCeil = s.cfg.silenceCeil then .LOCAL else s.mode := by
  cases (exec_tryReceiveFrame_of_short hp hshort).symm.trans h
  exact ⟨pollOfSilence_silenceCount_toNat hceil, pollOfSilence_mode_eq hceil⟩

/-- The three rows of a poll that finds a window. -/
theorem link_of_window_poll {s t : State} {b0 b1 b2 b3 b4 : Byte} {rest : List Byte} (hp : s.port = .F)
    (hok : s.FifoOk .rx) (hcap : s.cap .rx ≤ 255) (hcont : s.contents .rx = b0 :: b1 :: b2 :: b3 :: b4 :: rest)
    (h : exec .tryReceiveFrame s = .next t) :
    (b0 ≠ 0xAA#8 → s.SameLink t) ∧
    (b0 = 0xAA#8 → frameCrc s.cfg.crcStep b0 b1 b2 ≠ b3 ++ b4 → s.SameLink t) ∧
    (b0 = 0xAA#8 → frameCrc s.cfg.crcStep b0 b1 b2 = b3 ++ b4 → t.silenceCount = 0#8 ∧ t.mode = .REMOTE) := by
  obtain ⟨u, hexec, -, -, hu⟩ := exec_tryReceiveFrame_of_contents hp hok hcap hcont
  have hcfg : u.cfg = s.cfg := by rw [hu]
  have hlink : s.SameLink u := ⟨by rw [hu], by rw [hu]⟩
  obtain rfl : judgeWindow ⟨b0, b1, b2, b3, b4⟩ u = t := Host.Outcome.next.inj (hexec.symm.trans h)
  rw [← hcfg]
  refine ⟨fun hstart => ?_, fun hstart hsum => ?_, fun hstart hsum => ?_⟩
  · rw [judgeWindow_of_wrong_start ⟨b0, b1, b2, b3, b4⟩ u hstart]
    exact hlink
  · rw [judgeWindow_of_wrong_checksum ⟨b0, b1, b2, b3, b4⟩ u hstart hsum]
    exact hlink
  · rw [judgeWindow_of_valid ⟨b0, b1, b2, b3, b4⟩ u hstart hsum]
    exact ⟨rfl, rfl⟩

theorem link_of_init {s t : State} (hp : s.port = .F) (h : exec .init s = .next t) :
    t.silenceCount = 0#8 ∧ t.mode = .LOCAL := by
  rcases exec_init_cases h with ⟨hI, -⟩ | ⟨-, rfl⟩
  · cases hp.symm.trans hI
  · exact ⟨rfl, rfl⟩

/-- Settles O36, row by row: a short poll, a window, INIT, power-on reset, and every other command. -/
theorem linkStateTable : Obligations.LinkStateTable := by
  refine ⟨fun s t hp hok hlegal h => ⟨fun hshort hbelow => ?_, fun hshort hreach => ?_, ?_⟩,
    fun s t hp h => link_of_init hp h, fun s => ⟨rfl, rfl⟩,
    fun i s t hpoll hinit h => sameLink_of_exec hpoll hinit h⟩
  · obtain ⟨hcount, hmode⟩ := link_of_short_poll hp (by omega) hshort h
    exact ⟨by omega, hmode.trans (if_neg hbelow.ne)⟩
  · obtain ⟨hcount, hmode⟩ := link_of_short_poll hp (by omega) hshort h
    exact ⟨hcount.trans hreach, hmode.trans (if_pos hreach)⟩
  · intro b0 b1 b2 b3 b4 rest hcont
    have hcap : s.cap .rx ≤ 255 := by rw [cap_rx]; omega
    exact link_of_window_poll hp hok hcap hcont h

end Sys2Proof.Machine

/-! PROOFS. The error indicators steer nothing (43_flow_control.md R199): with the indicators at any other levels,
every command does the same to all else, and only the status word STATUS answers shows the difference. -/

namespace Sys2Proof.Machine

/-- s with crc_err_ind and frame_err_ind at the levels x and y (10_state.md R42, R43). -/
def State.withIndicators (s : State) (x y : Bool) : State := { s with crcErrInd := x, frameErrInd := y }

@[simp] theorem withIndicators_cfg (s : State) (x y : Bool) : (s.withIndicators x y).cfg = s.cfg := rfl

/-- r' answers what r does, but for the levels of the two indicators. -/
def SameButIndicators (r r' : Host.Outcome State Fault Refusal) : Prop :=
  ∀ t, r = .next t → ∃ x y, r' = .next (t.withIndicators x y)

theorem sameButIndicators_next (t : State) (x y : Bool) :
    SameButIndicators (.next t) (.next (t.withIndicators x y)) :=
  fun _ h => ⟨x, y, by rw [Host.Outcome.next.inj h]⟩

theorem sameButIndicators_fault (e : Fault) (r' : Host.Outcome State Fault Refusal) :
    SameButIndicators (.fault e) r' :=
  fun _ h => nomatch h

theorem sameButIndicators_ite {c : Prop} [Decidable c] {r₁ r₁' r₂ r₂' : Host.Outcome State Fault Refusal}
    (hthen : SameButIndicators r₁ r₁') (helse : SameButIndicators r₂ r₂') :
    SameButIndicators (if c then r₁ else r₂) (if c then r₁' else r₂') := by
  split
  · exact hthen
  · exact helse

/-- The port check does not read the indicators, and a refusal does not write them. -/
theorem sameButIndicators_onAllowedPort {i : Instr} {s : State} {x y : Bool} {r r' : Host.Outcome State Fault Refusal}
    (h : SameButIndicators r r') :
    SameButIndicators (onAllowedPort i s r) (onAllowedPort i (s.withIndicators x y) r') := by
  cases ha : allowedOn i s.port
  · rw [onAllowedPort_of_not r ha, onAllowedPort_of_not (s := s.withIndicators x y) r' ha]
    exact sameButIndicators_next (raiseIllegalCommand s) x y
  · rwa [onAllowedPort_of_allowed r ha, onAllowedPort_of_allowed (s := s.withIndicators x y) r' ha]

/-! ### The shared operations -/

theorem fifoPut_withIndicators {F : FifoId} {b : Byte} {s u : State} {ok : Bool} (x y : Bool)
    (h : fifoPut F b s = .ok (u, ok)) :
    fifoPut F b (s.withIndicators x y) = .ok (u.withIndicators x y, ok) := by
  rcases fifoPut_cases h with ⟨rfl, rfl, hfull⟩ | ⟨rfl, rfl, hroom, hwr⟩
  · exact fifoPut_full F b (u.withIndicators x y) hfull
  · exact fifoPut_room F b (s.withIndicators x y) hroom hwr

theorem fifoGet_withIndicators {F : FifoId} {s u : State} {v : Byte} {ok : Bool} (x y : Bool)
    (h : fifoGet F s = .ok (v, ok, u)) :
    fifoGet F (s.withIndicators x y) = .ok (v, ok, u.withIndicators x y) := by
  rcases fifoGet_cases h with ⟨rfl, rfl, rfl, hempty⟩ | ⟨rfl, rfl, rfl, hsome, hrd⟩
  · exact fifoGet_empty F (u.withIndicators x y) hempty
  · exact fifoGet_some F (s.withIndicators x y) hsome hrd

theorem fifoPutAll_withIndicators {F : FifoId} {bs : List Byte} {s u : State} (x y : Bool)
    (h : fifoPutAll F bs s = .ok u) :
    fifoPutAll F bs (s.withIndicators x y) = .ok (u.withIndicators x y) := by
  induction bs generalizing s with
  | nil => cases h; rfl
  | cons b bs ih =>
    rw [fifoPutAll] at h
    cases hput : fifoPut F b s with
    | error e => simp [hput] at h
    | ok p =>
      rw [hput] at h
      rw [fifoPutAll, fifoPut_withIndicators x y hput]
      exact ih h

/-- A computation that answers has answered at each of its steps. -/
theorem exists_ok_of_bind {α β : Type} {r : Except Fault α} {f : α → Except Fault β} {b : β} (h : r >>= f = .ok b) :
    ∃ a, r = .ok a ∧ f a = .ok b := by
  cases r with
  | error e => cases h
  | ok a => exact ⟨a, rfl, h⟩

theorem takeWindow_withIndicators {s u : State} {w : Window} (x y : Bool) (h : takeWindow s = .ok (w, u)) :
    takeWindow (s.withIndicators x y) = .ok (w, u.withIndicators x y) := by
  obtain ⟨p0, g0, h⟩ := exists_ok_of_bind h
  obtain ⟨p1, g1, h⟩ := exists_ok_of_bind h
  obtain ⟨p2, g2, h⟩ := exists_ok_of_bind h
  obtain ⟨p3, g3, h⟩ := exists_ok_of_bind h
  obtain ⟨p4, g4, h⟩ := exists_ok_of_bind h
  cases h
  simp [takeWindow, bind, Except.bind, fifoGet_withIndicators x y g0, fifoGet_withIndicators x y g1,
    fifoGet_withIndicators x y g2, fifoGet_withIndicators x y g3, fifoGet_withIndicators x y g4]

/-- A wrong start marker or checksum toggles an indicator from wherever it stands (42_frame_link.md R160): no verdict
looks at one. -/
theorem sameButIndicators_judgeWindow (w : Window) (s : State) (x y : Bool) :
    SameButIndicators (.next (judgeWindow w s)) (.next (judgeWindow w (s.withIndicators x y))) := by
  by_cases hstart : w.start = startMarker
  · by_cases hsum : frameCrc s.cfg.crcStep w.start w.speed w.angle = w.hi ++ w.lo
    · rw [judgeWindow_of_valid w s hstart hsum, judgeWindow_of_valid w (s.withIndicators x y) hstart hsum]
      exact sameButIndicators_next _ x y
    · rw [judgeWindow_of_wrong_checksum w s hstart hsum,
        judgeWindow_of_wrong_checksum w (s.withIndicators x y) hstart hsum]
      exact sameButIndicators_next _ (!x) y
  · rw [judgeWindow_of_wrong_start w s hstart, judgeWindow_of_wrong_start w (s.withIndicators x y) hstart]
    exact sameButIndicators_next _ x (toggleFrameErr (s.withIndicators x y)).frameErrInd

/-! ### The commands -/

theorem sameButIndicators_respondIf (ok : Bool) (d : Word) (s : State) (x y : Bool) :
    SameButIndicators (.next (respondIf ok d s)) (.next (respondIf ok d (s.withIndicators x y))) := by
  cases ok <;> exact sameButIndicators_next _ x y

theorem sameButIndicators_putAndRespond (F : FifoId) (b : Byte) (s : State) (x y : Bool) :
    SameButIndicators (finish (putAndRespond F b s)) (finish (putAndRespond F b (s.withIndicators x y))) := by
  cases hput : fifoPut F b s with
  | error e => rw [putAndRespond, hput]; exact sameButIndicators_fault e _
  | ok p =>
    rw [putAndRespond, putAndRespond, hput, fifoPut_withIndicators x y hput]
    exact sameButIndicators_respondIf p.2 0#32 p.1 x y

/-- Every command but STATUS does to a state the same whatever levels its indicators have. -/
theorem exec_sameButIndicators {i : Instr} (hi : i ≠ .status) (s : State) (x y : Bool) :
    SameButIndicators (exec i s) (exec i (s.withIndicators x y)) := by
  cases i with
  | status => exact absurd rfl hi
  | init => exact sameButIndicators_onAllowedPort (sameButIndicators_next _ false false)
  | lastRemote => exact sameButIndicators_onAllowedPort (sameButIndicators_next _ x y)
  | rxfReadSize => exact sameButIndicators_onAllowedPort (sameButIndicators_next _ x y)
  | rxfWriteSpace => exact sameButIndicators_onAllowedPort (sameButIndicators_next _ x y)
  | txfReadSize => exact sameButIndicators_onAllowedPort (sameButIndicators_next _ x y)
  | txfWriteSpace => exact sameButIndicators_onAllowedPort (sameButIndicators_next _ x y)
  | crcUpdate c b => exact sameButIndicators_onAllowedPort (sameButIndicators_next _ x y)
  | rtsEval => exact sameButIndicators_onAllowedPort (sameButIndicators_next _ x y)
  | txIrqEval => exact sameButIndicators_onAllowedPort (sameButIndicators_next _ x y)
  | rxfPut b => exact sameButIndicators_onAllowedPort (sameButIndicators_putAndRespond .rx b s x y)
  | txfPut b => exact sameButIndicators_onAllowedPort (sameButIndicators_putAndRespond .tx b s x y)
  | rxfGet =>
    apply sameButIndicators_onAllowedPort
    cases hget : fifoGet .rx s with
    | error e => exact sameButIndicators_fault e _
    | ok p =>
      rw [fifoGet_withIndicators x y hget]
      exact sameButIndicators_respondIf p.2.1 (word8 p.1) p.2.2 x y
  | txfGet =>
    apply sameButIndicators_onAllowedPort
    cases hget : fifoGet .tx s with
    | error e => exact sameButIndicators_fault e _
    | ok p =>
      rw [fifoGet_withIndicators x y hget]
      exact sameButIndicators_respondIf p.2.1 (word8 p.1) (txEmptyClear p.2.2) x y
  | hwRxByte b =>
    apply sameButIndicators_onAllowedPort
    cases hput : fifoPut .rx b s with
    | error e => exact sameButIndicators_fault e _
    | ok p =>
      rw [fifoPut_withIndicators x y hput]
      exact sameButIndicators_respondIf p.2 0#32 (rtsEval p.1) x y
  | txDrain =>
    apply sameButIndicators_onAllowedPort
    refine sameButIndicators_ite ?_ (sameButIndicators_next _ x y)
    cases hget : fifoGet .tx s with
    | error e => exact sameButIndicators_fault e _
    | ok p =>
      rw [fifoGet_withIndicators x y hget]
      exact sameButIndicators_next _ x y
  | tryReceiveFrame =>
    apply sameButIndicators_onAllowedPort
    refine sameButIndicators_ite (sameButIndicators_next _ x y) ?_
    cases htake : takeWindow s with
    | error e => exact sameButIndicators_fault e _
    | ok p =>
      rw [takeWindow_withIndicators x y htake]
      exact sameButIndicators_judgeWindow p.1 p.2 x y
  | buildAndEnqueueFrame sp an =>
    apply sameButIndicators_onAllowedPort
    refine sameButIndicators_ite (sameButIndicators_next _ x y) ?_
    cases hput : fifoPutAll .tx (frameBytes s.cfg.crcStep sp an) s with
    | error e => exact sameButIndicators_fault e _
    | ok u =>
      rw [withIndicators_cfg, fifoPutAll_withIndicators x y hput]
      exact sameButIndicators_next _ x y

/-- Settles O50: STATUS writes nothing but its answer, and every other command, TX_DRAIN among them, leaves two states
that differ in the indicators only. -/
theorem indicatorsNeverSteer : Obligations.IndicatorsNeverSteer := by
  intro i s t x y h
  by_cases hi : i = .status
  · subst hi
    cases exec_status_next.symm.trans h
    exact ⟨_, exec_status_next, rfl, rfl, rfl, rfl, rfl, fun hdrain => nomatch hdrain⟩
  · obtain ⟨x', y', h'⟩ := exec_sameButIndicators hi s x y t h
    exact ⟨_, h', rfl, rfl, rfl, rfl, rfl, fun _ => by cases s.port <;> rfl⟩

end Sys2Proof.Machine

/-! PROOFS. INIT (44_control.md R220): the state it leaves, what the status word and the two evaluations of a one-bit
element read off that state, and its two illegal forms. -/

namespace Sys2Proof.Machine

/-! ### An empty FIFO reads as one -/

theorem writeSpace_of_count_zero {F : FifoId} {s : State} (h : (s.fifo F).count = 0#8) :
    writeSpace F s = s.cap F := by
  simp [writeSpace, readSize, h]

/-- At or above RTS_START an evaluation releases rts whatever it was (43_flow_control.md R190). -/
theorem rtsNext_of_start_le {c : Config} {ws : Int} (h : (c.rtsStart : Int) ≤ ws) (r : Bool) :
    rtsNext c ws r = false :=
  if_pos h

theorem txIrqEval_txIrqEn_of_empty {s : State} (h : s.tx.count = 0#8) : (txIrqEval s).txIrqEn = false := by
  simp [h]

/-! ### The state INIT leaves -/

/-- The state after INIT on port F: the reset values, and the answer (OK, 0). -/
def afterInit (s : State) : State := respond .OK 0#32 (initialise s)

theorem exec_init_of_F {s : State} (hp : s.port = .F) : exec .init s = .next (afterInit s) :=
  onAllowedPort_of_allowed _ (by rw [hp]; rfl)

theorem exec_init_of_I {s : State} (hp : s.port = .I) : exec .init s = .next (raiseIllegalCommand s) :=
  exec_of_not_allowed _ s (by rw [hp]; rfl)

/-- What INIT writes beside the FIFOs; tx_wire, port I's result and the rest keep their values. -/
theorem afterInit_frame {s : State} (hp : s.port = .F) : afterInit s =
    { s with rx := (afterInit s).rx, tx := (afterInit s).tx, mode := .LOCAL, silenceCount := 0#8,
             lastRemote := 0#32, rts := false, txIrqEn := false, crcErrInd := false, frameErrInd := false,
             rspF := ⟨.OK, 0#32⟩, results := s.results ++ [(.F, ⟨.OK, 0#32⟩)] } := by
  simp [afterInit, respond, initialise, hp]

theorem afterInit_count (s : State) (F : FifoId) : ((afterInit s).fifo F).count = 0#8 := by
  cases F <;> rfl

theorem sameBytes_afterInit (s : State) : s.SameBytes (afterInit s) := fun F a =>
  (respond_byteAt _ _ _ F a).trans (sameBytes_initialise s F a)

theorem afterInit_contents (s : State) (F : FifoId) : (afterInit s).contents F = [] :=
  contents_eq_nil_iff.2 (afterInit_count s F)

/-- Every field of the status word is 0 after INIT but cts_in, which is no element of the core (30_encoding.md R96). -/
theorem statusWord_afterInit (s : State) :
    statusWord (afterInit s) = if s.ctsIn then 0x00000004#32 else 0x00000000#32 := by
  have hword : statusWord (afterInit s) =
      0#8 ++ 0#8 ++ 0#8 ++ (0#2 ++ bit false ++ bit false ++ bit false ++ bit s.ctsIn ++ bit false ++ Mode.LOCAL.bit) :=
    rfl
  rw [hword]
  cases s.ctsIn <;> decide

theorem rtsNext_afterInit {s : State} (h : s.cfg.rtsStart ≤ s.cfg.rxCap) (r : Bool) :
    rtsNext (afterInit s).cfg (writeSpace .rx (afterInit s)) r = false := by
  apply rtsNext_of_start_le
  rw [writeSpace_of_count_zero (afterInit_count s .rx)]
  exact Int.ofNat_le.2 h

/-! ### The words with INIT's opcode -/

theorem decode_of_no_row {w : Word} (h : ∀ r ∈ opcodeMap, ¬ r.selects w) : decode w = .error (rejection w) := by
  rw [decode, List.find?_eq_none.2 h]

/-- INIT's is the one row with its opcode; the mask covers the whole payload, which must be 0 (30_encoding.md R82). -/
theorem opcodeMap_init_payload : ∀ r ∈ opcodeMap, fieldOpcode r.pattern = 0x01#8 →
    fieldPayload r.mask = BitVec.allOnes 24 ∧ fieldPayload r.pattern = 0#24 := by decide

theorem decode_of_opcode_init {w : Word} (hop : fieldOpcode w = 0x01#8) (hpayload : fieldPayload w ≠ 0#24) :
    decode w = .error (rejection w) := by
  apply decode_of_no_row
  intro r hr hsel
  rw [word_eq_opcode_payload w, hop, selects_opcode_payload _ _ r hr, Bool.and_eq_true, decide_eq_true_eq,
    decide_eq_true_eq] at hsel
  obtain ⟨hrow, hmasked⟩ := hsel
  obtain ⟨hmask, hpattern⟩ := opcodeMap_init_payload r hr hrow.symm
  rw [hmask, hpattern, BitVec.and_allOnes] at hmasked
  exact hpayload hmasked

/-- Settles O15: on port F the laws of `afterInit`, on port I the port check, and the reserved bits of INIT's row. -/
theorem initCommand : Obligations.InitCommand := by
  refine ⟨fun s hp => ?_, fun s hp => ?_, fun w hop hpayload => ⟨_, decode_of_opcode_init hop hpayload⟩⟩
  · exact ⟨afterInit s, exec_init_of_F hp, afterInit_frame hp, rfl, rfl, sameBytes_afterInit s,
      afterInit_contents s .rx, afterInit_contents s .tx, statusWord_afterInit s, rtsNext_afterInit,
      txIrqEval_txIrqEn_of_empty (afterInit_count s .tx)⟩
  · exact ⟨_, exec_init_of_I hp, onlyResult_respond s _ _, answers_raiseIllegalCommand s⟩

end Sys2Proof.Machine

/-! PROOFS. The one exception (60_exceptions.md R240, R241): the step on a word that selects no row of the opcode map,
and a command on a port that its row does not allow. -/

namespace Sys2Proof.Machine

/-! ### The issue of a word -/

/-- The state in which the word issued on port p runs: the word and the turn are gone, and p is the issuing port. -/
def afterIssue (p : Port) (ws : List Word) (ts : List Turn) (s : State) : State :=
  { s.setPending p ws with schedule := ts, port := p }

theorem step_of_issue {s : State} {p : Port} {w : Word} {ws : List Word} {ts : List Turn} (hlegal : s.cfg.WellFormed)
    (hturn : s.schedule = .issue p :: ts) (hword : s.pending p = w :: ws) :
    step s = runWord w (afterIssue p ws ts s) := by
  have hword' : ({ s with schedule := ts } : State).pending p = w :: ws := by cases p <;> exact hword
  rw [step_of_legal hlegal, advanceSchedule, hturn]
  simp only [takeTurn, issueNext, hword']
  rfl

@[simp] theorem afterIssue_pending_same (p : Port) (ws : List Word) (ts : List Turn) (s : State) :
    (afterIssue p ws ts s).pending p = ws := by
  cases p <;> rfl

theorem afterIssue_pending_other {p q : Port} (ws : List Word) (ts : List Turn) (s : State) (h : q ≠ p) :
    (afterIssue p ws ts s).pending q = s.pending q := by
  match p, q with
  | .F, .I => rfl
  | .I, .F => rfl
  | .F, .F => exact absurd rfl h
  | .I, .I => exact absurd rfl h

/-! ### An illegal word -/

theorem selects_iff (r : OpcodeRow) (w : Word) : r.selects w ↔ w &&& r.mask = r.pattern := beq_iff_eq

/-- A word that no pair of pattern and mask in the opcode map matches is illegal (30_encoding.md R87, R90). -/
theorem decode_of_no_match {w : Word} (h : ∀ r ∈ opcodeMap.map (fun r => (r.pattern, r.mask)), w &&& r.2 ≠ r.1) :
    decode w = .error (rejection w) :=
  decode_of_no_row fun r hr hsel => h _ (List.mem_map_of_mem hr) ((selects_iff r w).1 hsel)

theorem runWord_of_illegal {w : Word} {e : DecodeError} (h : decode w = .error e) (s : State) :
    runWord w s = .next (raiseIllegalCommand s) := by
  rw [runWord, h]

/-- Settles O10: the step raises IllegalCommand in the state with the word and the turn gone, and the exception writes
nothing but its answer. The rows of the statement are the opcode map's. -/
theorem illegalWordRaisesIllegalCommand : Obligations.IllegalWordRaisesIllegalCommand := by
  intro s p w ws ts hlegal hturn hword hrows
  have hstep : step s = .next (raiseIllegalCommand (afterIssue p ws ts s)) :=
    (step_of_issue hlegal hturn hword).trans (runWord_of_illegal (decode_of_no_match hrows) _)
  obtain ⟨hself, hother, -⟩ := answers_raiseIllegalCommand (afterIssue p ws ts s)
  exact ⟨_, hstep, rfl, rfl, hself, hother, rfl, afterIssue_pending_same p ws ts s,
    fun q hq => afterIssue_pending_other ws ts s hq⟩

/-! ### A command off its role -/

/-- Settles O11: the ports column of R87 does not list the port in any of the eleven rows, so the port check refuses. -/
theorem wrongPortRaisesIllegalCommand : Obligations.WrongPortRaisesIllegalCommand := by
  intro i s hwrong
  have hnot : allowedOn i s.port = false := by
    rcases hwrong with ⟨hp, hi⟩ | ⟨hp, hi⟩
    · rw [hp]
      rcases hi with ⟨b, rfl⟩ | rfl | ⟨b, rfl⟩ | rfl <;> rfl
    · rw [hp]
      rcases hi with rfl | rfl | rfl | ⟨b, rfl⟩ | ⟨c, b, rfl⟩ | rfl | ⟨sp, an, rfl⟩ <;> rfl
  exact ⟨_, exec_of_not_allowed i s hnot, onlyResult_respond s _ _, answers_raiseIllegalCommand s⟩

end Sys2Proof.Machine

/-! PROOFS. The encoder and the decoder are inverse to one another (30_encoding.md R81 to R91), the opcode map row by
row, and the operands of a command as text (R92). -/

namespace Sys2Proof.Machine

/-! ### The decoder on a word that selects a row -/

/-- No two rows of the opcode map share an opcode (30_encoding.md R87). -/
theorem opcodeMap_opcodes_distinct : opcodeMap.Pairwise fun r r' => fieldOpcode r.pattern ≠ fieldOpcode r'.pattern := by
  decide

theorem selects_word_iff {w : Word} {r : OpcodeRow} (hr : r ∈ opcodeMap) : r.selects w ↔
    fieldOpcode w = fieldOpcode r.pattern ∧ fieldPayload w &&& fieldPayload r.mask = fieldPayload r.pattern := by
  conv_lhs => rw [word_eq_opcode_payload w, selects_opcode_payload _ _ r hr]
  simp

/-- A word that selects a row decodes to that row's command: the rows before it have other opcodes. -/
theorem decode_of_selects {w : Word} {n : Nat} {r : OpcodeRow} (hr : opcodeMap[n]? = some r) (hsel : r.selects w) :
    decode w = .ok (r.build w) := by
  obtain ⟨hn, rfl⟩ := List.getElem?_eq_some_iff.1 hr
  have hfind : opcodeMap.find? (fun r => r.selects w) = some opcodeMap[n] := by
    refine List.find?_eq_some_iff_getElem.2 ⟨hsel, n, hn, rfl, fun j hj => ?_⟩
    rw [Bool.not_eq_true', Bool.eq_false_iff]
    intro hsel'
    have hop := ((selects_word_iff (List.getElem_mem hn)).1 hsel).1
    have hop' := ((selects_word_iff (List.getElem_mem (hj.trans hn))).1 hsel').1
    exact List.pairwise_iff_getElem.1 opcodeMap_opcodes_distinct j n _ hn hj (hop'.symm.trans hop)
  rw [decode, hfind]

theorem decode_of_row {w : Word} (n : Nat) {r : OpcodeRow} (hr : opcodeMap[n]? = some r)
    (h : w &&& r.mask = r.pattern) : decode w = .ok (r.build w) :=
  decode_of_selects hr ((selects_iff r w).2 h)

/-- A word that decodes selects a row and decodes to that row's command. -/
theorem selects_of_decode {w : Word} {i : Instr} (h : decode w = .ok i) :
    ∃ r ∈ opcodeMap, r.selects w ∧ r.build w = i := by
  rw [decode] at h
  split at h
  · rename_i r hfind
    exact ⟨r, List.mem_of_find?_eq_some hfind, List.find?_some (p := (OpcodeRow.selects · w)) hfind, Except.ok.inj h⟩
  · cases h

/-! ### Decoding what was encoded -/

theorem decode_encode_of_row {i : Instr} (n : Nat) {r : OpcodeRow} (hr : opcodeMap[n]? = some r)
    (hop : opcodeOf i = fieldOpcode r.pattern) (hpayload : payloadOf i &&& fieldPayload r.mask = fieldPayload r.pattern)
    (hbuild : r.build (encode i) = i) : decode (encode i) = .ok i := by
  have hsel : r.selects (encode i) := by
    rw [selects_word_iff (List.mem_of_getElem? hr), encode, fieldOpcode_word, fieldPayload_word]
    exact ⟨hop, hpayload⟩
  rw [decode_of_selects hr hsel, hbuild]

/-- Every command stands at its place in the map, its reserved bits are 0, and its operands are where its row reads
them. -/
theorem decode_encode (i : Instr) : decode (encode i) = .ok i := by
  cases i with
  | init => exact decode_encode_of_row 0 rfl rfl rfl rfl
  | status => exact decode_encode_of_row 1 rfl rfl rfl rfl
  | lastRemote => exact decode_encode_of_row 2 rfl rfl rfl rfl
  | rxfPut b =>
    exact decode_encode_of_row 3 rfl rfl (payloadB_fields b).2
      (congrArg Instr.rxfPut ((fieldB_word _ _).trans (payloadB_fields b).1))
  | rxfGet => exact decode_encode_of_row 4 rfl rfl rfl rfl
  | rxfReadSize => exact decode_encode_of_row 5 rfl rfl rfl rfl
  | rxfWriteSpace => exact decode_encode_of_row 6 rfl rfl rfl rfl
  | txfPut b =>
    exact decode_encode_of_row 7 rfl rfl (payloadB_fields b).2
      (congrArg Instr.txfPut ((fieldB_word _ _).trans (payloadB_fields b).1))
  | txfGet => exact decode_encode_of_row 8 rfl rfl rfl rfl
  | txfReadSize => exact decode_encode_of_row 9 rfl rfl rfl rfl
  | txfWriteSpace => exact decode_encode_of_row 10 rfl rfl rfl rfl
  | crcUpdate c b =>
    obtain ⟨hb, hc⟩ := payloadC_fields c b
    exact decode_encode_of_row 11 rfl rfl BitVec.and_zero
      (congrArg₂ Instr.crcUpdate ((fieldC_word _ _).trans hc) ((fieldB_word _ _).trans hb))
  | tryReceiveFrame => exact decode_encode_of_row 12 rfl rfl rfl rfl
  | buildAndEnqueueFrame s a =>
    obtain ⟨ha, hs, hreserved⟩ := payloadV_fields s a
    exact decode_encode_of_row 13 rfl rfl hreserved
      (congrArg₂ Instr.buildAndEnqueueFrame ((fieldS_word _ _).trans hs) ((fieldA_word _ _).trans ha))
  | rtsEval => exact decode_encode_of_row 14 rfl rfl rfl rfl
  | txIrqEval => exact decode_encode_of_row 15 rfl rfl rfl rfl
  | hwRxByte b =>
    exact decode_encode_of_row 16 rfl rfl (payloadB_fields b).2
      (congrArg Instr.hwRxByte ((fieldB_word _ _).trans (payloadB_fields b).1))
  | txDrain => exact decode_encode_of_row 17 rfl rfl rfl rfl

/-- Settles O1: `decode_encode`, constructor by constructor. -/
theorem decodeOfEncode : Obligations.DecodeOfEncode := decode_encode

/-! ### Encoding what was decoded -/

theorem fieldB_eq (w : Word) : fieldB w = (fieldPayload w).extractLsb' 0 8 := by
  conv_lhs => rw [word_eq_opcode_payload w, fieldB_word]

theorem fieldS_eq (w : Word) : fieldS w = (fieldPayload w).extractLsb' 8 8 := by
  conv_lhs => rw [word_eq_opcode_payload w, fieldS_word]

theorem fieldC_eq (w : Word) : fieldC w = (fieldPayload w).extractLsb' 8 16 := by
  conv_lhs => rw [word_eq_opcode_payload w, fieldC_word]

theorem getLsbD_of_masked {p m : BitVec 24} (h : p &&& m = 0#24) {i : Nat} (hi : m.getLsbD i = true) :
    p.getLsbD i = false := by
  have hbit := congrArg (fun q => q.getLsbD i) h
  simpa [hi] using hbit

theorem payloadB_fieldB {w : Word} (h : fieldPayload w &&& 0xFFFF00#24 = 0#24) :
    payloadB (fieldB w) = fieldPayload w := by
  have hmask : ∀ j < 24, 8 ≤ j → (0xFFFF00#24).getLsbD j = true := by decide
  apply BitVec.eq_of_getLsbD_eq
  intro i hi
  rw [getLsbD_payloadB, fieldB_eq]
  by_cases h8 : i < 8
  · simp [h8]
  · simp [h8, getLsbD_of_masked h (hmask i hi (by omega))]

theorem payloadV_fieldS_fieldA {w : Word} (h : fieldPayload w &&& 0xFF0000#24 = 0#24) :
    payloadV (fieldS w) (fieldA w) = fieldPayload w := by
  have hmask : ∀ j < 24, 16 ≤ j → (0xFF0000#24).getLsbD j = true := by decide
  apply BitVec.eq_of_getLsbD_eq
  intro i hi
  rw [getLsbD_payloadV, getLsbD_append_bytes, fieldS_eq, show fieldA w = fieldB w from rfl, fieldB_eq]
  by_cases h8 : i < 8
  · simp [h8]
  · by_cases h16 : i < 16
    · simp [h8, show i - 8 < 8 by omega, show 8 + (i - 8) = i by omega]
    · simp [h8, show ¬ i - 8 < 8 by omega, getLsbD_of_masked h (hmask i hi (by omega))]

theorem payloadC_fieldC_fieldB (w : Word) : payloadC (fieldC w) (fieldB w) = fieldPayload w := by
  apply BitVec.eq_of_getLsbD_eq
  intro i hi
  rw [getLsbD_payloadC, fieldB_eq, fieldC_eq]
  by_cases h8 : i < 8
  · simp [h8]
  · simp [h8, show i - 8 < 16 by omega, show 8 + (i - 8) = i by omega]

/-- Each row gives its command the row's opcode, and each of the four formats gives back the payload of a word whose
reserved bits are 0. -/
theorem payloadOf_build : ∀ r ∈ opcodeMap, ∀ w : Word,
    fieldPayload w &&& fieldPayload r.mask = fieldPayload r.pattern →
    opcodeOf (r.build w) = fieldOpcode r.pattern ∧ payloadOf (r.build w) = fieldPayload w := by
  have formatN : ∀ {w : Word}, fieldPayload w &&& 0xFFFFFF#24 = 0#24 → payloadN = fieldPayload w := fun {w} h =>
    h.symm.trans BitVec.and_allOnes
  simp only [opcodeMap, List.forall_mem_cons]
  exact ⟨fun _ h => ⟨rfl, formatN h⟩, fun _ h => ⟨rfl, formatN h⟩, fun _ h => ⟨rfl, formatN h⟩,
    fun _ h => ⟨rfl, payloadB_fieldB h⟩, fun _ h => ⟨rfl, formatN h⟩, fun _ h => ⟨rfl, formatN h⟩,
    fun _ h => ⟨rfl, formatN h⟩, fun _ h => ⟨rfl, payloadB_fieldB h⟩, fun _ h => ⟨rfl, formatN h⟩,
    fun _ h => ⟨rfl, formatN h⟩, fun _ h => ⟨rfl, formatN h⟩, fun w _ => ⟨rfl, payloadC_fieldC_fieldB w⟩,
    fun _ h => ⟨rfl, formatN h⟩, fun _ h => ⟨rfl, payloadV_fieldS_fieldA h⟩, fun _ h => ⟨rfl, formatN h⟩,
    fun _ h => ⟨rfl, formatN h⟩, fun _ h => ⟨rfl, payloadB_fieldB h⟩, fun _ h => ⟨rfl, formatN h⟩,
    fun _ h => nomatch h⟩

theorem encode_of_decode {w : Word} {i : Instr} (h : decode w = .ok i) : encode i = w := by
  obtain ⟨r, hr, hsel, rfl⟩ := selects_of_decode h
  obtain ⟨hop, hreserved⟩ := (selects_word_iff hr).1 hsel
  obtain ⟨hopcode, hpayload⟩ := payloadOf_build r hr w hreserved
  rw [encode, hopcode, hpayload, ← hop, ← word_eq_opcode_payload]

/-- Settles O2: the word selects a row, and the row's command has the word's opcode and payload. -/
theorem encodeOfDecode : Obligations.EncodeOfDecode := fun _ _ => encode_of_decode

/-! ### The map row by row -/

/-- A word that decodes has the opcode of a listed command, and every bit its format reserves is 0. -/
theorem fields_of_decode {w : Word} {i : Instr} (h : decode w = .ok i) :
    fieldOpcode w = opcodeOf i ∧ fieldPayload w = payloadOf i := by
  rw [← encode_of_decode h, encode, fieldOpcode_word, fieldPayload_word]
  exact ⟨rfl, rfl⟩

theorem payloadB_reserved (b : Byte) : (payloadB b).extractLsb' 8 16 = 0#16 := by
  rw [payloadB, extractLsb'_append_high _ _ (by decide)]
  exact BitVec.extractLsb'_eq_self

theorem payloadV_reserved (s a : Byte) : (payloadV s a).extractLsb' 16 8 = 0#8 := by
  rw [payloadV, extractLsb'_append_high _ _ (by decide), extractLsb'_append_high _ _ (by decide)]
  exact BitVec.extractLsb'_eq_self

theorem extractLsb'_of_payload {w : Word} {start len : Nat} (h : start + len ≤ 24) :
    w.extractLsb' start len = (fieldPayload w).extractLsb' start len := by
  conv_lhs => rw [word_eq_opcode_payload w, extractLsb'_append_low _ _ h]

theorem and_allOnes_of_eq {w p : Word} (h : w = p) : w &&& 0xFFFFFFFF#32 = p :=
  BitVec.and_allOnes.trans h

/-- Settles O3: a word that selects a row decodes to it, and a word that decodes at all is one that the encoder gives
(`encode_of_decode`), so its opcode is listed and its reserved bits are 0. -/
theorem opcodeMapRows : Obligations.OpcodeMapRows := by
  refine ⟨fun w => ?_, fun w hN hB hV hC => ?_⟩
  · exact ⟨fun h => decode_of_row 0 rfl (and_allOnes_of_eq h), fun h => decode_of_row 1 rfl (and_allOnes_of_eq h),
      fun h => decode_of_row 2 rfl (and_allOnes_of_eq h), decode_of_row 3 rfl,
      fun h => decode_of_row 4 rfl (and_allOnes_of_eq h), fun h => decode_of_row 5 rfl (and_allOnes_of_eq h),
      fun h => decode_of_row 6 rfl (and_allOnes_of_eq h), decode_of_row 7 rfl,
      fun h => decode_of_row 8 rfl (and_allOnes_of_eq h), fun h => decode_of_row 9 rfl (and_allOnes_of_eq h),
      fun h => decode_of_row 10 rfl (and_allOnes_of_eq h), decode_of_row 11 rfl,
      fun h => decode_of_row 12 rfl (and_allOnes_of_eq h), decode_of_row 13 rfl,
      fun h => decode_of_row 14 rfl (and_allOnes_of_eq h), fun h => decode_of_row 15 rfl (and_allOnes_of_eq h),
      decode_of_row 16 rfl, fun h => decode_of_row 17 rfl (and_allOnes_of_eq h)⟩
  · cases hdec : decode w with
    | error e => exact ⟨e, rfl⟩
    | ok i =>
      obtain ⟨hop, hpayload⟩ := fields_of_decode hdec
      rw [extractLsb'_of_payload (start := 16) (by decide), hpayload] at hV
      simp only [extractLsb'_of_payload (w := w) (start := 8) (len := 16) (by decide), hpayload] at hB
      exfalso
      cases i with
      | rxfPut b => exact hB 0x10#8 (by decide) ⟨hop, payloadB_reserved b⟩
      | txfPut b => exact hB 0x18#8 (by decide) ⟨hop, payloadB_reserved b⟩
      | hwRxByte b => exact hB 0x48#8 (by decide) ⟨hop, payloadB_reserved b⟩
      | crcUpdate c b => exact hC hop
      | buildAndEnqueueFrame s a => exact hV ⟨hop, payloadV_reserved s a⟩
      | _ => exact hN _ (by decide) ⟨hop, hpayload⟩

/-- Settles O4: nine words run through the decoder. -/
theorem writtenOutWordsDecode : Obligations.WrittenOutWordsDecode := by
  unfold Obligations.WrittenOutWordsDecode
  decide

/-! ### Operands as text -/

theorem assemble_of_template {name : String} {t : Instr}
    (h : instrTemplates.find? (fun i => (mnemonicOf i).toList == name.toList) = some t) (ops : List AsmOperand) :
    assemble name.toList ops = withOperands t ops := by
  rw [assemble, h]

/-- Settles O5: each mnemonic finds its own template, and the operands written stand in for the template's. -/
theorem assembleOfOperands : Obligations.AssembleOfOperands := by
  intro i
  cases i with
  | rxfPut b => exact assemble_of_template (name := "RXF_PUT") (t := .rxfPut 0) (by decide) [.hexByte b]
  | txfPut b => exact assemble_of_template (name := "TXF_PUT") (t := .txfPut 0) (by decide) [.hexByte b]
  | hwRxByte b => exact assemble_of_template (name := "HW_RX_BYTE") (t := .hwRxByte 0) (by decide) [.hexByte b]
  | crcUpdate c b =>
    exact assemble_of_template (name := "CRC_UPDATE") (t := .crcUpdate 0 0) (by decide) [.hexHalf c, .hexByte b]
  | buildAndEnqueueFrame s a =>
    exact assemble_of_template (name := "BUILD_AND_ENQUEUE_FRAME") (t := .buildAndEnqueueFrame 0 0) (by decide)
      [.hexByte s, .hexByte a]
  | _ => rfl

theorem byteOperand_dec_of_fits {isB : Bool} {n : Int} (hlo : -128 ≤ n) (hhi : n ≤ if isB then 255 else 127) :
    byteOperand isB (.dec n) = .ok (bits8 n) := if_pos ⟨hlo, hhi⟩

theorem byteOperand_dec_of_outside {isB : Bool} {n : Int} (h : n < -128 ∨ (if isB then 255 else 127) < n) :
    byteOperand isB (.dec n) = .error .operandOutOfRange := if_neg (by omega)

/-- bits8 of a value in a byte's signed range is that value (00_scope.md R10). -/
theorem toInt_bits8 {n : Int} (hlo : -128 ≤ n) (hhi : n ≤ 127) : (bits8 n).toInt = n := by
  rw [bits8, BitVec.toInt_ofInt, Int.bmod_eq_of_le] <;> omega

/-- Settles O6: the two ranges of a byte operand, and what bits8 makes of a value in each. -/
theorem decimalOperandRange : Obligations.DecimalOperandRange := by
  intro n
  refine ⟨fun ⟨hlo, hhi⟩ isB => ?_, fun ⟨hlo, hhi⟩ => ⟨?_, ?_⟩, fun h isB => ?_⟩
  · exact ⟨bits8 n, byteOperand_dec_of_fits hlo (by split <;> omega), toInt_bits8 hlo hhi⟩
  · exact ⟨bits8 n, byteOperand_dec_of_fits (by omega) hhi, toNat_bits8 (by omega) (by omega)⟩
  · exact byteOperand_dec_of_outside (.inr (by rw [if_neg Bool.false_ne_true]; omega))
  · exact byteOperand_dec_of_outside (h.imp id fun h => by split <;> omega)

end Sys2Proof.Machine

/-! PROOFS. The FIFO commands (40_fifo.md R113 to R122): what a put and a get answer on their own port, with their
frames, and that the bytes they answer are bytes that were put. -/

namespace Sys2Proof.Machine

/-! ### The FIFO laws -/

/-- Settles O20: a put that succeeds and a get that succeeds are one case each of `fifoPut_cases` and
`fifoGet_cases`. -/
theorem fifoLaws : Obligations.FifoLaws := by
  intro F s
  refine ⟨by rw [writeSpace]; omega, fun b t hput => ?_, fun v t hget hempty => ?_⟩
  · rcases fifoPut_cases hput with ⟨hok, -⟩ | ⟨-, -, hroom, -⟩
    · cases hok
    · exact hroom
  · rcases fifoGet_cases hget with ⟨hok, -⟩ | ⟨-, -, -, hsome, -⟩
    · cases hok
    · exact hsome (count_eq_zero_of_readSize hempty)

/-- Settles O21: a row of puts that fits is stored whole (`fifoPutAll_room`), and then the FIFO is full when the row
filled it. -/
theorem allBytesUsable : Obligations.AllBytesUsable := by
  intro F bs s hok hcap hfits
  obtain ⟨t, hput, hok', hcont, hcap'⟩ := fifoPutAll_room F bs s hok hcap hfits
  refine ⟨t, hput, hok', hcont, fun hfills b => fifoPut_full F b t ?_⟩
  rw [← contents_length, hcont, List.length_append, contents_length, hfills, hcap']

/-! ### Puts -/

theorem finish_putAndRespond_of_full {F : FifoId} (b : Byte) {s : State} (h : readSize F s = s.cap F) :
    finish (putAndRespond F b s) = .next (respond .NONE 0#32 s) := by
  rw [putAndRespond, fifoPut_full F b s h]
  rfl

theorem finish_putAndRespond_of_room {F : FifoId} (b : Byte) {s : State} (hok : s.FifoOk F)
    (h : readSize F s < s.cap F) : finish (putAndRespond F b s) = .next (respond .OK 0#32 (afterPut F b s)) := by
  rw [putAndRespond, fifoPut_room F b s h.ne hok.wr_lt]
  rfl

theorem exec_rxfPut_of_I {b : Byte} {s : State} (hp : s.port = .I) :
    exec (.rxfPut b) s = finish (putAndRespond .rx b s) :=
  onAllowedPort_of_allowed _ (by rw [hp]; rfl)

theorem exec_txfPut_of_F {b : Byte} {s : State} (hp : s.port = .F) :
    exec (.txfPut b) s = finish (putAndRespond .tx b s) :=
  onAllowedPort_of_allowed _ (by rw [hp]; rfl)

/-- t holds the bytes of s and b behind those of F, at F's write cursor in s (40_fifo.md R110). -/
def State.Stored (s t : State) (F : FifoId) (b : Byte) : Prop :=
  t.contents F = s.contents F ++ [b] ∧ t.byteAt F (s.fifo F).wr.toNat = b ∧
    ∀ G a, (G, a) ≠ (F, (s.fifo F).wr.toNat) → t.byteAt G a = s.byteAt G a

theorem stored_afterPut {F : FifoId} (b : Byte) {s : State} (hok : s.FifoOk F) (hcap : s.cap F ≤ 255)
    (h : readSize F s < s.cap F) : s.Stored (afterPut F b s) F b :=
  ⟨contents_afterPut b hok hcap h, byteAt_afterPut_same F b s, fun G a => byteAt_afterPut F G b s a⟩

theorem State.Stored.respond {s t : State} {F : FifoId} {b : Byte} (h : s.Stored t F b) (c : RspCode) (d : Word) :
    s.Stored (respond c d t) F b := by
  simpa [State.Stored] using h

theorem State.Stored.rtsEval {s t : State} {F : FifoId} {b : Byte} (h : s.Stored t F b) :
    s.Stored (rtsEval t) F b := by
  simpa [State.Stored] using h

/-- Settles O22: the put is rejected on a full RX and stored otherwise, and nothing follows it but the answer. -/
theorem rxfPutCommand : Obligations.RxfPutCommand := by
  intro b s hp hok hcap
  rw [exec_rxfPut_of_I hp]
  rcases hok.count_le.eq_or_lt with hfull | hroom
  · exact ⟨_, finish_putAndRespond_of_full b hfull,
      fun _ => ⟨onlyResult_respond s _ _, answers_respond s s _ _ rfl rfl rfl rfl⟩, fun hroom => absurd hfull hroom.ne⟩
  · exact ⟨_, finish_putAndRespond_of_room b hok hroom, fun hfull => absurd hfull hroom.ne,
      fun _ => ⟨rfl, answers_respond s (afterPut .rx b s) _ _ rfl rfl rfl rfl,
        (stored_afterPut b hok hcap hroom).respond _ _⟩⟩

/-- Settles O23: as RXF_PUT, on the other FIFO and the other port. -/
theorem txfPutCommand : Obligations.TxfPutCommand := by
  intro b s hp hok hcap
  rw [exec_txfPut_of_F hp]
  rcases hok.count_le.eq_or_lt with hfull | hroom
  · exact ⟨_, finish_putAndRespond_of_full b hfull,
      fun _ => ⟨onlyResult_respond s _ _, answers_respond s s _ _ rfl rfl rfl rfl⟩, fun hroom => absurd hfull hroom.ne⟩
  · exact ⟨_, finish_putAndRespond_of_room b hok hroom, fun hfull => absurd hfull hroom.ne,
      fun _ => ⟨rfl, answers_respond s (afterPut .tx b s) _ _ rfl rfl rfl rfl,
        (stored_afterPut b hok hcap hroom).respond _ _⟩⟩

/-! ### Gets -/

theorem readSize_of_contents_nil {F : FifoId} {s : State} (h : s.contents F = []) : readSize F s = 0 := by
  rw [← contents_length, h, List.length_nil]

/-- What a get finds in a FIFO that stores v and then rest. -/
theorem fifoGet_of_contents {F : FifoId} {s : State} {v : Byte} {rest : List Byte} (hok : s.FifoOk F)
    (hcap : s.cap F ≤ 255) (h : s.contents F = v :: rest) :
    fifoGet F s = .ok (v, true, afterGet F s) ∧ (afterGet F s).contents F = rest := by
  have hpos : 0 < readSize F s := by rw [← contents_length, h]; simp
  obtain ⟨hv, hrest⟩ := List.cons.inj (h.symm.trans (contents_eq_cons hok hcap hpos))
  exact ⟨hv ▸ fifoGet_some F s ((readSize_pos_iff F s).1 hpos) hok.rd_lt, hrest.symm⟩

theorem exec_rxfGet_of_some {s u : State} {v : Byte} (hp : s.port = .F) (hget : fifoGet .rx s = .ok (v, true, u)) :
    exec .rxfGet s = .next (respond .OK (word8 v) u) := by
  refine (onAllowedPort_of_allowed _ (by rw [hp]; rfl)).trans ?_
  rw [hget]
  rfl

theorem exec_txfGet_of_some {s u : State} {v : Byte} (hp : s.port = .I) (hget : fifoGet .tx s = .ok (v, true, u)) :
    exec .txfGet s = .next (respond .OK (word8 v) (txEmptyClear u)) := by
  refine (onAllowedPort_of_allowed _ (by rw [hp]; rfl)).trans ?_
  rw [hget]
  rfl

theorem sameBytes_respond_afterGet (F : FifoId) (c : RspCode) (d : Word) (s : State) :
    s.SameBytes (respond c d (afterGet F s)) := fun G a =>
  (respond_byteAt _ c d G a).trans (sameBytes_afterGet F s G a)

/-- Settles O24: a get from an empty RX answers NONE, and one from RX with v at its front answers v. -/
theorem rxfGetCommand : Obligations.RxfGetCommand := by
  intro s hp hok hcap
  cases hcont : s.contents .rx with
  | nil =>
    exact ⟨_, exec_rxfGet_of_empty hp (readSize_of_contents_nil hcont),
      fun _ => ⟨onlyResult_respond s _ _, answers_respond s s _ _ rfl rfl rfl rfl⟩, fun _ _ h => nomatch h⟩
  | cons v rest =>
    obtain ⟨hget, hrest⟩ := fifoGet_of_contents hok hcap hcont
    refine ⟨_, exec_rxfGet_of_some hp hget, fun h => absurd h (List.cons_ne_nil v rest), fun v' rest' h => ?_⟩
    cases h
    exact ⟨rfl, answers_respond s (afterGet .rx s) _ _ rfl rfl rfl rfl, (respond_contents _ _ _ _).trans hrest,
      sameBytes_respond_afterGet .rx _ _ s⟩

/-- TxEmptyClear in terms of the bytes stored (43_flow_control.md R193). -/
theorem txEmptyClear_of_contents {s : State} {l : List Byte} (h : s.contents .tx = l) :
    txEmptyClear s = { s with txIrqEn := if l = [] then false else s.txIrqEn } := by
  subst h
  simp only [txEmptyClear, contents_eq_nil_iff, fifo_tx]

/-- Settles O25: as RXF_GET, with TxEmptyClear on both paths. -/
theorem txfGetCommand : Obligations.TxfGetCommand := by
  intro s hp hok hcap
  cases hcont : s.contents .tx with
  | nil =>
    refine ⟨_, exec_txfGet_of_empty hp (readSize_of_contents_nil hcont),
      fun _ => ⟨?_, answers_txEmptyClear_none s⟩, fun _ _ h => nomatch h⟩
    rw [txEmptyClear_of_contents hcont]
    rfl
  | cons v rest =>
    obtain ⟨hget, hrest⟩ := fifoGet_of_contents hok hcap hcont
    refine ⟨_, exec_txfGet_of_some hp hget, fun h => absurd h (List.cons_ne_nil v rest), fun v' rest' h => ?_⟩
    cases h
    refine ⟨?_, answers_respond s _ _ _ rfl rfl rfl rfl, by simpa using hrest, fun G a => ?_⟩
    · rw [txEmptyClear_of_contents hrest]
      rfl
    · simpa using sameBytes_afterGet .tx s G a

/-! ### Queries -/

/-- A count or a free space is answered as it is (30_encoding.md R89). -/
theorem toNat_wordOfInt {n : Int} (h0 : 0 ≤ n) (h : n ≤ 255) : ((wordOfInt n).toNat : Int) = n := by
  rw [wordOfInt, BitVec.toNat_ofInt]
  omega

/-- Settles O26: each query answers a number of at most 255, which its word holds. -/
theorem fifoQueries : Obligations.FifoQueries := by
  intro s hsizes
  have hread : ∀ F, ((wordOfInt (readSize F s)).toNat : Int) = readSize F s := fun F => by
    obtain ⟨hle, hcap⟩ := hsizes F
    exact toNat_wordOfInt (by omega) (by omega)
  have hwrite : ∀ F, (wordOfInt (writeSpace F s)).toNat + readSize F s = s.cap F := fun F => by
    obtain ⟨hle, hcap⟩ := hsizes F
    have hspace : writeSpace F s = (s.cap F : Int) - readSize F s := rfl
    have := toNat_wordOfInt (n := writeSpace F s) (by omega) (by omega)
    omega
  exact ⟨⟨_, _, exec_rxfReadSize_next, onlyResult_respond s _ _, answers_respond s s _ _ rfl rfl rfl rfl,
      Int.ofNat_inj.1 (hread .rx)⟩,
    ⟨_, _, exec_txfReadSize_next, onlyResult_respond s _ _, answers_respond s s _ _ rfl rfl rfl rfl,
      Int.ofNat_inj.1 (hread .tx)⟩,
    ⟨_, _, exec_rxfWriteSpace_next, onlyResult_respond s _ _, answers_respond s s _ _ rfl rfl rfl rfl, hwrite .rx⟩,
    ⟨_, _, exec_txfWriteSpace_next, onlyResult_respond s _ _, answers_respond s s _ _ rfl rfl rfl rfl, hwrite .tx⟩⟩

/-! ### Every byte answered was put -/

/-- The oldest byte of a FIFO that is as 10_state.md R33 says is one that its storage lists (R34). -/
theorem oldest_was_put {F : FifoId} {s : State} (hok : s.FifoOk F) (h : (s.fifo F).count ≠ 0#8) :
    (s.fifo F).buf.read? (s.fifo F).rd.toNat = some (s.byteAt F (s.fifo F).rd.toNat) := by
  obtain ⟨v, hv⟩ := hok.stored_put 0 ((readSize_pos_iff F s).2 h)
  rw [Nat.add_zero, Nat.mod_eq_of_lt hok.rd_lt] at hv
  rw [State.byteAt, hv, Option.getD_some]

/-- A result that is not OK tells nothing of the storage. -/
theorem code_ne_of_answers {s t : State} {c : RspCode} {d : Word} (h : s.Answers t c d) (hc : c ≠ .OK)
    (hok : (t.rsp s.port).code = .OK) : False := by
  rw [h.1] at hok
  exact hc hok

/-- A command that answers OK with the byte at the read cursor answers one that was put. -/
theorem answered_was_put {F : FifoId} {s u : State} (hok : s.FifoOk F) (h : (s.fifo F).count ≠ 0#8)
    (hp : u.port = s.port) : ∃ v, (s.fifo F).buf.read? (s.fifo F).rd.toNat = some v ∧
      ((respond .OK (word8 (s.byteAt F (s.fifo F).rd.toNat)) u).rsp s.port).data = v.setWidth 32 := by
  refine ⟨_, oldest_was_put hok h, ?_⟩
  rw [← hp, respond_rsp_self]
  rfl

/-- Settles O27: in the one case of each command that answers OK, the data is the byte at the read cursor. -/
theorem onlyPutBytesObserved : Obligations.OnlyPutBytesObserved := by
  intro s t hinv
  refine ⟨fun h hcode => ?_, fun h hcode => ?_⟩
  · rcases exec_rxfGet_cases h with ⟨-, rfl⟩ | ⟨-, -, rfl⟩ | ⟨-, hsome, -, rfl⟩
    · exact (code_ne_of_answers (answers_raiseIllegalCommand s) (by decide) hcode).elim
    · exact (code_ne_of_answers (answers_respond s s _ _ rfl rfl rfl rfl) (by decide) hcode).elim
    · exact answered_was_put (hinv.fifo_ok .rx) hsome rfl
  · rcases h with h | h
    · rcases exec_txfGet_cases h with ⟨-, rfl⟩ | ⟨-, -, rfl⟩ | ⟨-, hsome, -, rfl⟩
      · exact (code_ne_of_answers (answers_raiseIllegalCommand s) (by decide) hcode).elim
      · exact (code_ne_of_answers (answers_txEmptyClear_none s) (by decide) hcode).elim
      · exact answered_was_put (hinv.fifo_ok .tx) hsome rfl
    · rcases exec_txDrain_cases h with ⟨-, rfl⟩ | ⟨-, -, rfl⟩ | ⟨-, hgate, -, rfl⟩
      · exact (code_ne_of_answers (answers_raiseIllegalCommand s) (by decide) hcode).elim
      · exact (code_ne_of_answers (answers_txEmptyClear_none s) (by decide) hcode).elim
      · exact answered_was_put (hinv.fifo_ok .tx) ((drainGate_eq_true s).1 hgate).2.1 rfl

end Sys2Proof.Machine

/-! PROOFS. The step (20_memory.md R64): what a turn does, that the machine never stops in a state that meets the
invariant, and that every step keeps the invariant. Then what every command answers and leaves alone. -/

namespace Sys2Proof.Machine

/-! ### Turns -/

theorem step_of_turn {s : State} {t : Turn} {ts : List Turn} (hlegal : s.cfg.WellFormed)
    (hturn : s.schedule = t :: ts) : step s = takeTurn t { s with schedule := ts } := by
  rw [step_of_legal hlegal, advanceSchedule, hturn]

theorem step_of_no_turn {s : State} (hlegal : s.cfg.WellFormed) (hturn : s.schedule = []) : step s = .next s := by
  rw [step_of_legal hlegal, advanceSchedule, hturn]

theorem step_of_nothing_pending {s : State} {p : Port} {ts : List Turn} (hlegal : s.cfg.WellFormed)
    (hturn : s.schedule = .issue p :: ts) (hnone : s.pending p = []) : step s = .next { s with schedule := ts } := by
  have hnone' : ({ s with schedule := ts } : State).pending p = [] := by cases p <;> exact hnone
  rw [step_of_turn hlegal hturn, takeTurn, issueNext, hnone']

theorem runWord_of_legal {w : Word} {i : Instr} (h : decode w = .ok i) (s : State) : runWord w s = exec i s := by
  rw [runWord, h]

/-- Settles O7: the issue of a word runs it, and the decoder names the command. -/
theorem stepRunsDecodedCommand : Obligations.StepRunsDecodedCommand :=
  fun _ _ _ _ _ _ hlegal hturn hword hdec => (step_of_issue hlegal hturn hword).trans (runWord_of_legal hdec _)

/-- Settles O8: the four turns without a command, and no turn. -/
theorem otherTurns : Obligations.OtherTurns := by
  intro s ts hlegal
  exact ⟨fun v hturn => step_of_turn hlegal hturn, fun v hturn => step_of_turn hlegal hturn,
    fun hturn => step_of_turn hlegal hturn, fun p hturn hnone => step_of_nothing_pending hlegal hturn hnone,
    fun hturn => step_of_no_turn hlegal hturn⟩

/-! ### A command is never refused -/

theorem onAllowedPort_ne_refused {i : Instr} {s : State} {e : Host.Outcome State Fault Refusal} {r : Refusal}
    (h : e ≠ .refused r) : onAllowedPort i s e ≠ .refused r := by
  rw [onAllowedPort]
  split
  · exact h
  · exact nofun

theorem finish_ne_refused (x : Except Fault State) (r : Refusal) : finish x ≠ .refused r := by
  cases x <;> exact nofun

/-- No arm of exec refuses: a command answers or faults. -/
theorem exec_ne_refused (i : Instr) (s : State) (r : Refusal) : exec i s ≠ .refused r := by
  cases i with
  | rxfPut b => exact onAllowedPort_ne_refused (finish_ne_refused _ r)
  | txfPut b => exact onAllowedPort_ne_refused (finish_ne_refused _ r)
  | rxfGet => exact onAllowedPort_ne_refused (by split <;> exact nofun)
  | txfGet => exact onAllowedPort_ne_refused (by split <;> exact nofun)
  | hwRxByte b => exact onAllowedPort_ne_refused (by split <;> exact nofun)
  | txDrain =>
    refine onAllowedPort_ne_refused ?_
    split
    · split <;> exact nofun
    · exact nofun
  | tryReceiveFrame =>
    refine onAllowedPort_ne_refused ?_
    split
    · exact nofun
    · split <;> exact nofun
  | buildAndEnqueueFrame sp an =>
    refine onAllowedPort_ne_refused ?_
    split
    · exact nofun
    · split <;> exact nofun
  | _ => exact onAllowedPort_ne_refused nofun

theorem takeTurn_ne_refused (t : Turn) (s : State) (r : Refusal) : takeTurn t s ≠ .refused r := by
  cases t with
  | issue p =>
    rw [takeTurn, issueNext]
    split
    · exact nofun
    · rw [runWord]
      split
      · exact exec_ne_refused _ _ r
      · exact nofun
  | _ => exact nofun

/-- Settles O9: a step of a legal configuration takes a turn or does nothing, and no turn is refused. -/
theorem illegalConfigurationRefused : Obligations.IllegalConfigurationRefused := by
  intro s
  refine ⟨fun h hlegal => ?_, fun hillegal => step_of_illegal hillegal⟩
  cases hturn : s.schedule with
  | nil => cases (step_of_no_turn hlegal hturn).symm.trans h
  | cons t ts => exact takeTurn_ne_refused t _ _ ((step_of_turn hlegal hturn).symm.trans h)

/-! ### A state that meets the invariant always answers -/

theorem onAllowedPort_answers {i : Instr} {s : State} {e : Host.Outcome State Fault Refusal}
    (h : ∃ t, e = .next t) : ∃ t, onAllowedPort i s e = .next t := by
  rw [onAllowedPort]
  split
  · exact h
  · exact ⟨_, rfl⟩

theorem finish_putAndRespond_answers {F : FifoId} (b : Byte) {s : State} (hok : s.FifoOk F) :
    ∃ t, finish (putAndRespond F b s) = .next t := by
  rcases hok.count_le.eq_or_lt with hfull | hroom
  · exact ⟨_, finish_putAndRespond_of_full b hfull⟩
  · exact ⟨_, finish_putAndRespond_of_room b hok hroom⟩

theorem takeWindow_answers {s : State} (hok : s.FifoOk .rx) (hcap : s.cap .rx ≤ 255) (hsize : 5 ≤ readSize .rx s) :
    ∃ x, takeWindow s = .ok x := by
  rw [← contents_length] at hsize
  match hcont : s.contents .rx, hsize with
  | _ :: _ :: _ :: _ :: _ :: _, _ =>
    obtain ⟨u, hw, -⟩ := takeWindow_of_contents hok hcap hcont
    exact ⟨_, hw⟩

theorem fifoPutAll_answers {F : FifoId} {bs : List Byte} {s : State} (hok : s.FifoOk F) (hcap : s.cap F ≤ 255)
    (hroom : (bs.length : Int) ≤ writeSpace F s) : ∃ x, fifoPutAll F bs s = .ok x := by
  simp only [writeSpace] at hroom
  obtain ⟨u, hput, -⟩ := fifoPutAll_room F bs s hok hcap (by omega)
  exact ⟨u, hput⟩

/-- Every command answers a next state where both FIFOs are as 10_state.md R33 says: no cursor is outside its
storage. -/
theorem exec_answers {s : State} (hinv : s.Inv) (i : Instr) : ∃ t, exec i s = .next t := by
  cases i with
  | rxfPut b => exact onAllowedPort_answers (finish_putAndRespond_answers b (hinv.fifo_ok .rx))
  | txfPut b => exact onAllowedPort_answers (finish_putAndRespond_answers b (hinv.fifo_ok .tx))
  | rxfGet =>
    obtain ⟨x, hget⟩ := fifoGet_answers (hinv.fifo_ok .rx)
    exact onAllowedPort_answers (by rw [hget]; exact ⟨_, rfl⟩)
  | txfGet =>
    obtain ⟨x, hget⟩ := fifoGet_answers (hinv.fifo_ok .tx)
    exact onAllowedPort_answers (by rw [hget]; exact ⟨_, rfl⟩)
  | hwRxByte b =>
    obtain ⟨x, hput⟩ := fifoPut_answers b (hinv.fifo_ok .rx)
    exact onAllowedPort_answers (by rw [hput]; exact ⟨_, rfl⟩)
  | txDrain =>
    obtain ⟨x, hget⟩ := fifoGet_answers (hinv.fifo_ok .tx)
    refine onAllowedPort_answers ?_
    split
    · rw [hget]
      exact ⟨_, rfl⟩
    · exact ⟨_, rfl⟩
  | tryReceiveFrame =>
    refine onAllowedPort_answers ?_
    split
    · exact ⟨_, rfl⟩
    · rename_i hlong
      obtain ⟨x, hw⟩ := takeWindow_answers (hinv.fifo_ok .rx) (hinv.cap_le .rx) (Nat.le_of_not_lt hlong)
      rw [hw]
      exact ⟨_, rfl⟩
  | buildAndEnqueueFrame sp an =>
    refine onAllowedPort_answers ?_
    split
    · exact ⟨_, rfl⟩
    · rename_i hroom
      obtain ⟨x, hput⟩ := fifoPutAll_answers (bs := frameBytes s.cfg.crcStep sp an) (hinv.fifo_ok .tx)
        (hinv.cap_le .tx) (Int.not_lt.1 hroom)
      rw [hput]
      exact ⟨_, rfl⟩
  | _ => exact onAllowedPort_answers ⟨_, rfl⟩

/-- The issue of a word touches nothing that the invariant is about. -/
theorem State.Inv.afterIssue {s : State} (h : s.Inv) (p : Port) (ws : List Word) (ts : List Turn) :
    (afterIssue p ws ts s).Inv :=
  h.outside rfl

/-- Settles O53: the configuration is legal, every turn without a command answers, and so does every command. -/
theorem machineNeverStops : Obligations.MachineNeverStops := by
  intro s hinv
  cases hturn : s.schedule with
  | nil => exact ⟨_, step_of_no_turn hinv.legal hturn⟩
  | cons turn ts =>
    cases turn with
    | issue p =>
      cases hword : s.pending p with
      | nil => exact ⟨_, step_of_nothing_pending hinv.legal hturn hword⟩
      | cons w ws =>
        rw [step_of_issue hinv.legal hturn hword]
        cases hdec : decode w with
        | ok i => rw [runWord_of_legal hdec]; exact exec_answers (hinv.afterIssue p ws ts) i
        | error e => exact ⟨_, runWord_of_illegal hdec _⟩
    | _ => exact ⟨_, step_of_turn hinv.legal hturn⟩

/-! ### Every step keeps the invariant -/

theorem inv_judgeWindow {s : State} (w : Window) (h : s.Inv) : (judgeWindow w s).Inv := by
  rw [judgeWindow]
  split
  · exact inv_respond _ _ (inv_rtsEval (inv_toggleFrameErr h))
  · split
    · exact inv_respond _ _ (inv_rtsEval (inv_acceptFrame _ h))
    · exact inv_respond _ _ (inv_rtsEval (inv_toggleCrcErr h))

/-- Every command keeps the invariant: each of its cases is a row of operations that keep it. -/
theorem exec_keeps_inv {i : Instr} {s t : State} (hinv : s.Inv) (h : exec i s = .next t) : t.Inv := by
  cases i with
  | init =>
    rcases exec_init_cases h with ⟨-, rfl⟩ | ⟨-, rfl⟩
    · exact inv_respond _ _ hinv
    · exact inv_respond _ _ (inv_initialise hinv)
  | status => cases exec_status_next.symm.trans h; exact inv_respond _ _ hinv
  | rxfReadSize => cases exec_rxfReadSize_next.symm.trans h; exact inv_respond _ _ hinv
  | rxfWriteSpace => cases exec_rxfWriteSpace_next.symm.trans h; exact inv_respond _ _ hinv
  | txfReadSize => cases exec_txfReadSize_next.symm.trans h; exact inv_respond _ _ hinv
  | txfWriteSpace => cases exec_txfWriteSpace_next.symm.trans h; exact inv_respond _ _ hinv
  | rtsEval => cases exec_rtsEval_next.symm.trans h; exact inv_respond _ _ (inv_rtsEval hinv)
  | txIrqEval => cases exec_txIrqEval_next.symm.trans h; exact inv_respond _ _ (inv_txIrqEval hinv)
  | lastRemote => rcases exec_lastRemote_cases h with ⟨-, rfl⟩ | ⟨-, rfl⟩ <;> exact inv_respond _ _ hinv
  | crcUpdate c b => rcases exec_crcUpdate_cases h with ⟨-, rfl⟩ | ⟨-, rfl⟩ <;> exact inv_respond _ _ hinv
  | rxfPut b =>
    rcases exec_rxfPut_cases h with ⟨-, rfl⟩ | ⟨-, -, rfl⟩ | ⟨-, hroom, -, rfl⟩
    · exact inv_respond _ _ hinv
    · exact inv_respond _ _ hinv
    · exact inv_respond _ _ (inv_afterPut .rx b hinv hroom)
  | txfPut b =>
    rcases exec_txfPut_cases h with ⟨-, rfl⟩ | ⟨-, -, rfl⟩ | ⟨-, hroom, -, rfl⟩
    · exact inv_respond _ _ hinv
    · exact inv_respond _ _ hinv
    · exact inv_respond _ _ (inv_afterPut .tx b hinv hroom)
  | rxfGet =>
    rcases exec_rxfGet_cases h with ⟨-, rfl⟩ | ⟨-, -, rfl⟩ | ⟨-, hsome, -, rfl⟩
    · exact inv_respond _ _ hinv
    · exact inv_respond _ _ hinv
    · exact inv_respond _ _ (inv_afterGet_rx hinv hsome)
  | txfGet =>
    rcases exec_txfGet_cases h with ⟨-, rfl⟩ | ⟨-, -, rfl⟩ | ⟨-, hsome, -, rfl⟩
    · exact inv_respond _ _ hinv
    · exact inv_respond _ _ (inv_txEmptyClear hinv)
    · exact inv_respond _ _ (inv_txEmptyClear_afterGet_tx hinv hsome (.inl rfl))
  | tryReceiveFrame =>
    rcases exec_tryReceiveFrame_cases h with ⟨-, rfl⟩ | ⟨-, -, rfl⟩ | ⟨-, -, w, u, hw, rfl⟩
    · exact inv_respond _ _ hinv
    · exact inv_respond _ _ (inv_rtsEval (inv_pollOfSilence hinv))
    · exact inv_judgeWindow w (inv_takeWindow hinv hw)
  | buildAndEnqueueFrame sp an =>
    rcases exec_buildAndEnqueueFrame_cases h with ⟨-, rfl⟩ | ⟨-, -, rfl⟩ | ⟨-, -, u, hput, rfl⟩
    · exact inv_respond _ _ hinv
    · exact inv_respond _ _ (inv_txIrqEval hinv)
    · exact inv_respond _ _ (inv_txIrqEval (inv_fifoPutAll _ _ _ _ hinv hput))
  | hwRxByte b =>
    rcases exec_hwRxByte_cases h with ⟨-, rfl⟩ | ⟨-, -, rfl⟩ | ⟨-, hroom, -, rfl⟩
    · exact inv_respond _ _ hinv
    · exact inv_respond _ _ (inv_rtsEval hinv)
    · exact inv_respond _ _ (inv_rtsEval (inv_afterPut .rx b hinv hroom))
  | txDrain =>
    rcases exec_txDrain_cases h with ⟨-, rfl⟩ | ⟨-, -, rfl⟩ | ⟨-, hgate, -, rfl⟩
    · exact inv_respond _ _ hinv
    · exact inv_respond _ _ (inv_txEmptyClear hinv)
    · exact inv_respond _ _
        (inv_txEmptyClear_afterGet_tx hinv ((drainGate_eq_true s).1 hgate).2.1 (.inr ⟨_, rfl⟩))

/-- Power-on reset leaves the values of 70_reset_and_hazards.md R270, which meet the invariant. -/
theorem inv_powerOnReset {s : State} (hlegal : s.cfg.WellFormed) : (powerOnReset s).Inv := by
  have hrx : 0 < s.cap .rx := by rw [cap_rx]; omega
  have htx : 0 < s.cap .tx := by rw [cap_tx]; omega
  exact (State.inv_iff _).2
    ⟨hlegal, .reset rfl hrx, .reset rfl htx, Nat.zero_le _, nofun, nofun, fun _ => rfl, rfl, rfl⟩

/-- The reset state is one that power-on reset leaves as it is. -/
theorem inv_resetWith {c : Config} (hlegal : c.WellFormed) : (State.resetWith c).Inv :=
  inv_powerOnReset (s := State.resetWith c) hlegal

/-- Settles O51: `inv_resetWith`, and the default configuration is legal. -/
theorem resetMeetsInvariant : Obligations.ResetMeetsInvariant :=
  ⟨fun _ hlegal => inv_resetWith hlegal, inv_resetWith (by decide)⟩

/-- Settles O52: a turn without a command changes nothing the invariant is about or resets the machine, and a command
keeps it (`exec_keeps_inv`). -/
theorem stepKeepsInvariant : Obligations.StepKeepsInvariant := by
  intro s t hinv h
  obtain ⟨hlegal, hcase⟩ := step_cases h
  rcases hcase with ⟨-, rfl⟩ | ⟨ts, hturn⟩
  · exact hinv
  rcases hturn with ⟨v, -, rfl⟩ | ⟨v, -, rfl⟩ | ⟨-, rfl⟩ | ⟨p, -, hissue⟩
  · exact hinv.outside rfl
  · exact hinv.outside rfl
  · exact inv_powerOnReset hlegal
  rcases hissue with ⟨-, rfl⟩ | ⟨w, ws, -, ⟨i, -, hexec⟩ | ⟨e, -, rfl⟩⟩
  · exact hinv.outside rfl
  · exact exec_keeps_inv (hinv.afterIssue p ws ts) hexec
  · exact inv_respond _ _ (hinv.afterIssue p ws ts)

/-- Settles O14: the fields of the two reset states as they are defined. -/
theorem powerOnResetValues : Obligations.PowerOnResetValues := by
  rintro c s t (rfl | rfl)
  · and_intros <;> rfl
  · and_intros <;> rfl

/-! ### What every command answers and leaves alone -/

/-- Every command either raises IllegalCommand off its role, or answers OK or NONE after writing elements only. -/
theorem exec_responds_once {i : Instr} {s t : State} (h : exec i s = .next t) :
    ∃ u c d, t = respond c d u ∧ s.OnlyElements u ∧ (c = .ILLEGAL ↔ allowedOn i s.port = false) := by
  rcases exec_responds h with ⟨hnot, rfl⟩ | ⟨hallowed, u, c, d, rfl, hc, hu⟩
  · exact ⟨s, .ILLEGAL, 0#32, rfl, rfl, by simp [hnot]⟩
  · exact ⟨u, c, d, rfl, hu, by simp [hc, hallowed]⟩

theorem answers_of_onlyElements {s u : State} (h : s.OnlyElements u) (c : RspCode) (d : Word) :
    s.Answers (respond c d u) c d := by
  rw [State.OnlyElements] at h
  apply answers_respond <;> rw [h]

/-- Settles O12: the result is ILLEGAL in exactly the one case of the port check. -/
theorem allowedCommandNeverIllegal : Obligations.AllowedCommandNeverIllegal := by
  intro i s t h
  obtain ⟨u, c, d, rfl, hu, hc⟩ := exec_responds_once h
  obtain ⟨hrsp, -⟩ := answers_of_onlyElements hu c d
  rw [hrsp]
  exact hc

/-- Settles O13: a command writes elements and tx_wire, and then answers once. -/
theorem everyCommandAnswersOnce : Obligations.EveryCommandAnswersOnce := by
  intro i s t h
  obtain ⟨u, c, d, rfl, hu, -⟩ := exec_responds_once h
  obtain ⟨hrsp, hother, hresults⟩ := answers_of_onlyElements hu c d
  refine ⟨⟨⟨c, d⟩, hrsp, hresults⟩, hother, ?_⟩
  rw [State.OnlyElements] at hu
  rw [hu]
  exact ⟨rfl, rfl, rfl, rfl, rfl, rfl, rfl⟩

/-- Settles O54: no turn and no command writes the parameters. -/
theorem parametersNeverChange : Obligations.ParametersNeverChange := by
  intro s t h
  obtain ⟨-, hcase⟩ := step_cases h
  rcases hcase with ⟨-, rfl⟩ | ⟨ts, hturn⟩
  · rfl
  rcases hturn with ⟨v, -, rfl⟩ | ⟨v, -, rfl⟩ | ⟨-, rfl⟩ | ⟨p, -, hissue⟩
  · rfl
  · rfl
  · rfl
  rcases hissue with ⟨-, rfl⟩ | ⟨w, ws, -, ⟨i, -, hexec⟩ | ⟨e, -, rfl⟩⟩
  · rfl
  · obtain ⟨u, c, d, rfl, hu, -⟩ := exec_responds_once hexec
    rw [respond_cfg, hu]
    rfl
  · rfl

end Sys2Proof.Machine

/-! PROOFS. Cursors are hidden (10_state.md R35): two states that store the same bytes at different cursors answer every
command alike and store the same bytes again. -/

namespace Sys2Proof.Machine

/-- u has only the inputs, the agents' sequences, the schedule and the port different from s. -/
def State.OnlyOutside (s u : State) : Prop :=
  u = { s with ctsIn := u.ctsIn, txRegFullIn := u.txRegFullIn, cmdF := u.cmdF, cmdI := u.cmdI,
               schedule := u.schedule, port := u.port }

theorem State.OnlyOutside.fifo_eq {s u : State} (h : s.OnlyOutside u) (F : FifoId) : u.fifo F = s.fifo F := by
  rw [State.OnlyOutside] at h
  rw [h]
  cases F <;> rfl

theorem State.OnlyOutside.contents_eq {s u : State} (h : s.OnlyOutside u) (F : FifoId) :
    u.contents F = s.contents F := by
  refine contents_congr (h.fifo_eq F) ?_
  rw [State.OnlyOutside] at h
  rw [h]
  rfl

/-! ### What two such states have in common -/

namespace State.SameToCommands

variable {s t : State}

theorem readSize_eq (h : s.SameToCommands t) (F : FifoId) : readSize F t = readSize F s := by
  rw [← contents_length, ← contents_length, h.2 F]

theorem count_eq (h : s.SameToCommands t) (F : FifoId) : (t.fifo F).count = (s.fifo F).count :=
  BitVec.eq_of_toNat_eq (h.readSize_eq F)

theorem cfg_eq (h : s.SameToCommands t) : t.cfg = s.cfg := (congrArg State.cfg h.1).symm

theorem port_eq (h : s.SameToCommands t) : t.port = s.port := (congrArg State.port h.1).symm

theorem schedule_eq (h : s.SameToCommands t) : t.schedule = s.schedule := (congrArg State.schedule h.1).symm

theorem pending_eq (h : s.SameToCommands t) (p : Port) : t.pending p = s.pending p :=
  (congrArg (fun u => u.pending p) h.1).symm.trans (by cases p <;> rfl)

theorem cap_eq (h : s.SameToCommands t) (F : FifoId) : t.cap F = s.cap F := by
  rw [State.cap, State.cap, h.cfg_eq]

theorem writeSpace_eq (h : s.SameToCommands t) (F : FifoId) : writeSpace F t = writeSpace F s := by
  rw [writeSpace, writeSpace, h.readSize_eq F, h.cap_eq F]

theorem drainGate_eq (h : s.SameToCommands t) : drainGate t = drainGate s := by
  have hcount : t.tx.count = s.tx.count := h.count_eq .tx
  rw [drainGate, drainGate, hcount, ← h.1]

theorem statusWord_eq (h : s.SameToCommands t) : statusWord t = statusWord s := by
  have hrx : t.rx.count = s.rx.count := h.count_eq .rx
  have htx : t.tx.count = s.tx.count := h.count_eq .tx
  rw [statusWord, statusWord, hrx, htx, ← h.1]

/-! ### Operations beside the FIFOs -/

theorem respond (h : s.SameToCommands t) (c : RspCode) (d : Word) :
    (respond c d s).SameToCommands (respond c d t) :=
  ⟨congrArg (Machine.respond c d) h.1, fun F => by simpa using h.2 F⟩

theorem respondIf (h : s.SameToCommands t) (ok : Bool) (d : Word) :
    (respondIf ok d s).SameToCommands (respondIf ok d t) := by
  cases ok <;> exact h.respond _ _

theorem toggleCrcErr (h : s.SameToCommands t) : (toggleCrcErr s).SameToCommands (toggleCrcErr t) :=
  ⟨congrArg Machine.toggleCrcErr h.1, fun F => by simpa using h.2 F⟩

theorem toggleFrameErr (h : s.SameToCommands t) : (toggleFrameErr s).SameToCommands (toggleFrameErr t) :=
  ⟨congrArg Machine.toggleFrameErr h.1, fun F => by simpa using h.2 F⟩

theorem pollOfSilence (h : s.SameToCommands t) : (pollOfSilence s).SameToCommands (pollOfSilence t) :=
  ⟨congrArg Machine.pollOfSilence h.1, fun F => by simpa using h.2 F⟩

theorem acceptFrame (h : s.SameToCommands t) (cv : Word) : (acceptFrame cv s).SameToCommands (acceptFrame cv t) :=
  ⟨congrArg (Machine.acceptFrame cv) h.1, fun F => by simpa using h.2 F⟩

theorem sendOnWire (h : s.SameToCommands t) (v : Byte) : (sendOnWire v s).SameToCommands (sendOnWire v t) :=
  ⟨congrArg (Machine.sendOnWire v) h.1, fun F => by simpa using h.2 F⟩

theorem rtsEval (h : s.SameToCommands t) : (rtsEval s).SameToCommands (rtsEval t) := by
  refine ⟨?_, fun F => by simpa using h.2 F⟩
  rw [Machine.rtsEval, Machine.rtsEval, h.writeSpace_eq .rx, ← h.1]

theorem txIrqEval (h : s.SameToCommands t) : (txIrqEval s).SameToCommands (txIrqEval t) := by
  have hcount : t.tx.count = s.tx.count := h.count_eq .tx
  refine ⟨?_, fun F => by simpa using h.2 F⟩
  rw [Machine.txIrqEval, Machine.txIrqEval, hcount, ← h.1]

theorem txEmptyClear (h : s.SameToCommands t) : (txEmptyClear s).SameToCommands (txEmptyClear t) := by
  have hcount : t.tx.count = s.tx.count := h.count_eq .tx
  refine ⟨?_, fun F => by simpa using h.2 F⟩
  rw [Machine.txEmptyClear, Machine.txEmptyClear, hcount, ← h.1]

/-- A write outside the core, the same in both states. -/
theorem outside (h : s.SameToCommands t) {op : State → State} (hop : ∀ u : State, u.OnlyOutside (op u))
    (hframe : { op s with rx := t.rx, tx := t.tx } = op { s with rx := t.rx, tx := t.tx }) :
    (op s).SameToCommands (op t) := by
  have hrx : (op t).rx = t.rx := (hop t).fifo_eq .rx
  have htx : (op t).tx = t.tx := (hop t).fifo_eq .tx
  refine ⟨?_, fun F => ?_⟩
  · rw [hrx, htx, hframe, h.1]
  · rw [(hop s).contents_eq, (hop t).contents_eq, h.2 F]

/-! ### Operations on the FIFOs -/

theorem initialise (h : s.SameToCommands t) : (initialise s).SameToCommands (initialise t) := by
  refine ⟨congrArg Machine.initialise h.1, fun F => ?_⟩
  rw [contents_eq_nil_iff.2, contents_eq_nil_iff.2] <;> cases F <;> rfl

theorem powerOnReset (h : s.SameToCommands t) : (powerOnReset s).SameToCommands (powerOnReset t) := by
  have hframe := congrArg Machine.powerOnReset h.1
  refine ⟨hframe, fun F => ?_⟩
  rw [contents_eq_nil_iff.2, contents_eq_nil_iff.2] <;> cases F <;> rfl

/-- An operation on one FIFO of both states that leaves the same bytes in it. -/
theorem setFifo (h : s.SameToCommands t) {F : FifoId} {f g : Fifo}
    (hcont : (s.setFifo F f).contents F = (t.setFifo F g).contents F) :
    (s.setFifo F f).SameToCommands (t.setFifo F g) := by
  constructor
  · cases F
    · exact congrArg (fun u => u.setFifo .rx g) h.1
    · exact congrArg (fun u => u.setFifo .tx g) h.1
  · intro G
    by_cases hG : G = F
    · rw [hG, hcont]
    · rw [contents_congr (setFifo_fifo_other s F G f hG) (setFifo_cap s F f G),
        contents_congr (setFifo_fifo_other t F G g hG) (setFifo_cap t F g G), h.2 G]

theorem fifoPut (h : s.SameToCommands t) {F : FifoId} (b : Byte) (hs : s.FifoOk F) (ht : t.FifoOk F)
    (hcap : s.cap F ≤ 255) : ∃ ok u v, fifoPut F b s = .ok (u, ok) ∧ fifoPut F b t = .ok (v, ok) ∧
      u.SameToCommands v := by
  have hsize := h.readSize_eq F
  have hcap' := h.cap_eq F
  rcases hs.count_le.eq_or_lt with hfull | hroom
  · exact ⟨_, _, _, fifoPut_full F b s hfull, fifoPut_full F b t (by omega), h⟩
  · refine ⟨_, _, _, fifoPut_room F b s hroom.ne hs.wr_lt, fifoPut_room F b t (by omega) ht.wr_lt, h.setFifo ?_⟩
    exact (contents_afterPut b hs hcap hroom).trans
      ((congrArg (· ++ [b]) (h.2 F)).trans (contents_afterPut b ht (by omega) (by omega)).symm)

theorem fifoGet (h : s.SameToCommands t) {F : FifoId} (hs : s.FifoOk F) (ht : t.FifoOk F) (hcap : s.cap F ≤ 255) :
    ∃ b ok u v, fifoGet F s = .ok (b, ok, u) ∧ fifoGet F t = .ok (b, ok, v) ∧ u.SameToCommands v := by
  have hcap' := h.cap_eq F
  cases hcont : s.contents F with
  | nil =>
    exact ⟨_, _, _, _, fifoGet_empty F s (contents_eq_nil_iff.1 hcont),
      fifoGet_empty F t (contents_eq_nil_iff.1 ((h.2 F).symm.trans hcont)), h⟩
  | cons b rest =>
    obtain ⟨hget, hrest⟩ := fifoGet_of_contents hs hcap hcont
    obtain ⟨hget', hrest'⟩ := fifoGet_of_contents ht (by omega) ((h.2 F).symm.trans hcont)
    exact ⟨b, true, _, _, hget, hget', h.setFifo (hrest.trans hrest'.symm)⟩

theorem fifoPutAll (h : s.SameToCommands t) {F : FifoId} {bs : List Byte} (hs : s.FifoOk F) (ht : t.FifoOk F)
    (hcap : s.cap F ≤ 255) (hroom : (bs.length : Int) ≤ writeSpace F s) :
    ∃ u v, fifoPutAll F bs s = .ok u ∧ fifoPutAll F bs t = .ok v ∧ u.SameToCommands v := by
  have hcap' := h.cap_eq F
  obtain ⟨u, hput⟩ := fifoPutAll_answers hs hcap hroom
  obtain ⟨v, hput'⟩ := fifoPutAll_answers ht (by omega) (by rw [h.writeSpace_eq]; exact hroom)
  have hcont : u.contents F = v.contents F := by
    rw [contents_of_fifoPutAll hs hcap hroom hput, h.2 F,
      contents_of_fifoPutAll ht (by omega) (by rw [h.writeSpace_eq]; exact hroom) hput']
  refine ⟨u, v, hput, hput', ?_⟩
  rw [fifoPutAll_frame F bs s u hput, fifoPutAll_frame F bs t v hput'] at hcont ⊢
  exact h.setFifo hcont

theorem takeWindow (h : s.SameToCommands t) (hs : s.FifoOk .rx) (ht : t.FifoOk .rx) (hcap : s.cap .rx ≤ 255)
    (hsize : 5 ≤ readSize .rx s) :
    ∃ w u v, takeWindow s = .ok (w, u) ∧ takeWindow t = .ok (w, v) ∧ u.SameToCommands v := by
  have hcap' := h.cap_eq .rx
  rw [← contents_length] at hsize
  match hcont : s.contents .rx, hsize with
  | b0 :: b1 :: b2 :: b3 :: b4 :: rest, _ =>
    obtain ⟨u, hw, -, hrest, hu⟩ := takeWindow_of_contents hs hcap hcont
    obtain ⟨v, hw', -, hrest', hv⟩ := takeWindow_of_contents ht (by omega) ((h.2 .rx).symm.trans hcont)
    have hsame := hrest.trans hrest'.symm
    refine ⟨_, u, v, hw, hw', ?_⟩
    rw [hu, hv] at hsame ⊢
    exact h.setFifo (F := .rx) hsame

theorem judgeWindow (h : s.SameToCommands t) (w : Window) :
    (judgeWindow w s).SameToCommands (judgeWindow w t) := by
  rw [Machine.judgeWindow, Machine.judgeWindow, h.cfg_eq]
  split
  · exact h.toggleFrameErr.rtsEval.respond _ _
  · split
    · exact (h.acceptFrame _).rtsEval.respond _ _
    · exact h.toggleCrcErr.rtsEval.respond _ _

end State.SameToCommands

/-! ### Commands -/

/-- Where r answers a next state, r' answers one that no command can tell from it. -/
def SameAnswers (r r' : Host.Outcome State Fault Refusal) : Prop :=
  ∀ s', r = .next s' → ∃ t', r' = .next t' ∧ s'.SameToCommands t'

theorem sameAnswers_next {s t : State} (h : s.SameToCommands t) : SameAnswers (.next s) (.next t) :=
  fun _ hs => ⟨t, rfl, Host.Outcome.next.inj hs ▸ h⟩

theorem sameAnswers_onAllowedPort {i : Instr} {s t : State} {r r' : Host.Outcome State Fault Refusal}
    (h : s.SameToCommands t) (hr : SameAnswers r r') : SameAnswers (onAllowedPort i s r) (onAllowedPort i t r') := by
  rw [onAllowedPort, onAllowedPort, h.port_eq]
  split
  · exact hr
  · exact sameAnswers_next (h.respond _ _)

theorem sameAnswers_putAndRespond {F : FifoId} {b : Byte} {s t : State} (h : s.SameToCommands t) (hs : s.FifoOk F)
    (ht : t.FifoOk F) (hcap : s.cap F ≤ 255) :
    SameAnswers (finish (putAndRespond F b s)) (finish (putAndRespond F b t)) := by
  obtain ⟨ok, u, v, hput, hput', huv⟩ := h.fifoPut b hs ht hcap
  rw [putAndRespond, putAndRespond, hput, hput']
  exact sameAnswers_next (huv.respondIf ok _)

/-- Every command answers two such states alike. What it reads of a FIFO is its count and the bytes it gets. -/
theorem exec_sameAnswers {s t : State} (i : Instr) (hs : s.Inv) (ht : t.Inv) (h : s.SameToCommands t) :
    SameAnswers (exec i s) (exec i t) := by
  have okS := hs.fifo_ok
  have okT := ht.fifo_ok
  have hcap := hs.cap_le
  cases i with
  | init => exact sameAnswers_onAllowedPort h (sameAnswers_next (h.initialise.respond _ _))
  | status =>
    apply sameAnswers_onAllowedPort h
    rw [h.statusWord_eq]
    exact sameAnswers_next (h.respond _ _)
  | lastRemote =>
    apply sameAnswers_onAllowedPort h
    rw [show t.lastRemote = s.lastRemote by rw [← h.1]]
    exact sameAnswers_next (h.respond _ _)
  | rxfReadSize =>
    apply sameAnswers_onAllowedPort h
    rw [h.readSize_eq]
    exact sameAnswers_next (h.respond _ _)
  | txfReadSize =>
    apply sameAnswers_onAllowedPort h
    rw [h.readSize_eq]
    exact sameAnswers_next (h.respond _ _)
  | rxfWriteSpace =>
    apply sameAnswers_onAllowedPort h
    rw [h.writeSpace_eq]
    exact sameAnswers_next (h.respond _ _)
  | txfWriteSpace =>
    apply sameAnswers_onAllowedPort h
    rw [h.writeSpace_eq]
    exact sameAnswers_next (h.respond _ _)
  | crcUpdate c b =>
    apply sameAnswers_onAllowedPort h
    rw [h.cfg_eq]
    exact sameAnswers_next (h.respond _ _)
  | rtsEval => exact sameAnswers_onAllowedPort h (sameAnswers_next (h.rtsEval.respond _ _))
  | txIrqEval => exact sameAnswers_onAllowedPort h (sameAnswers_next (h.txIrqEval.respond _ _))
  | rxfPut b => exact sameAnswers_onAllowedPort h (sameAnswers_putAndRespond h (okS .rx) (okT .rx) (hcap .rx))
  | txfPut b => exact sameAnswers_onAllowedPort h (sameAnswers_putAndRespond h (okS .tx) (okT .tx) (hcap .tx))
  | rxfGet =>
    obtain ⟨b, ok, u, v, hget, hget', huv⟩ := h.fifoGet (okS .rx) (okT .rx) (hcap .rx)
    apply sameAnswers_onAllowedPort h
    rw [hget, hget']
    exact sameAnswers_next (huv.respondIf ok _)
  | txfGet =>
    obtain ⟨b, ok, u, v, hget, hget', huv⟩ := h.fifoGet (okS .tx) (okT .tx) (hcap .tx)
    apply sameAnswers_onAllowedPort h
    rw [hget, hget']
    exact sameAnswers_next (huv.txEmptyClear.respondIf ok _)
  | hwRxByte b =>
    obtain ⟨ok, u, v, hput, hput', huv⟩ := h.fifoPut b (okS .rx) (okT .rx) (hcap .rx)
    apply sameAnswers_onAllowedPort h
    rw [hput, hput']
    exact sameAnswers_next (huv.rtsEval.respondIf ok _)
  | txDrain =>
    obtain ⟨b, ok, u, v, hget, hget', huv⟩ := h.fifoGet (okS .tx) (okT .tx) (hcap .tx)
    apply sameAnswers_onAllowedPort h
    rw [h.drainGate_eq]
    split
    · rw [hget, hget']
      exact sameAnswers_next ((huv.sendOnWire b).txEmptyClear.respond _ _)
    · exact sameAnswers_next (h.txEmptyClear.respond _ _)
  | tryReceiveFrame =>
    apply sameAnswers_onAllowedPort h
    rw [h.readSize_eq]
    split
    · exact sameAnswers_next (h.pollOfSilence.rtsEval.respond _ _)
    · rename_i hlong
      obtain ⟨w, u, v, hw, hw', huv⟩ := h.takeWindow (okS .rx) (okT .rx) (hcap .rx) (Nat.le_of_not_lt hlong)
      rw [hw, hw']
      exact sameAnswers_next (huv.judgeWindow w)
  | buildAndEnqueueFrame sp an =>
    apply sameAnswers_onAllowedPort h
    rw [h.writeSpace_eq, h.cfg_eq]
    split
    · exact sameAnswers_next (h.txIrqEval.respond _ _)
    · rename_i hroom
      obtain ⟨u, v, hput, hput', huv⟩ := h.fifoPutAll (bs := frameBytes s.cfg.crcStep sp an) (okS .tx) (okT .tx)
        (hcap .tx) (Int.not_lt.1 hroom)
      rw [hput, hput']
      exact sameAnswers_next (huv.txIrqEval.respond _ _)

/-! ### Steps -/

theorem step_sameAnswers {s t : State} (hs : s.Inv) (ht : t.Inv) (h : s.SameToCommands t) :
    SameAnswers (step s) (step t) := by
  cases hturn : s.schedule with
  | nil =>
    rw [step_of_no_turn hs.legal hturn, step_of_no_turn ht.legal (h.schedule_eq.trans hturn)]
    exact sameAnswers_next h
  | cons turn ts =>
    have hturn' := h.schedule_eq.trans hturn
    cases turn with
    | setCtsIn v =>
      rw [step_of_turn hs.legal hturn, step_of_turn ht.legal hturn']
      exact sameAnswers_next (h.outside (op := fun u => { u with ctsIn := v, schedule := ts }) (fun _ => rfl) rfl)
    | setTxRegFullIn v =>
      rw [step_of_turn hs.legal hturn, step_of_turn ht.legal hturn']
      exact sameAnswers_next (h.outside (op := fun u => { u with txRegFullIn := v, schedule := ts }) (fun _ => rfl) rfl)
    | powerOn =>
      rw [step_of_turn hs.legal hturn, step_of_turn ht.legal hturn']
      exact sameAnswers_next (h.outside (op := fun u => { u with schedule := ts }) (fun _ => rfl) rfl).powerOnReset
    | issue p =>
      cases hword : s.pending p with
      | nil =>
        rw [step_of_nothing_pending hs.legal hturn hword,
          step_of_nothing_pending ht.legal hturn' ((h.pending_eq p).trans hword)]
        exact sameAnswers_next (h.outside (op := fun u => { u with schedule := ts }) (fun _ => rfl) rfl)
      | cons w ws =>
        rw [step_of_issue hs.legal hturn hword, step_of_issue ht.legal hturn' ((h.pending_eq p).trans hword)]
        have hissue := h.outside (op := afterIssue p ws ts) (fun _ => rfl) rfl
        cases hdec : decode w with
        | ok i =>
          rw [runWord_of_legal hdec, runWord_of_legal hdec]
          exact exec_sameAnswers i (hs.afterIssue p ws ts) (ht.afterIssue p ws ts) hissue
        | error e =>
          rw [runWord_of_illegal hdec, runWord_of_illegal hdec]
          exact sameAnswers_next (hissue.respond _ _)

/-- Settles O55: the two states take the same turn, and the command it runs, if it runs one, answers them alike
(`exec_sameAnswers`). -/
theorem cursorsAreHidden : Obligations.CursorsAreHidden :=
  fun _ _ s' hs ht h => step_sameAnswers hs ht h s'

end Sys2Proof.Machine

/-! PROOFS. Flow control and the driver interface (43_flow_control.md R190 to R198): the two evaluations, the
hysteresis of rts, the byte received, the overrun margin, and the transmit gate. -/

namespace Sys2Proof.Machine

/-! ### rts -/

theorem rtsNext_of_le_stop {c : Config} {ws : Int} (hc : c.rtsStop < c.rtsStart) (h : ws ≤ (c.rtsStop : Int))
    (r : Bool) : rtsNext c ws r = true := by
  rw [rtsNext, if_neg (by omega), if_pos h]

theorem rtsNext_of_between {c : Config} {ws : Int} (hlo : (c.rtsStop : Int) < ws) (hhi : ws < (c.rtsStart : Int))
    (r : Bool) : rtsNext c ws r = r := by
  rw [rtsNext, if_neg (by omega), if_neg (by omega)]

/-- Settles O43: RTS_EVAL passes the port check on both ports, and the thresholds cut the free space in three. -/
theorem rtsEvalCommand : Obligations.RtsEvalCommand := by
  intro s hc
  exact ⟨_, exec_rtsEval_next, answers_respond s (rtsEval s) _ _ rfl rfl rfl rfl, rfl,
    fun h => rtsNext_of_start_le h s.rts, fun h => rtsNext_of_le_stop hc h s.rts,
    fun hlo hhi => rtsNext_of_between hlo hhi s.rts⟩

/-- An evaluation at a free space below RTS_START never releases rts, so once raised it stays. -/
theorem changes_eq_zero_of_true {c : Config} {l : List Int} (h : ∀ ws ∈ l, ws < (c.rtsStart : Int)) :
    changes true (rtsTrace c true l) = 0 := by
  induction l with
  | nil => rfl
  | cons ws l ih =>
    obtain ⟨hws, hl⟩ := List.forall_mem_cons.1 h
    have hstay : rtsNext c ws true = true := by
      rw [rtsNext, if_neg (by omega)]
      split <;> rfl
    rw [rtsTrace, hstay, changes, if_pos rfl, ih hl]

theorem changes_le_one {c : Config} {l : List Int} (h : ∀ ws ∈ l, ws < (c.rtsStart : Int)) (r : Bool) :
    changes r (rtsTrace c r l) ≤ 1 := by
  cases r with
  | true => rw [changes_eq_zero_of_true h]; exact Nat.zero_le 1
  | false =>
    induction l with
    | nil => exact Nat.zero_le 1
    | cons ws l ih =>
      obtain ⟨-, hl⟩ := List.forall_mem_cons.1 h
      rw [rtsTrace, changes]
      cases rtsNext c ws false with
      | true => rw [changes_eq_zero_of_true hl]; decide
      | false => rw [if_pos rfl, Nat.zero_add]; exact ih hl

/-- Settles O44: below RTS_START and above RTS_STOP an evaluation leaves rts as it is, and free spaces next to RTS_STOP
stay below RTS_START where the thresholds differ by 2 or more. -/
theorem hysteresisLaws : Obligations.HysteresisLaws := by
  intro c hc
  refine ⟨fun ws h => ?_, fun ws h => ?_, fun hgap l r hl => ?_, fun hgap => ?_⟩
  · by_contra hlt
    rcases le_or_gt ws c.rtsStop with hstop | hstop
    · cases (rtsNext_of_le_stop hc hstop true).symm.trans h
    · cases (rtsNext_of_between hstop (not_le.1 hlt) true).symm.trans h
  · by_contra hgt
    rcases le_or_gt (c.rtsStart : Int) ws with hstart | hstart
    · cases (rtsNext_of_start_le hstart false).symm.trans h
    · cases (rtsNext_of_between (not_le.1 hgt) hstart false).symm.trans h
  · exact changes_le_one (fun ws hws => by rcases hl ws hws with rfl | rfl <;> omega) r
  · rw [rtsTrace, rtsTrace, rtsTrace, rtsNext_of_le_stop hc le_rfl, rtsNext_of_start_le (by omega)]
    rfl

/-! ### tx_irq_en -/

/-- Settles O45: TX_IRQ_EVAL passes the port check on both ports. -/
theorem txIrqEvalCommand : Obligations.TxIrqEvalCommand := by
  intro s
  refine ⟨_, exec_txIrqEval_next, answers_respond s (txIrqEval s) _ _ rfl rfl rfl rfl, rfl, ?_⟩
  simp [txIrqEval]

/-! ### A byte received -/

theorem exec_hwRxByte_of_full {b : Byte} {s : State} (hp : s.port = .I) (h : readSize .rx s = s.cap .rx) :
    exec (.hwRxByte b) s = .next (respond .NONE 0#32 (rtsEval s)) := by
  refine (onAllowedPort_of_allowed _ (by rw [hp]; rfl)).trans ?_
  rw [fifoPut_full .rx b s h]
  rfl

theorem exec_hwRxByte_of_room {b : Byte} {s : State} (hp : s.port = .I) (hok : s.FifoOk .rx)
    (h : readSize .rx s < s.cap .rx) :
    exec (.hwRxByte b) s = .next (respond .OK 0#32 (rtsEval (afterPut .rx b s))) := by
  refine (onAllowedPort_of_allowed _ (by rw [hp]; rfl)).trans ?_
  rw [fifoPut_room .rx b s h.ne hok.wr_lt]
  rfl

/-- Settles O46: as RXF_PUT, with one evaluation of rts on both paths. -/
theorem hwRxByteCommand : Obligations.HwRxByteCommand := by
  intro b s hp hok hcap
  rcases hok.count_le.eq_or_lt with hfull | hroom
  · exact ⟨_, exec_hwRxByte_of_full hp hfull, rfl,
      fun _ => ⟨answers_respond s (rtsEval s) _ _ rfl rfl rfl rfl, rfl⟩, fun hroom => absurd hfull hroom.ne⟩
  · exact ⟨_, exec_hwRxByte_of_room hp hok hroom, rfl, fun hfull => absurd hfull hroom.ne,
      fun _ => ⟨answers_respond s (rtsEval (afterPut .rx b s)) _ _ rfl rfl rfl rfl, rfl,
        (stored_afterPut b hok hcap hroom).rtsEval.respond _ _⟩⟩

/-- Bytes that fit into RX are all received, in order, and the receiver's parameters and port stay. -/
theorem receiveAll_of_room {bs : List Byte} {s : State} (hinv : s.Inv) (hp : s.port = .I)
    (hroom : readSize .rx s + bs.length ≤ s.cap .rx) :
    ∃ t, receiveAll bs s = .next t ∧ t.Inv ∧ t.cfg = s.cfg ∧ t.contents .rx = s.contents .rx ++ bs := by
  induction bs generalizing s with
  | nil => exact ⟨s, rfl, hinv, rfl, (List.append_nil _).symm⟩
  | cons b bs ih =>
    rw [List.length_cons] at hroom
    have hlt : readSize .rx s < s.cap .rx := by omega
    have hcap := hinv.cap_le .rx
    have hexec := exec_hwRxByte_of_room (b := b) hp (hinv.fifo_ok .rx) hlt
    have hcont := (((stored_afterPut b (hinv.fifo_ok .rx) hcap hlt).rtsEval).respond .OK 0#32).1
    have hsize := congrArg List.length hcont
    rw [List.length_append, contents_length, contents_length, List.length_singleton] at hsize
    obtain ⟨t, hall, hinv', hcfg, hcont'⟩ := ih (exec_keeps_inv hinv hexec) hp (by
      rw [hsize, show (respond .OK 0#32 (rtsEval (afterPut .rx b s))).cap .rx = s.cap .rx from rfl]; omega)
    exact ⟨t, by rw [receiveAll, hexec]; exact hall, hinv', hcfg, by rw [hcont', hcont, List.append_assoc]; rfl⟩

/-- Settles O47: rts is evaluated at the free space after the byte, and the bytes that RTS_STOP leaves room for are
received (`receiveAll_of_room`). -/
theorem overrunMargin : Obligations.OverrunMargin := by
  refine ⟨fun b s t hinv hp h hstop => ?_, fun bs s hinv hp hspace hlen => ?_⟩
  · have hlegal := hinv.legal
    obtain ⟨t', h', hrts, -⟩ := hwRxByteCommand b s hp (hinv.fifo_ok .rx) (hinv.cap_le .rx)
    cases h'.symm.trans h
    rw [hrts, rtsNext_of_le_stop (by omega) hstop]
  · have hspace' : (s.cap .rx : Int) - readSize .rx s = s.cfg.rtsStop := hspace
    obtain ⟨t, hall, -, -, hcont⟩ := receiveAll_of_room (bs := bs) hinv hp (by omega)
    exact ⟨t, hall, hcont⟩

/-! ### The transmit gate -/

theorem drainGate_eq_false_iff (s : State) :
    drainGate s = false ↔ s.ctsIn = true ∨ s.txRegFullIn = true ∨ s.contents .tx = [] := by
  rw [← not_iff_not, Bool.not_eq_false, drainGate_eq_true, contents_eq_nil_iff, fifo_tx]
  cases s.ctsIn <;> cases s.txRegFullIn <;> simp

theorem exec_txDrain_of_open {s u : State} {v : Byte} (hp : s.port = .I) (hgate : drainGate s = true)
    (hget : fifoGet .tx s = .ok (v, true, u)) :
    exec .txDrain s = .next (respond .OK (word8 v) (txEmptyClear (sendOnWire v u))) := by
  refine (onAllowedPort_of_allowed _ (by rw [hp]; rfl)).trans ?_
  rw [if_pos hgate, hget]

/-- Settles O48: the gate is shut in one of its three ways, or the oldest byte of TX goes out. -/
theorem txDrainCommand : Obligations.TxDrainCommand := by
  intro s hp hok hcap
  cases hgate : drainGate s with
  | false =>
    have hshut := (drainGate_eq_false_iff s).1 hgate
    refine ⟨_, exec_txDrain_of_shut hp hgate, fun F a => by simp, fun _ => ⟨answers_txEmptyClear_none s, ?_⟩,
      fun v rest hcts hfull hcont => ?_⟩
    · rw [txEmptyClear_of_contents rfl]
      rfl
    · simp [hcts, hfull, hcont] at hshut
  | true =>
    have hopen : ¬ (s.ctsIn = true ∨ s.txRegFullIn = true ∨ s.contents .tx = []) := by
      rw [← drainGate_eq_false_iff, hgate]
      decide
    cases hcont : s.contents .tx with
    | nil => exact absurd (.inr (.inr hcont)) hopen
    | cons v rest =>
      obtain ⟨hget, hrest⟩ := fifoGet_of_contents hok hcap hcont
      refine ⟨_, exec_txDrain_of_open hp hgate hget, fun F a => by simpa using sameBytes_afterGet .tx s F a,
        fun hshut => absurd (hcont ▸ hshut) hopen, fun v' rest' _ _ h => ?_⟩
      cases h
      refine ⟨answers_respond s _ _ _ rfl rfl rfl rfl, by simpa using hrest, ?_⟩
      rw [txEmptyClear_of_contents ((sendOnWire_contents _ v .tx).trans hrest)]
      rfl

end Sys2Proof.Machine

/-! PROOFS. Who writes what (10_state.md R46): the access table, the bytes of storage that a command can change, the
role separation of the two ports (20_memory.md R66), and the commands that repeat without further effect (R73). -/

namespace Sys2Proof.Machine

/-! ### The access table -/

@[simp] theorem judgeWindow_tx (w : Window) (s : State) : (judgeWindow w s).tx = s.tx := by
  rw [judgeWindow]
  split
  · rfl
  · split <;> rfl

@[simp] theorem judgeWindow_txIrqEn (w : Window) (s : State) : (judgeWindow w s).txIrqEn = s.txIrqEn := by
  rw [judgeWindow]
  split
  · rfl
  · split <;> rfl

@[simp] theorem judgeWindow_txWire (w : Window) (s : State) : (judgeWindow w s).txWire = s.txWire := by
  rw [judgeWindow]
  split
  · rfl
  · split <;> rfl

/-- Settles O56: each case of a command is a row of updates, and an update that is not of an element leaves it. -/
theorem accessSummary : Obligations.AccessSummary := by
  intro i s t h
  cases i with
  | init => rcases exec_init_cases h with ⟨-, rfl⟩ | ⟨-, rfl⟩ <;> simp [raiseIllegalCommand]
  | status => cases exec_status_next.symm.trans h; simp
  | rxfReadSize => cases exec_rxfReadSize_next.symm.trans h; simp
  | rxfWriteSpace => cases exec_rxfWriteSpace_next.symm.trans h; simp
  | txfReadSize => cases exec_txfReadSize_next.symm.trans h; simp
  | txfWriteSpace => cases exec_txfWriteSpace_next.symm.trans h; simp
  | rtsEval => cases exec_rtsEval_next.symm.trans h; simp
  | txIrqEval => cases exec_txIrqEval_next.symm.trans h; simp
  | lastRemote => rcases exec_lastRemote_cases h with ⟨-, rfl⟩ | ⟨-, rfl⟩ <;> simp [raiseIllegalCommand]
  | crcUpdate c b => rcases exec_crcUpdate_cases h with ⟨-, rfl⟩ | ⟨-, rfl⟩ <;> simp [raiseIllegalCommand]
  | rxfPut b =>
    rcases exec_rxfPut_cases h with ⟨-, rfl⟩ | ⟨-, -, rfl⟩ | ⟨-, -, -, rfl⟩ <;> simp [raiseIllegalCommand, afterPut]
  | txfPut b =>
    rcases exec_txfPut_cases h with ⟨-, rfl⟩ | ⟨-, -, rfl⟩ | ⟨-, -, -, rfl⟩ <;> simp [raiseIllegalCommand, afterPut]
  | hwRxByte b =>
    rcases exec_hwRxByte_cases h with ⟨-, rfl⟩ | ⟨-, -, rfl⟩ | ⟨-, -, -, rfl⟩ <;> simp [raiseIllegalCommand, afterPut]
  | rxfGet =>
    rcases exec_rxfGet_cases h with ⟨-, rfl⟩ | ⟨-, -, rfl⟩ | ⟨-, -, -, rfl⟩ <;> simp [raiseIllegalCommand, afterGet]
  | txfGet =>
    rcases exec_txfGet_cases h with ⟨-, rfl⟩ | ⟨-, -, rfl⟩ | ⟨-, -, -, rfl⟩ <;> simp [raiseIllegalCommand, afterGet]
  | txDrain =>
    rcases exec_txDrain_cases h with ⟨-, rfl⟩ | ⟨-, -, rfl⟩ | ⟨-, -, -, rfl⟩ <;> simp [raiseIllegalCommand, afterGet]
  | tryReceiveFrame =>
    rcases exec_tryReceiveFrame_cases h with ⟨-, rfl⟩ | ⟨-, -, rfl⟩ | ⟨-, -, w, u, hw, rfl⟩
    · simp [raiseIllegalCommand]
    · simp
    · rw [takeWindow_frame hw]
      simp
  | buildAndEnqueueFrame sp an =>
    rcases exec_buildAndEnqueueFrame_cases h with ⟨-, rfl⟩ | ⟨-, -, rfl⟩ | ⟨-, -, u, hput, rfl⟩
    · simp [raiseIllegalCommand]
    · simp
    · rw [fifoPutAll_frame _ _ _ _ hput]
      simp

/-- Settles O41: by the access table only INIT and a poll write last_remote, INIT with 0, and a poll where it accepts a
frame, with the word it answers. -/
theorem lastRemoteOnlyByValidFrame : Obligations.LastRemoteOnlyByValidFrame := by
  intro i s t h hne
  obtain ⟨-, -, -, -, hlast, -⟩ := accessSummary i s t h
  rcases hlast hne with rfl | rfl
  · rcases exec_init_cases h with ⟨-, rfl⟩ | ⟨-, rfl⟩
    · exact absurd rfl hne
    · exact .inl ⟨rfl, rfl⟩
  · rcases exec_tryReceiveFrame_cases h with ⟨-, rfl⟩ | ⟨-, -, rfl⟩ | ⟨hp, -, w, u, hw, rfl⟩
    · exact absurd rfl hne
    · exact absurd rfl hne
    · have hframe := takeWindow_frame hw
      have hport : u.port = .F := by rw [hframe]; exact hp
      have hkept : u.lastRemote = s.lastRemote := by rw [hframe]
      by_cases hstart : w.start = startMarker
      · by_cases hsum : frameCrc u.cfg.crcStep w.start w.speed w.angle = w.hi ++ w.lo
        · rw [judgeWindow_of_valid w u hstart hsum]
          exact .inr ⟨rfl, respond_rspF_of_F _ _ _ hport⟩
        · rw [judgeWindow_of_wrong_checksum w u hstart hsum] at hne
          exact absurd hkept hne
      · rw [judgeWindow_of_wrong_start w u hstart] at hne
        exact absurd hkept hne

/-- Settles O49: by the access table only TX_DRAIN writes tx_wire, and it does so in its one case where the gate allows. -/
theorem transmitGate : Obligations.TransmitGate := by
  intro i s t hinv h hne
  obtain ⟨-, -, -, -, -, -, -, -, -, hwire⟩ := accessSummary i s t h
  obtain rfl := hwire hne
  rcases exec_txDrain_cases h with ⟨-, rfl⟩ | ⟨-, -, rfl⟩ | ⟨hp, hgate, -, rfl⟩
  · exact absurd rfl hne
  · exact absurd rfl hne
  · obtain ⟨hcts, hsome, hfull⟩ := (drainGate_eq_true s).1 hgate
    have hcons := contents_eq_cons (hinv.fifo_ok .tx) (hinv.cap_le .tx) ((readSize_pos_iff .tx s).2 hsome)
    exact ⟨rfl, hp, hcts, hfull, _, by simpa using hcons, rfl⟩

/-! ### Bytes of storage -/

theorem sameBytes_respond (s : State) (c : RspCode) (d : Word) : s.SameBytes (respond c d s) :=
  fun F a => respond_byteAt s c d F a

theorem State.SameBytes.trans {s t u : State} (h : s.SameBytes t) (h' : t.SameBytes u) : s.SameBytes u :=
  fun F a => (h' F a).trans (h F a)

theorem sameBytes_of_takeWindow {s u : State} {w : Window} (h : takeWindow s = .ok (w, u)) : s.SameBytes u := by
  rw [takeWindow_frame h]
  intro F a
  cases F <;> rfl

/-- The commands that put bytes into a FIFO (40_fifo.md R113, R117; 42_frame_link.md R170; 43_flow_control.md R195). -/
def putsBytes : Instr → Bool
  | .rxfPut _ | .txfPut _ | .hwRxByte _ | .buildAndEnqueueFrame _ _ => true
  | _ => false

/-- A command that puts nothing changes no byte of storage. -/
theorem sameBytes_of_exec {i : Instr} {s t : State} (hi : putsBytes i = false) (h : exec i s = .next t) :
    s.SameBytes t := by
  cases i with
  | rxfPut b => cases hi
  | txfPut b => cases hi
  | hwRxByte b => cases hi
  | buildAndEnqueueFrame sp an => cases hi
  | status => cases exec_status_next.symm.trans h; exact sameBytes_respond s _ _
  | rxfReadSize => cases exec_rxfReadSize_next.symm.trans h; exact sameBytes_respond s _ _
  | rxfWriteSpace => cases exec_rxfWriteSpace_next.symm.trans h; exact sameBytes_respond s _ _
  | txfReadSize => cases exec_txfReadSize_next.symm.trans h; exact sameBytes_respond s _ _
  | txfWriteSpace => cases exec_txfWriteSpace_next.symm.trans h; exact sameBytes_respond s _ _
  | rtsEval => cases exec_rtsEval_next.symm.trans h; exact fun F a => by simp
  | txIrqEval => cases exec_txIrqEval_next.symm.trans h; exact fun F a => by simp
  | lastRemote => rcases exec_lastRemote_cases h with ⟨-, rfl⟩ | ⟨-, rfl⟩ <;> exact sameBytes_respond s _ _
  | crcUpdate c b => rcases exec_crcUpdate_cases h with ⟨-, rfl⟩ | ⟨-, rfl⟩ <;> exact sameBytes_respond s _ _
  | init =>
    rcases exec_init_cases h with ⟨-, rfl⟩ | ⟨-, rfl⟩
    · exact sameBytes_respond s _ _
    · exact sameBytes_afterInit s
  | rxfGet =>
    rcases exec_rxfGet_cases h with ⟨-, rfl⟩ | ⟨-, -, rfl⟩ | ⟨-, -, -, rfl⟩
    · exact sameBytes_respond s _ _
    · exact sameBytes_respond s _ _
    · exact sameBytes_respond_afterGet .rx _ _ s
  | txfGet =>
    rcases exec_txfGet_cases h with ⟨-, rfl⟩ | ⟨-, -, rfl⟩ | ⟨-, -, -, rfl⟩
    · exact sameBytes_respond s _ _
    · exact fun F a => by simp
    · exact (sameBytes_afterGet .tx s).trans fun F a => by simp
  | txDrain =>
    rcases exec_txDrain_cases h with ⟨-, rfl⟩ | ⟨-, -, rfl⟩ | ⟨-, -, -, rfl⟩
    · exact sameBytes_respond s _ _
    · exact fun F a => by simp
    · exact (sameBytes_afterGet .tx s).trans fun F a => by simp
  | tryReceiveFrame =>
    rcases exec_tryReceiveFrame_cases h with ⟨-, rfl⟩ | ⟨-, -, rfl⟩ | ⟨-, -, w, u, hw, rfl⟩
    · exact sameBytes_respond s _ _
    · exact fun F a => by simp
    · exact (sameBytes_of_takeWindow hw).trans (sameBytes_judgeWindow w u)

/-- A byte that a put changes is the one at the write cursor. -/
theorem eq_of_byteAt_afterPut_ne {F G : FifoId} {b : Byte} {s : State} {a : Nat}
    (h : (afterPut F b s).byteAt G a ≠ s.byteAt G a) : G = F ∧ a = (s.fifo F).wr.toNat := by
  by_contra hne
  exact h (byteAt_afterPut F G b s a fun heq => hne (Prod.mk.inj heq))

/-- A row of puts writes its own FIFO only. -/
theorem byteAt_fifoPutAll_other {F G : FifoId} {bs : List Byte} {s u : State} (hG : G ≠ F)
    (h : fifoPutAll F bs s = .ok u) (a : Nat) : u.byteAt G a = s.byteAt G a := by
  rw [fifoPutAll_frame F bs s u h, State.byteAt, State.byteAt, setFifo_fifo_other _ _ _ _ hG]

/-- A byte that a row of puts changes is one of those from the write cursor on, modulo the capacity. -/
theorem exists_of_byteAt_fifoPutAll_ne {F G : FifoId} {bs : List Byte} {s u : State} {a : Nat} (hcap : s.cap F ≤ 255)
    (hput : fifoPutAll F bs s = .ok u) (h : u.byteAt G a ≠ s.byteAt G a) :
    G = F ∧ ∃ k < bs.length, a = ((s.fifo F).wr.toNat + k) % s.cap F := by
  obtain rfl : G = F := by_contra fun hG => h (byteAt_fifoPutAll_other hG hput a)
  by_contra hnone
  exact h (fifoPutAll_bytes G bs s u hcap hput a fun k hk heq => hnone ⟨rfl, k, hk, heq⟩)

/-- Settles O57: only the four putting commands change storage, each where its puts write. -/
theorem storageWrites : Obligations.StorageWrites := by
  intro i s t hlegal h F a hne
  have hcap : s.cap .tx ≤ 255 := by rw [cap_tx]; omega
  cases i with
  | rxfPut b =>
    rcases exec_rxfPut_cases h with ⟨-, rfl⟩ | ⟨-, -, rfl⟩ | ⟨-, -, -, rfl⟩
    · exact absurd (respond_byteAt s _ _ F a) hne
    · exact absurd (respond_byteAt s _ _ F a) hne
    · rw [respond_byteAt] at hne
      obtain ⟨hF, ha⟩ := eq_of_byteAt_afterPut_ne hne
      exact .inl ⟨hF, .inl ⟨b, rfl⟩, ha⟩
  | hwRxByte b =>
    rcases exec_hwRxByte_cases h with ⟨-, rfl⟩ | ⟨-, -, rfl⟩ | ⟨-, -, -, rfl⟩
    · exact absurd (respond_byteAt s _ _ F a) hne
    · rw [respond_byteAt, rtsEval_byteAt] at hne
      exact absurd rfl hne
    · rw [respond_byteAt, rtsEval_byteAt] at hne
      obtain ⟨hF, ha⟩ := eq_of_byteAt_afterPut_ne hne
      exact .inl ⟨hF, .inr ⟨b, rfl⟩, ha⟩
  | txfPut b =>
    rcases exec_txfPut_cases h with ⟨-, rfl⟩ | ⟨-, -, rfl⟩ | ⟨-, -, -, rfl⟩
    · exact absurd (respond_byteAt s _ _ F a) hne
    · exact absurd (respond_byteAt s _ _ F a) hne
    · rw [respond_byteAt] at hne
      obtain ⟨hF, ha⟩ := eq_of_byteAt_afterPut_ne hne
      exact .inr (.inl ⟨hF, ⟨b, rfl⟩, ha⟩)
  | buildAndEnqueueFrame sp an =>
    rcases exec_buildAndEnqueueFrame_cases h with ⟨-, rfl⟩ | ⟨-, -, rfl⟩ | ⟨-, -, u, hput, rfl⟩
    · exact absurd (respond_byteAt s _ _ F a) hne
    · rw [respond_byteAt, txIrqEval_byteAt] at hne
      exact absurd rfl hne
    · rw [respond_byteAt, txIrqEval_byteAt] at hne
      obtain ⟨hF, hk⟩ := exists_of_byteAt_fifoPutAll_ne hcap hput hne
      exact .inr (.inr ⟨hF, ⟨sp, an, rfl⟩, hk⟩)
  | _ => exact absurd (sameBytes_of_exec rfl h F a) hne

/-! ### Roles of the ports -/

/-- A FIFO that a command left as it was stores the same bytes. -/
theorem contents_of_fifo_kept {i : Instr} {s t : State} (h : exec i s = .next t) {F : FifoId}
    (hF : t.fifo F = s.fifo F) : t.contents F = s.contents F := by
  obtain ⟨-, -, hcfg, -⟩ := everyCommandAnswersOnce i s t h
  exact contents_congr hF (by rw [State.cap, State.cap, hcfg])

/-- A command that is not allowed on its port writes no FIFO. -/
theorem allowed_of_fifo_changed {i : Instr} {s t : State} (h : exec i s = .next t) {F : FifoId}
    (hF : t.fifo F ≠ s.fifo F) : allowedOn i s.port = true := by
  rcases exec_responds h with ⟨-, rfl⟩ | ⟨hallowed, -⟩
  · exact absurd (respond_fifo s _ _ F) hF
  · exact hallowed

/-- A get takes one byte from the front. -/
theorem exists_front_of_afterGet {F : FifoId} {s : State} (hinv : s.Inv) (h : (s.fifo F).count ≠ 0#8) :
    ∃ l, s.contents F = l ++ (afterGet F s).contents F :=
  ⟨[s.byteAt F (s.fifo F).rd.toNat],
    contents_eq_cons (hinv.fifo_ok F) (hinv.cap_le F) ((readSize_pos_iff F s).2 h)⟩

/-- A put adds one byte at the back. -/
theorem exists_back_of_afterPut {F : FifoId} {s : State} (b : Byte) (hinv : s.Inv) (h : readSize F s ≠ s.cap F) :
    ∃ l, (afterPut F b s).contents F = s.contents F ++ l :=
  ⟨[b], contents_afterPut b (hinv.fifo_ok F) (hinv.cap_le F) ((hinv.fifo_ok F).count_le.lt_of_ne h)⟩

/-- On port F only RXF_GET and a poll write RX, and both take from its front. -/
theorem rx_loses_on_F {i : Instr} {s t : State} (hinv : s.Inv) (hi : i ≠ .init) (hp : s.port = .F)
    (h : exec i s = .next t) : ∃ l, s.contents .rx = l ++ t.contents .rx := by
  by_cases hkept : t.rx = s.rx
  · exact ⟨[], (contents_of_fifo_kept h (F := .rx) hkept).symm⟩
  obtain ⟨hrx, -⟩ := accessSummary i s t h
  have hallowed := allowed_of_fifo_changed h (F := .rx) hkept
  rw [hp] at hallowed
  rcases hrx hkept with rfl | ⟨b, rfl⟩ | rfl | rfl | ⟨b, rfl⟩
  · exact absurd rfl hi
  · cases hallowed
  · rcases exec_rxfGet_cases h with ⟨-, rfl⟩ | ⟨-, -, rfl⟩ | ⟨-, hsome, -, rfl⟩
    · exact absurd rfl hkept
    · exact absurd rfl hkept
    · rw [respond_contents]
      exact exists_front_of_afterGet hinv hsome
  · obtain ⟨taken, htaken, -⟩ := (zeroOrFiveBytes s t hinv).1 h
    exact ⟨taken, htaken⟩
  · cases hallowed

/-- On port F only TXF_PUT and a send write TX, and both add at its back. -/
theorem tx_gains_on_F {i : Instr} {s t : State} (hinv : s.Inv) (hi : i ≠ .init) (hp : s.port = .F)
    (h : exec i s = .next t) : ∃ l, t.contents .tx = s.contents .tx ++ l := by
  by_cases hkept : t.tx = s.tx
  · exact ⟨[], (contents_of_fifo_kept h (F := .tx) hkept).trans (List.append_nil _).symm⟩
  obtain ⟨-, htx, -⟩ := accessSummary i s t h
  have hallowed := allowed_of_fifo_changed h (F := .tx) hkept
  rw [hp] at hallowed
  rcases htx hkept with rfl | ⟨b, rfl⟩ | rfl | ⟨sp, an, rfl⟩ | rfl
  · exact absurd rfl hi
  · rcases exec_txfPut_cases h with ⟨-, rfl⟩ | ⟨-, -, rfl⟩ | ⟨-, hroom, -, rfl⟩
    · exact absurd rfl hkept
    · exact absurd rfl hkept
    · rw [respond_contents]
      exact exists_back_of_afterPut b hinv hroom
  · cases hallowed
  · obtain ⟨added, hadded, -⟩ := (zeroOrFiveBytes s t hinv).2 sp an h
    exact ⟨added, hadded⟩
  · cases hallowed

/-- On port I only RXF_PUT and HW_RX_BYTE write RX, and both add at its back. -/
theorem rx_gains_on_I {i : Instr} {s t : State} (hinv : s.Inv) (hi : i ≠ .init) (hp : s.port = .I)
    (h : exec i s = .next t) : ∃ l, t.contents .rx = s.contents .rx ++ l := by
  by_cases hkept : t.rx = s.rx
  · exact ⟨[], (contents_of_fifo_kept h (F := .rx) hkept).trans (List.append_nil _).symm⟩
  obtain ⟨hrx, -⟩ := accessSummary i s t h
  have hallowed := allowed_of_fifo_changed h (F := .rx) hkept
  rw [hp] at hallowed
  rcases hrx hkept with rfl | ⟨b, rfl⟩ | rfl | rfl | ⟨b, rfl⟩
  · exact absurd rfl hi
  · rcases exec_rxfPut_cases h with ⟨-, rfl⟩ | ⟨-, -, rfl⟩ | ⟨-, hroom, -, rfl⟩
    · exact absurd rfl hkept
    · exact absurd rfl hkept
    · rw [respond_contents]
      exact exists_back_of_afterPut b hinv hroom
  · cases hallowed
  · cases hallowed
  · rcases exec_hwRxByte_cases h with ⟨-, rfl⟩ | ⟨-, -, rfl⟩ | ⟨-, hroom, -, rfl⟩
    · exact absurd rfl hkept
    · exact absurd rfl hkept
    · rw [respond_contents, rtsEval_contents]
      exact exists_back_of_afterPut b hinv hroom

/-- On port I only TXF_GET and TX_DRAIN write TX, and both take from its front. -/
theorem tx_loses_on_I {i : Instr} {s t : State} (hinv : s.Inv) (hi : i ≠ .init) (hp : s.port = .I)
    (h : exec i s = .next t) : ∃ l, s.contents .tx = l ++ t.contents .tx := by
  by_cases hkept : t.tx = s.tx
  · exact ⟨[], (contents_of_fifo_kept h (F := .tx) hkept).symm⟩
  obtain ⟨-, htx, -⟩ := accessSummary i s t h
  have hallowed := allowed_of_fifo_changed h (F := .tx) hkept
  rw [hp] at hallowed
  rcases htx hkept with rfl | ⟨b, rfl⟩ | rfl | ⟨sp, an, rfl⟩ | rfl
  · exact absurd rfl hi
  · cases hallowed
  · rcases exec_txfGet_cases h with ⟨-, rfl⟩ | ⟨-, -, rfl⟩ | ⟨-, hsome, -, rfl⟩
    · exact absurd rfl hkept
    · exact absurd rfl hkept
    · rw [respond_contents, txEmptyClear_contents]
      exact exists_front_of_afterGet hinv hsome
  · cases hallowed
  · rcases exec_txDrain_cases h with ⟨-, rfl⟩ | ⟨-, -, rfl⟩ | ⟨-, hgate, -, rfl⟩
    · exact absurd rfl hkept
    · exact absurd rfl hkept
    · rw [respond_contents, txEmptyClear_contents, sendOnWire_contents]
      exact exists_front_of_afterGet hinv ((drainGate_eq_true s).1 hgate).2.1

/-- Settles O58: the access table names who writes each FIFO, and the ports column leaves two of them on each port. -/
theorem roleSeparation : Obligations.RoleSeparation :=
  fun _ _ _ hinv hi h =>
    ⟨fun hp => ⟨rx_loses_on_F hinv hi hp h, tx_gains_on_F hinv hi hp h⟩,
      fun hp => ⟨rx_gains_on_I hinv hi hp h, tx_loses_on_I hinv hi hp h⟩⟩

/-! ### Commands repeated -/

theorem exec_lastRemote_of_F {s : State} (hp : s.port = .F) :
    exec .lastRemote s = .next (respond .OK s.lastRemote s) :=
  onAllowedPort_of_allowed _ (by rw [hp]; rfl)

/-- Settles O17: LAST_REMOTE does no more than respond. -/
theorem lastRemoteCommand : Obligations.LastRemoteCommand :=
  fun s hp => ⟨_, exec_lastRemote_of_F hp, onlyResult_respond s _ _, answers_respond s s _ _ rfl rfl rfl rfl⟩

/-- A command that is refused is refused again. -/
theorem refusal_repeats {i : Instr} {s : State} (h : allowedOn i s.port = false) :
    ∃ c d, exec i s = .next (respond c d s) ∧ exec i (respond c d s) = .next (respond c d (respond c d s)) :=
  ⟨_, _, exec_of_not_allowed i s h, exec_of_not_allowed i _ h⟩

/-- A query does no more than respond, and what it answers does not depend on results: it answers the same again. -/
theorem query_repeats {i : Instr} (hi : i = .rxfReadSize ∨ i = .rxfWriteSpace ∨ i = .txfReadSize ∨ i = .txfWriteSpace ∨
    i = .status ∨ i = .lastRemote ∨ ∃ c b, i = .crcUpdate c b) (s : State) :
    ∃ c d, exec i s = .next (respond c d s) ∧ exec i (respond c d s) = .next (respond c d (respond c d s)) := by
  rcases hi with rfl | rfl | rfl | rfl | rfl | rfl | ⟨c, b, rfl⟩
  · exact ⟨_, _, exec_rxfReadSize_next, exec_rxfReadSize_next⟩
  · exact ⟨_, _, exec_rxfWriteSpace_next, exec_rxfWriteSpace_next⟩
  · exact ⟨_, _, exec_txfReadSize_next, exec_txfReadSize_next⟩
  · exact ⟨_, _, exec_txfWriteSpace_next, exec_txfWriteSpace_next⟩
  · exact ⟨_, _, exec_status_next, exec_status_next⟩
  · cases hp : s.port with
    | F => exact ⟨_, _, exec_lastRemote_of_F hp, exec_lastRemote_of_F hp⟩
    | I => exact refusal_repeats (by rw [hp]; rfl)
  · cases hp : s.port with
    | F => exact ⟨_, _, exec_crcUpdate_of_F hp, exec_crcUpdate_of_F hp⟩
    | I => exact refusal_repeats (by rw [hp]; rfl)

theorem rtsNext_idem (c : Config) (ws : Int) (r : Bool) : rtsNext c ws (rtsNext c ws r) = rtsNext c ws r := by
  simp only [rtsNext]
  split_ifs <;> rfl

/-- An evaluation of rts at the same free space changes nothing more (43_flow_control.md R190). -/
theorem rtsEval_idem (s : State) : rtsEval (rtsEval s) = rtsEval s := by
  have hidem := rtsNext_idem s.cfg (writeSpace .rx s) s.rts
  rw [rtsEval, rtsEval_writeSpace]
  simp only [rtsEval, hidem]

/-- Settles O59: `query_repeats`, and the two evaluations read nothing they write but rts, which then stays. -/
theorem queriesAndIdempotentWrites : Obligations.QueriesAndIdempotentWrites := by
  refine ⟨fun i s t u hi ht hu => ?_, fun i s t u hi ht hu => ?_⟩
  · obtain ⟨c, d, hs, hagain⟩ := query_repeats hi s
    cases hs.symm.trans ht
    cases hagain.symm.trans hu
    exact ⟨rfl, (respond_rsp_self (respond c d s) c d).trans (respond_rsp_self s c d).symm⟩
  · rcases hi with rfl | rfl
    · cases exec_rtsEval_next.symm.trans ht
      cases exec_rtsEval_next.symm.trans hu
      have helements := congrArg State.elements (rtsEval_idem s)
      exact helements
    · cases exec_txIrqEval_next.symm.trans ht
      cases exec_txIrqEval_next.symm.trans hu
      rfl

end Sys2Proof.Machine

/-! PROOFS. The CRC steps as linear maps (41_crc16.md R142, R143, R147), and the range of the parameter CRC_STEP
(R141). -/

namespace Sys2Proof.Machine

/-! ### Linearity -/

theorem xor_xor_xor_comm (a b c d : Half) : (a ^^^ b) ^^^ (c ^^^ d) = (a ^^^ c) ^^^ (b ^^^ d) := by
  ac_rfl

/-- Adding a polynomial on a condition is linear in the condition and the value together. -/
theorem ite_xor_linear (poly u v : Half) (a b : Bool) :
    (if (a ^^ b) = true then (u ^^^ v) ^^^ poly else u ^^^ v) =
      (if a = true then u ^^^ poly else u) ^^^ (if b = true then v ^^^ poly else v) := by
  cases a <;> cases b
  · rfl
  · exact BitVec.xor_assoc u v poly
  · change (u ^^^ v) ^^^ poly = (u ^^^ poly) ^^^ v
    ac_rfl
  · change u ^^^ v = (u ^^^ poly) ^^^ (v ^^^ poly)
    rw [xor_xor_xor_comm, BitVec.xor_self, BitVec.xor_zero]

theorem crcRoundMsb_xor (poly x y : Half) :
    crcRoundMsb poly (x ^^^ y) = crcRoundMsb poly x ^^^ crcRoundMsb poly y := by
  simp only [crcRoundMsb, BitVec.getLsbD_xor, BitVec.shiftLeft_xor_distrib]
  exact ite_xor_linear poly _ _ _ _

theorem crcRoundLsb_xor (poly x y : Half) :
    crcRoundLsb poly (x ^^^ y) = crcRoundLsb poly x ^^^ crcRoundLsb poly y := by
  simp only [crcRoundLsb, BitVec.getLsbD_xor, BitVec.ushiftRight_xor_distrib]
  exact ite_xor_linear poly _ _ _ _

theorem rounds_xor {f : Half → Half} (hf : ∀ x y, f (x ^^^ y) = f x ^^^ f y) (n : Nat) (x y : Half) :
    rounds f n (x ^^^ y) = rounds f n x ^^^ rounds f n y := by
  induction n generalizing x y with
  | zero => rfl
  | succ n ih => rw [rounds, hf, ih]; rfl

/-- Where the MSB-first step adds the byte: to the register's high byte (41_crc16.md R142). -/
def atHigh (b : Byte) : Half := b.setWidth 16 <<< 8

/-- Where the reflected step adds the byte: to the register's low byte (41_crc16.md R143). -/
def atLow (b : Byte) : Half := b.setWidth 16

theorem atHigh_xor (a b : Byte) : atHigh (a ^^^ b) = atHigh a ^^^ atHigh b := by
  rw [atHigh, BitVec.setWidth_xor, BitVec.shiftLeft_xor_distrib]
  rfl

theorem atLow_xor (a b : Byte) : atLow (a ^^^ b) = atLow a ^^^ atLow b :=
  BitVec.setWidth_xor

theorem crcStepMsb_eq (poly c : Half) (b : Byte) :
    crcStepMsb poly c b = rounds (crcRoundMsb poly) 8 (c ^^^ atHigh b) := rfl

theorem crcStepLsb_eq (poly c : Half) (b : Byte) :
    crcStepLsb poly c b = rounds (crcRoundLsb poly) 8 (c ^^^ atLow b) := rfl

theorem crcStepMsb_xor (poly c d : Half) (a b : Byte) :
    crcStepMsb poly (c ^^^ d) (a ^^^ b) = crcStepMsb poly c a ^^^ crcStepMsb poly d b := by
  simp only [crcStepMsb_eq, atHigh_xor, xor_xor_xor_comm c d, rounds_xor (crcRoundMsb_xor poly)]

theorem crcStepLsb_xor (poly c d : Half) (a b : Byte) :
    crcStepLsb poly (c ^^^ d) (a ^^^ b) = crcStepLsb poly c a ^^^ crcStepLsb poly d b := by
  simp only [crcStepLsb_eq, atLow_xor, xor_xor_xor_comm c d, rounds_xor (crcRoundLsb_xor poly)]

/-- Settles O30: every round is linear, and so is the addition of the byte before the rounds. -/
theorem polynomialStepsLinear : Obligations.PolynomialStepsLinear :=
  fun poly c d a b => ⟨crcStepMsb_xor poly c d a b, crcStepLsb_xor poly c d a b⟩

/-! ### Rounds are one-to-one -/

/-- A linear map that sends only 0 to 0 is one-to-one. -/
theorem injective_of_linear {f : Half → Half} (hf : ∀ x y, f (x ^^^ y) = f x ^^^ f y)
    (h0 : ∀ x, f x = 0#16 → x = 0#16) : Function.Injective f := fun x y h => by
  apply BitVec.xor_eq_zero_iff.1
  apply h0
  rw [hf, h, BitVec.xor_self]

/-- The bit shifted out is seen again in bit 0, where the polynomial is 1 and the shift leaves 0. -/
theorem crcRoundMsb_injective {poly : Half} (hpoly : poly.getLsbD 0 = true) :
    Function.Injective (crcRoundMsb poly) := by
  refine injective_of_linear (crcRoundMsb_xor poly) fun x h => ?_
  rw [crcRoundMsb] at h
  split at h
  · have hbit : (x <<< 1 ^^^ poly).getLsbD 0 = false := by rw [h]; rfl
    rw [BitVec.getLsbD_xor, hpoly] at hbit
    simp at hbit
  · rename_i htop
    apply BitVec.eq_of_getLsbD_eq
    intro i hi
    have hbit : (x <<< 1).getLsbD (i + 1) = false := by rw [h, BitVec.getLsbD_zero]
    rw [BitVec.getLsbD_zero]
    by_cases h15 : i = 15
    · rw [h15]
      exact Bool.eq_false_iff.2 htop
    · simpa [BitVec.getLsbD_shiftLeft, show i + 1 < 16 by omega, hi] using hbit

/-- The bit shifted out is seen again in bit 15. -/
theorem crcRoundLsb_injective {poly : Half} (hpoly : poly.getLsbD 15 = true) :
    Function.Injective (crcRoundLsb poly) := by
  refine injective_of_linear (crcRoundLsb_xor poly) fun x h => ?_
  rw [crcRoundLsb] at h
  split at h
  · have hbit : (x >>> 1 ^^^ poly).getLsbD 15 = false := by rw [h]; rfl
    rw [BitVec.getLsbD_xor, hpoly] at hbit
    simp at hbit
  · rename_i hlow
    apply BitVec.eq_of_getLsbD_eq
    intro i hi
    have hbit : (x >>> 1).getLsbD (i - 1) = false := by rw [h, BitVec.getLsbD_zero]
    rw [BitVec.getLsbD_zero]
    by_cases h0 : i = 0
    · rw [h0]
      exact Bool.eq_false_iff.2 hlow
    · simpa [show 1 + (i - 1) = i by omega, hi] using hbit

theorem rounds_injective {f : Half → Half} (hf : Function.Injective f) (n : Nat) : Function.Injective (rounds f n) := by
  induction n with
  | zero => exact fun _ _ h => h
  | succ n ih => exact fun _ _ h => hf (ih h)

/-! ### Two steps are one-to-one in their two bytes -/

/-- Two steps tell two bytes from two others where the first step, from 0, makes of no byte but 0 a register that the
second byte could undo. -/
theorem two_steps_inj {step : Half → Byte → Half} {rnds : Half → Half} {place : Byte → Half}
    (hstep : ∀ c b, step c b = rnds (c ^^^ place b)) (hrnds : Function.Injective rnds)
    (hlinear : ∀ c d a b, step (c ^^^ d) (a ^^^ b) = step c a ^^^ step d b)
    (hplace : ∀ a b, place (a ^^^ b) = place a ^^^ place b) (hplace0 : ∀ a, place a = 0#16 → a = 0#8)
    (hundo : ∀ d e, step 0#16 d = place e → d = 0#8) {c : Half} {s a s' a' : Byte}
    (h : step (step c s) a = step (step c s') a') : s = s' ∧ a = a' := by
  rw [hstep (step c s), hstep (step c s')] at h
  have hsum := hrnds h
  have hs : s = s' := by
    apply BitVec.xor_eq_zero_iff.1
    apply hundo _ (a ^^^ a')
    calc step 0#16 (s ^^^ s') = step (c ^^^ c) (s ^^^ s') := by rw [BitVec.xor_self]
      _ = step c s ^^^ step c s' := hlinear c c s s'
      _ = place a ^^^ place a' := by
        apply BitVec.xor_eq_zero_iff.1
        rw [xor_xor_xor_comm, hsum, BitVec.xor_self]
      _ = place (a ^^^ a') := (hplace a a').symm
  refine ⟨hs, ?_⟩
  apply BitVec.xor_eq_zero_iff.1
  apply hplace0
  rw [hs] at hsum
  rw [hplace, (BitVec.xor_right_inj _).1 hsum, BitVec.xor_self]

/-- From register 0 the default step makes a low byte of 0 of the byte 0 only. -/
theorem default_step_low_byte : ∀ d : Byte, (crcStepMsb 0x1021#16 0#16 d).setWidth 8 = 0#8 → d = 0#8 := by decide

/-- From register 0 the reflected step of 0xA001 makes a high byte of 0 of the byte 0 only. -/
theorem reflected_step_high_byte : ∀ d : Byte, crcStepLsb 0xA001#16 0#16 d >>> 8 = 0#16 → d = 0#8 := by decide

theorem atHigh_low_byte : ∀ b : Byte, (atHigh b).setWidth 8 = 0#8 := by decide

theorem atLow_high_byte : ∀ b : Byte, atLow b >>> 8 = 0#16 := by decide

theorem frameCrc_inj {c : CrcStep} (hc : c = .msbFirst 0x1021#16 ∨ c = .reflected 0xA001#16) {b0 s a s' a' : Byte}
    (h : frameCrc c b0 s a = frameCrc c b0 s' a') : s = s' ∧ a = a' := by
  rcases hc with rfl | rfl
  · exact two_steps_inj (step := crcStepMsb 0x1021#16) (crcStepMsb_eq _)
      (rounds_injective (crcRoundMsb_injective (by decide)) 8) (crcStepMsb_xor _) atHigh_xor (by decide)
      (fun d e hd => default_step_low_byte d (by rw [hd, atHigh_low_byte])) h
  · exact two_steps_inj (step := crcStepLsb 0xA001#16) (crcStepLsb_eq _)
      (rounds_injective (crcRoundLsb_injective (by decide)) 8) (crcStepLsb_xor _) atLow_xor (by decide)
      (fun d e hd => reflected_step_high_byte d (by rw [hd, atLow_high_byte])) h

theorem xor_bit_ne (b : Byte) {k : Nat} (hk : k < 8) : b ^^^ (1#8 <<< k) ≠ b := by
  have hbit : ∀ k < 8, 1#8 <<< k ≠ 0#8 := by decide
  exact fun h => hbit k hk ((BitVec.xor_right_inj b).1 (h.trans BitVec.xor_zero.symm))

/-- Settles O31: FrameCRC is two steps after the one over the start byte (`two_steps_inj`), and a byte with one bit
inverted is another byte. -/
theorem frameCrcOneToOne : Obligations.FrameCrcOneToOne :=
  fun _ hc => ⟨fun _ _ _ _ h => frameCrc_inj hc h,
    fun s a _ hk => ⟨fun h => xor_bit_ne s hk (frameCrc_inj hc h).1, fun h => xor_bit_ne a hk (frameCrc_inj hc h).2⟩⟩

/-! ### The parameter CRC_STEP -/

theorem lookup_map_of_mem {α β : Type} [BEq α] [LawfulBEq α] (g : α → β) {l : List α} {x : α} (h : x ∈ l) :
    (l.map fun y => (y, g y)).lookup x = some (g x) := by
  induction l with
  | nil => cases h
  | cons y l ih =>
    rw [List.map_cons, List.lookup_cons]
    by_cases hxy : x = y
    · simp [hxy]
    · rw [beq_false_of_ne hxy]
      exact ih ((List.mem_cons.1 h).resolve_left hxy)

/-- Settles O32: the table that lists the function's value at every register and byte. -/
theorem everyFunctionIsACrcStep : Obligations.EveryFunctionIsACrcStep := by
  intro f
  refine ⟨.table ((Finset.univ : Finset (Half × Byte)).toList.map fun p => (p, f p.1 p.2)), fun crc b => ?_⟩
  have hmem : (crc, b) ∈ (Finset.univ : Finset (Half × Byte)).toList := by simp
  rw [crcStep, lookup_map_of_mem (fun p : Half × Byte => f p.1 p.2) hmem]
  rfl

end Sys2Proof.Machine

/-! PROOFS. The frame codec (42_frame_link.md): the poll that finds a window (R160), silence (R167), the frame sent
(R170), the round trip (R172) and the corrupted frame (41_crc16.md R148). -/

namespace Sys2Proof.Machine

/-! ### A poll that finds a window -/

/-- Whatever the verdict, rts is evaluated once (42_frame_link.md R165). -/
theorem judgeWindow_rts (w : Window) (s : State) : (judgeWindow w s).rts = rtsNext s.cfg (writeSpace .rx s) s.rts := by
  rw [judgeWindow]
  split
  · rfl
  · split <;> rfl

/-- Settles O35: the poll takes the window (`exec_tryReceiveFrame_of_contents`), and the three verdicts are its three
clauses. -/
theorem windowPoll : Obligations.WindowPoll := by
  intro s b0 b1 b2 b3 b4 rest hp hok hcap hcont
  obtain ⟨u, hexec, -, hrest, hframe⟩ := exec_tryReceiveFrame_of_contents hp hok hcap hcont
  obtain ⟨rd, count, rfl⟩ : ∃ rd count, u = { s with rx := { s.rx with rd := rd, count := count } } := ⟨_, _, hframe⟩
  have hspace : writeSpace .rx { s with rx := { s.rx with rd := rd, count := count } } =
      (s.cap .rx : Int) - (rest.length : Int) := by
    rw [← hrest, contents_length]
    rfl
  refine ⟨_, hexec, (judgeWindow_contents _ _ _).trans hrest, ?_, ?_, fun hstart => ?_, fun hstart hsum => ?_,
    fun hstart hsum => ?_⟩
  · exact State.SameBytes.trans (fun F a => by cases F <;> rfl) (sameBytes_judgeWindow _ _)
  · rw [judgeWindow_rts, hspace]
  · rw [judgeWindow_of_wrong_start _ _ hstart]
    exact ⟨answers_respond s _ _ _ rfl rfl rfl rfl, rfl⟩
  · rw [judgeWindow_of_wrong_checksum _ _ hstart (by rw [← crcOfBytes_eq_append]; exact hsum)]
    exact ⟨answers_respond s _ _ _ rfl rfl rfl rfl, rfl⟩
  · rw [judgeWindow_of_valid _ _ hstart (by rw [← crcOfBytes_eq_append]; exact hsum)]
    exact ⟨answers_respond s _ _ _ rfl rfl rfl rfl, rfl⟩

/-- Settles O40: two bytes that are not the halves of a CRC do not make up that CRC, so the window's second verdict
stands. -/
theorem corruptChecksumRejected : Obligations.CorruptChecksumRejected := by
  intro s sp an hi lo rest hp hok hcap hcont hne
  obtain ⟨t, hexec, -, -, -, -, hwrong, -⟩ := windowPoll s _ _ _ _ _ _ hp hok hcap hcont
  have hsum : frameCrc s.cfg.crcStep 0xAA#8 sp an ≠ crcOfBytes hi lo := fun heq => by
    rw [← crcOfBytes_halves (frameCrc s.cfg.crcStep 0xAA#8 sp an)] at heq
    obtain ⟨hhi, hlo⟩ := crcOfBytes_inj _ _ _ _ heq
    exact hne (by rw [← hhi, ← hlo]; rfl)
  obtain ⟨hans, hframe⟩ := hwrong rfl hsum
  exact ⟨t, hexec, hans, by rw [hframe], by rw [hframe], by rw [hframe], by rw [hframe]⟩

/-! ### Silence -/

/-- The link is LOCAL exactly once the silence count stands at its ceiling: what a row of short polls keeps. -/
def State.LocalAtCeiling (s : State) : Prop := s.mode = .LOCAL ↔ s.cfg.silenceCeil ≤ s.silenceCount.toNat

/-- One short poll: the count goes up to the ceiling, and the link is LOCAL exactly at the ceiling if it was so. -/
theorem localAtCeiling_of_short_poll {s t : State} (hp : s.port = .F) (hceil : s.cfg.silenceCeil ≤ 255)
    (hshort : readSize .rx s < 5) (hlocal : s.LocalAtCeiling) (hcfg : t.cfg = s.cfg)
    (h : exec .tryReceiveFrame s = .next t) : t.LocalAtCeiling := by
  obtain ⟨hcount, hmode⟩ := link_of_short_poll hp hceil hshort h
  rw [State.LocalAtCeiling] at hlocal ⊢
  rw [hcfg, hcount, hmode]
  split
  · simp only [true_iff]; omega
  · rw [hlocal]; omega

theorem short_polls {n : Nat} {s : State} (hp : s.port = .F) (hceil : s.cfg.silenceCeil ≤ 255)
    (hshort : readSize .rx s < 5) (hlocal : s.LocalAtCeiling) (hle : s.silenceCount.toNat ≤ s.cfg.silenceCeil) :
    ∃ t, execTimes .tryReceiveFrame n s = .next t ∧ t.cfg = s.cfg ∧
      t.silenceCount.toNat = min (s.silenceCount.toNat + n) s.cfg.silenceCeil ∧ t.LocalAtCeiling ∧
      t.contents .rx = s.contents .rx ∧ t.lastRemote = s.lastRemote := by
  induction n generalizing s with
  | zero => exact ⟨s, rfl, rfl, by omega, hlocal, rfl, rfl⟩
  | succ n ih =>
    obtain ⟨u, hexec, -, hframe, hcount, -, -, hcont, -⟩ := shortPoll s hp hshort hceil
    have hcfg : u.cfg = s.cfg := by rw [hframe]
    have hport : u.port = .F := by rw [hframe]; exact hp
    have hlast : u.lastRemote = s.lastRemote := by rw [hframe]
    have hsize : readSize .rx u < 5 := by rwa [← contents_length, hcont, contents_length]
    obtain ⟨t, htimes, hcfg', hcount', hlocal', hcont', hlast'⟩ := ih hport (by rwa [hcfg]) hsize
      (localAtCeiling_of_short_poll hp hceil hshort hlocal hcfg hexec) (by rw [hcfg, hcount]; omega)
    refine ⟨t, ?_, hcfg'.trans hcfg, ?_, hlocal', hcont'.trans hcont, hlast'.trans hlast⟩
    · rw [execTimes, hexec]
      exact htimes
    · rw [hcount', hcfg, hcount]
      omega

/-- Settles O37: in REMOTE the invariant keeps the count below the ceiling, and the polls bring it there
(`short_polls`). -/
theorem silenceDemotesOnTime : Obligations.SilenceDemotesOnTime := by
  intro s n hinv hp hremote hshort
  have hlegal := hinv.legal
  have hbelow := hinv.remote_below hremote
  have hlocal : s.LocalAtCeiling := by
    rw [State.LocalAtCeiling, hremote]
    exact ⟨nofun, fun h => absurd hbelow (not_lt.2 h)⟩
  obtain ⟨t, htimes, hcfg, hcount, hlocal', hcont, hlast⟩ := short_polls (n := n) hp (by omega) hshort hlocal hbelow.le
  refine ⟨t, htimes, hcount, ?_, hcont, hlast⟩
  rw [State.LocalAtCeiling, hcfg, hcount] at hlocal'
  rw [hlocal']
  omega

/-! ### A frame sent -/

theorem exec_buildAndEnqueueFrame_of_short {sp an : Byte} {s : State} (hp : s.port = .F) (h : writeSpace .tx s < 5) :
    exec (.buildAndEnqueueFrame sp an) s = .next (respond .NONE 0#32 (txIrqEval s)) :=
  (onAllowedPort_of_allowed _ (by rw [hp]; rfl)).trans (if_pos h)

theorem exec_buildAndEnqueueFrame_of_room {sp an : Byte} {s u : State} (hp : s.port = .F) (h : 5 ≤ writeSpace .tx s)
    (hput : fifoPutAll .tx (frameBytes s.cfg.crcStep sp an) s = .ok u) :
    exec (.buildAndEnqueueFrame sp an) s = .next (respond .OK 0#32 (txIrqEval u)) := by
  have hlong : ¬ writeSpace .tx s < (frameLength : Int) := Int.not_lt.2 h
  refine (onAllowedPort_of_allowed _ (by rw [hp]; rfl)).trans ?_
  rw [if_neg hlong, hput]

/-- Settles O38: with less than 5 bytes free only tx_irq_en is evaluated, and otherwise the row of five puts fits. -/
theorem buildFrameCommand : Obligations.BuildFrameCommand := by
  intro sp an s hp hok hcap
  rcases lt_or_ge (writeSpace .tx s) 5 with hshort | hroom
  · exact ⟨_, exec_buildAndEnqueueFrame_of_short hp hshort, rfl, rfl,
      fun _ => ⟨rfl, answers_respond s _ _ _ rfl rfl rfl rfl⟩, fun hroom => absurd hshort (not_lt.2 hroom)⟩
  · obtain ⟨u, hput⟩ := fifoPutAll_answers (bs := frameBytes s.cfg.crcStep sp an) hok hcap hroom
    have hcont := contents_of_fifoPutAll (bs := frameBytes s.cfg.crcStep sp an) hok hcap hroom hput
    have hbytes : ∀ G a, (∀ k < 5, (G, a) ≠ (.tx, (s.tx.wr.toNat + k) % s.cap .tx)) → u.byteAt G a = s.byteAt G a :=
      fun G a hother => by
        by_contra hne
        obtain ⟨hG, k, hk, ha⟩ := exists_of_byteAt_fifoPutAll_ne hcap hput hne
        exact hother k hk (by rw [hG, ha]; rfl)
    obtain ⟨f, rfl⟩ : ∃ f, u = s.setFifo .tx f := ⟨_, fifoPutAll_frame _ _ _ _ hput⟩
    refine ⟨_, exec_buildAndEnqueueFrame_of_room hp hroom hput, rfl, rfl,
      fun hshort => absurd hshort (not_lt.2 hroom), fun _ => ⟨answers_respond s _ _ _ rfl rfl rfl rfl, ?_, ?_⟩⟩
    · rw [respond_contents, txIrqEval_contents, hcont]
      rfl
    · simpa using hbytes

/-! ### The round trip -/

/-- A poll of an RX that stores just the frame of (sp, an) accepts it. -/
theorem poll_of_frame {s : State} {sp an : Byte} (hinv : s.Inv) (hp : s.port = .F)
    (hcont : s.contents .rx = frameBytes s.cfg.crcStep sp an) :
    ∃ t, exec .tryReceiveFrame s = .next t ∧ t.rsp .F = ⟨.OK, controlValues s.cfg.absAngleMode sp an⟩ ∧
      t.lastRemote = controlValues s.cfg.absAngleMode sp an ∧ t.mode = .REMOTE ∧ t.contents .rx = [] := by
  obtain ⟨t, hexec, hempty, -, -, -, -, hvalid⟩ :=
    windowPoll s _ _ _ _ _ [] hp (hinv.fifo_ok .rx) (hinv.cap_le .rx) hcont
  obtain ⟨⟨hrsp, -⟩, hframe⟩ := hvalid rfl (crcOfBytes_halves _).symm
  rw [hp] at hrsp
  exact ⟨t, hexec, hrsp, by rw [hframe], by rw [hframe], hempty⟩

/-- Settles O39: the send appends the frame (`buildFrameCommand`), an empty RX has room for it (`receiveAll_of_room`),
and the poll accepts it (`poll_of_frame`). -/
theorem roundTrip : Obligations.RoundTrip := by
  intro sp an s hinv hp hroom
  obtain ⟨t, hexec, -, -, -, hsent⟩ := buildFrameCommand sp an s hp (hinv.fifo_ok .tx) (hinv.cap_le .tx)
  obtain ⟨-, hcont, -⟩ := hsent hroom
  refine ⟨t, frameBytes s.cfg.crcStep sp an, hexec, rfl, hcont, fun u hinvU hpU hcfg hempty => ?_⟩
  have hlegal := hinvU.legal
  have hfits : readSize .rx u + (frameBytes s.cfg.crcStep sp an).length ≤ u.cap .rx := by
    rw [readSize_of_contents_nil hempty, frameBytes_length, cap_rx]
    omega
  obtain ⟨v, hall, hinvV, hcfgV, hcontV⟩ := receiveAll_of_room hinvU hpU hfits
  have hport : v.OnlyOutside { v with port := .F } := rfl
  have hpolled : ({ v with port := .F } : State).contents .rx = frameBytes v.cfg.crcStep sp an := by
    rw [hport.contents_eq, hcontV, hempty, hcfgV, hcfg]
    rfl
  obtain ⟨x, hpoll, hrsp, hlast, hmode, hgone⟩ := poll_of_frame (hinvV.outside hport) rfl hpolled
  have hcfgS : v.cfg = s.cfg := hcfgV.trans hcfg
  rw [show ({ v with port := .F } : State).cfg = s.cfg from hcfgS] at hrsp hlast
  refine ⟨v, x, hall, hpoll, hrsp, ?_, ?_, ?_, hmode, hgone⟩
  · rw [hrsp]; exact controlValues_speed _ _ _
  · rw [hrsp]; exact controlValues_angle _ _ _
  · rw [hrsp]; exact hlast

end Sys2Proof.Machine
